-- ==== Sys2Proof/Word.lean ====
section
/-! DEFINITION. The word types of PTPENC (spec/00_scope.md rules R6 to R8): a byte is 8 bits, and every
register is a bit vector of its own width. Addresses of BUF are plain naturals (rule R7: sums of offsets never
wrap). -/

namespace Sys2Proof

/-- An 8-bit value (rule R8). -/
abbrev Byte := BitVec 8

/-- The width of DST_OFF, DST_LEN, SRC_OFF, SRC_LEN and RES_LEN (rule R5, parameter ADDR_W: its only legal
value is 16). -/
abbrev addrW : Nat := 16

end Sys2Proof
end

