-- ==== Sys2Proof/Machine/Bytes.lean ====
section
/-! DEFINITION. Byte sequences and their order (spec/00_scope.md rules R7 and R8): big-endian, most significant byte first. -/

namespace Sys2Proof.Machine

/-- `v[hi:lo]` of rule R7. -/
def bits (hi lo v : Nat) : Nat := v / 2 ^ lo % 2 ^ (hi - lo + 1)

/-- `BE_n(v)` of rule R8: byte i is `v[8(n-1-i)+7 : 8(n-1-i)]`. -/
def be : Nat → Nat → List Byte
  | 0, _ => []
  | n + 1, v => BitVec.ofNat 8 (v / 256 ^ n) :: be n v

/-- `fromBE` of rule R8: the sum over i of `b_i * 2^(8(n-1-i))`. -/
def fromBE : List Byte → Nat
  | [] => 0
  | b :: bs => b.toNat * 256 ^ bs.length + fromBE bs

/-- The bytes `b[off .. off+n-1]` of a byte sequence. -/
def slice (off n : Nat) (bs : List Byte) : List Byte := (bs.drop off).take n

end Sys2Proof.Machine
end

