-- ==== Sys2Proof/Machine/Flags.lean ====
section
/-! DEFINITION. PTPENC has no condition flags (spec/10_state.md rule R34). Its flag-like values are the named bits of flagField
(spec/41_header_codec.md rules R100 to R102), which are message data, and the result codes of STATUS
(spec/60_exceptions.md rule R201). -/

namespace Sys2Proof.Machine

/-- The named flags of rule R100. -/
inductive Flag where
  | twostep
  | unicast
  | timeTraceable
deriving DecidableEq, Repr

/-- The bit of flagField a named flag is (rules R82, R100). -/
def Flag.bit : Flag → Nat
  | .twostep => 9
  | .unicast => 10
  | .timeTraceable => 3

/-- The flag constants of rule R100. -/
def Flag.mask : Flag → BitVec 16
  | .twostep => 0x0200
  | .unicast => 0x0400
  | .timeTraceable => 0x0008

/-- Flags combine with bitwise OR (rule R101). -/
def flagsOr : List Flag → BitVec 16
  | [] => 0
  | f :: fs => f.mask ||| flagsOr fs

/-- The error kinds of rule R201. TransportError belongs to the external transport (rules R205, R216): no command raises
it. -/
inductive ErrorKind where
  | bufferTooSmall
  | truncatedInput
  | outOfRange
  | transportError
  | badRegion
  | illegalCommand
deriving DecidableEq, Repr

/-- STATUS after a command that succeeds (rule R201). -/
def okCode : Byte := 0x00

/-- The code column of rule R201. -/
def ErrorKind.code : ErrorKind → Byte
  | .bufferTooSmall => 0x01
  | .truncatedInput => 0x02
  | .outOfRange => 0x03
  | .transportError => 0x04
  | .badRegion => 0x05
  | .illegalCommand => 0x06

end Sys2Proof.Machine
end

