-- ==== Sys2Proof/Config.lean ====
section
/-! DEFINITION. The implementation parameters of spec/00_scope.md rule R5, and the free values (the draws) the
spec leaves open: ERR_PICK (rules R132, R151) and the bytes a failed FRAME_BUILD leaves (rule R152). -/

namespace Sys2Proof

/-- RESERVED_ON_ENCODE (rules R5, R106; 92_eei_decisions.md D13): what an encode writes at the reserved bytes. -/
inductive ReservedOnEncode where
  | forceZero
  | verbatim
deriving DecidableEq, Repr

/-- SPI_LAYOUT (rules R5, R78; 92_eei_decisions.md D19): the canonical layout is the only admitted value, so
the type has one constructor. -/
inductive SpiLayout where
  | canonical
deriving DecidableEq, Repr

/-- What a read of a register does that nothing has written since reset: rule R35 (92_eei_decisions.md D33), or the host
interface's rule (log entry 12). -/
inductive UnwrittenRead where
  /-- The read raises `fault UninitRead` (rules R31, R35; D33). -/
  | raises
  /-- The read gets the value the register holds: "The hardware holds some value in such a location, but no source says
  which" (rule R35), and the host's interface has no fault there. -/
  | holds
deriving DecidableEq, Repr

/-- What the model takes as an argument: the parameters of rule R5 (ADDR_W is fixed, `addrW`, and ERR_PICK is a draw,
`Config.errPick`), and last what a read of an unwritten register does, which is an argument of the model's own (log entry 12). -/
structure Params where
  bufSize : Nat
  reservedOnEncode : ReservedOnEncode
  spiLayout : SpiLayout
  unwrittenRead : UnwrittenRead
deriving DecidableEq, Repr

/-- The values the spec takes for the hardware: rule R5's, and rule R35's fault at an unwritten register (D33). -/
def Params.spec : Params :=
  { bufSize := 64, reservedOnEncode := .forceZero, spiLayout := .canonical, unwrittenRead := .raises }

/-- The same behind the host's interface, where reading a register that nothing has written yet is no fault (log entry 12). -/
def Params.host : Params := { Params.spec with unwrittenRead := .holds }

/-- The ERR_PICK draw number `n` (rules R5, R132, R151): true reports BufferTooSmall, false reports OutOfRange.
A free value: it has no body, so nothing can be proved of which error it picks (log entry 3). -/
opaque Config.errPick : Nat → Bool

/-- The byte drawn number `n` (rule R152): one draw per byte of the region a failed FRAME_BUILD leaves
unspecified. A free value without a body (log entry 4). -/
opaque Config.freeByte : Nat → Byte

end Sys2Proof
end

