-- ==== Sys2Proof/Syntax.lean ====
section
/-! DEFINITION. What PTPENC can be told: the six commands of spec/opcode_table.json (`Instr`), the registers
(`RegName`) and the host actions (`HostAction`) of spec/30_encoding.md rule R77. -/

namespace Sys2Proof

/-- The command map of rule R72, one constructor a row. A command word has no operand fields (rule R71). -/
inductive Instr where
  /-- HDR_INIT, rule R103. -/
  | hdrInit
  /-- HDR_ENCODE, rule R104. -/
  | hdrEncode
  /-- HDR_DECODE, rule R105. -/
  | hdrDecode
  /-- TS_ENCODE, rule R132. -/
  | tsEncode
  /-- TS_DECODE, rule R133. -/
  | tsDecode
  /-- FRAME_BUILD, rule R151. -/
  | frameBuild
deriving DecidableEq, Repr

/-- The registers of spec/10_state.md rule R22, in its order. -/
inductive RegName where
  | hMsgType | hVersion | hMsgLen | hDomain | hRsv1 | hFlags
  | hCorr | hRsv2 | hSpi | hSeqId | hCtrl | hLogInt
  | tSec | tNsec
  | eDst | eSrc
  | dstOff | dstLen | srcOff | srcLen
  | status | resLen
deriving DecidableEq, Repr

/-- The width column of rule R22. -/
@[reducible] def RegName.width : RegName → Nat
  | .hMsgType => 8
  | .hVersion => 8
  | .hMsgLen => 16
  | .hDomain => 8
  | .hRsv1 => 8
  | .hFlags => 16
  | .hCorr => 64
  | .hRsv2 => 32
  | .hSpi => 80
  | .hSeqId => 16
  | .hCtrl => 8
  | .hLogInt => 8
  | .tSec => 64
  | .tNsec => 32
  | .eDst => 48
  | .eSrc => 48
  | .dstOff => addrW
  | .dstLen => addrW
  | .srcOff => addrW
  | .srcLen => addrW
  | .status => 8
  | .resLen => addrW

/-- A host action (rules R26 and R77). The tuples of rule R77 carry naturals where the spec refuses a value that
does not fit (rules R30, R51), so that an action the block refuses can be written down (DESIGN CHOICE, log entry 11). -/
inductive HostAction where
  /-- `WR id, v`, rule R30. -/
  | wr (id : Byte) (v : Nat)
  /-- `RD id`, rule R31. -/
  | rd (id : Byte)
  /-- `BW a, b`, rule R51. -/
  | bw (a : Nat) (b : Nat)
  /-- `BR a`, rule R51. -/
  | br (a : Nat)
  /-- `CMD op`: issue a command word, rules R70 to R74. -/
  | cmd (op : Byte)
  /-- `RESET`, rule R230. -/
  | reset
deriving DecidableEq, Repr

end Sys2Proof
end

