-- ==== Sys2Proof/WellFormed.lean ====
section
/-! DEFINITION. When a term of the syntax is one the spec admits: register ids (spec/10_state.md rule R22), host actions
(rules R30, R31; spec/20_memory.md rule R51; spec/30_encoding.md rule R77) and parameters (spec/00_scope.md rule R5). -/

namespace Sys2Proof

/-- The table of rule R22: id, register, and whether the host may only read it. -/
def registerTable : List (Nat × RegName × Bool) :=
  [(0x10, .hMsgType, false), (0x11, .hVersion, false), (0x12, .hMsgLen, false), (0x13, .hDomain, false),
   (0x14, .hRsv1, false), (0x15, .hFlags, false), (0x16, .hCorr, false), (0x17, .hRsv2, false)] ++
  [(0x18, .hSpi, false), (0x19, .hSeqId, false), (0x1A, .hCtrl, false), (0x1B, .hLogInt, false),
   (0x20, .tSec, false), (0x21, .tNsec, false), (0x30, .eDst, false), (0x31, .eSrc, false)] ++
  [(0x40, .dstOff, false), (0x41, .dstLen, false), (0x42, .srcOff, false), (0x43, .srcLen, false),
   (0x50, .status, true), (0x51, .resLen, true)]

/-- A command word's syntax has no operands (rule R71), so every command is well formed. -/
def Instr.wellFormed : Instr → Bool
  | .hdrInit => true
  | .hdrEncode => true
  | .hdrDecode => true
  | .tsEncode => true
  | .tsDecode => true
  | .frameBuild => true

/-- The legal values of the parameters (rule R5): 58 <= BUF_SIZE <= 65535. -/
def Params.wellFormed (p : Params) : Bool := decide (58 ≤ p.bufSize) && decide (p.bufSize ≤ 65535)

/-- The host actions the spec admits: `WR` of an assigned, writable register with a value that fits it (rule R30), `RD` of
an assigned register (rule R31), `BW` and `BR` inside BUF with a byte that is a byte (rule R51), every `CMD` and `RESET`. -/
def HostAction.wellFormed (p : Params) : HostAction → Bool
  | .wr id v => registerTable.any fun (n, r, ro) => id.toNat == n && !ro && decide (v < 2 ^ r.width)
  | .rd id => registerTable.any fun (n, _, _) => id.toNat == n
  | .bw a b => decide (a < p.bufSize) && decide (b < 256)
  | .br a => decide (a < p.bufSize)
  | .cmd _ => true
  | .reset => true

end Sys2Proof
end

