-- ==== Sys2Proof/Decode.lean ====
section
/-! DEFINITION. The command word's decoder and encoder (spec/30_encoding.md rules R70 to R74). Decoding is total: every
byte is one row of rule R72 or is rejected by name, as an illegal command. -/

namespace Sys2Proof

/-- Why a word is no command. -/
inductive DecodeError where
  /-- Codes 0x00 and 0x07 to 0xFF (rule R73): the block answers with the error IllegalCommand. -/
  | illegalCommand (op : Byte)
  /-- Not exactly one byte (rule R70: there is no other length). -/
  | wrongLength (bytes : Nat)
deriving DecidableEq, Repr

/-- The command map of rule R72; every other code is illegal (rule R73). -/
def decode (op : Byte) : Except DecodeError Instr :=
  if op = 0x01 then .ok .hdrInit
  else if op = 0x02 then .ok .hdrEncode
  else if op = 0x03 then .ok .hdrDecode
  else if op = 0x04 then .ok .tsEncode
  else if op = 0x05 then .ok .tsDecode
  else if op = 0x06 then .ok .frameBuild
  else .error (.illegalCommand op)

/-- The decoder on a byte string: a command word is exactly one byte (rule R70). -/
def decodeBytes (bytes : List Byte) : Except DecodeError Instr :=
  match bytes with
  | [op] => decode op
  | _ => .error (.wrongLength bytes.length)

/-- The command code of each command (rule R72, column op). -/
def encode : Instr → Byte
  | .hdrInit => 0x01
  | .hdrEncode => 0x02
  | .hdrDecode => 0x03
  | .tsEncode => 0x04
  | .tsDecode => 0x05
  | .frameBuild => 0x06

/-- The bytes of a command word: one byte (rule R70). -/
def encodeBytes (i : Instr) : List Byte := [encode i]

/-- The bytes of an instruction of `nbits` bits numbered as spec/opcode_table.json numbers them. The table's word is
bits 7:0, one byte; a value that needs more than `nbits` bits has no such word. -/
def tableBytes (nbits w : Nat) : List Byte :=
  if nbits = 8 ∧ w < 2 ^ 8 then [BitVec.ofNat 8 w] else []

/-- What the decoder reads from the table's word `w` of `nbits` bits (host interface). -/
def decodeTableWord (nbits w : Nat) : Option Instr :=
  match decodeBytes (tableBytes nbits w) with
  | .ok i => some i
  | .error _ => none

end Sys2Proof
end

