-- ==== Sys2Proof/Machine/State.lean ====
section
/-! DEFINITION. The state of PTPENC (spec/10_state.md rules R21, R22, R35; spec/20_memory.md rule R50), the host side of the
interface that drives it (rule R26), and the reset state (spec/70_reset_and_hazards.md rule R230). -/

namespace Sys2Proof.Machine

/-- A register of width `w`: its value and the "written" mark of rules R21 and R35. -/
structure Reg (w : Nat) where
  val : BitVec w
  written : Bool
deriving DecidableEq, Repr

/-- A register after reset where rule R22 says "unwritten": the mark is clear. The value held is zero, a DESIGN CHOICE
(log entry 1): it is what a read gets until the register is written, or, where the configuration follows rule R35's model
fault, what no read gets (log entry 12). -/
def Reg.unwritten (w : Nat) : Reg w := { val := 0, written := false }

/-- A register that holds `v` and is written. -/
def Reg.holding {w : Nat} (v : BitVec w) : Reg w := { val := v, written := true }

/-- The register file of rule R22, one field a row, each of the row's width. -/
structure Regs where
  hMsgType : Reg 8
  hVersion : Reg 8
  hMsgLen : Reg 16
  hDomain : Reg 8
  hRsv1 : Reg 8
  hFlags : Reg 16
  hCorr : Reg 64
  hRsv2 : Reg 32
  hSpi : Reg 80
  hSeqId : Reg 16
  hCtrl : Reg 8
  hLogInt : Reg 8
  tSec : Reg 64
  tNsec : Reg 32
  eDst : Reg 48
  eSrc : Reg 48
  dstOff : Reg addrW
  dstLen : Reg addrW
  srcOff : Reg addrW
  srcLen : Reg addrW
  status : Reg 8
  resLen : Reg addrW
deriving DecidableEq, Repr

/-- The reset column of rule R22 (rule R230): STATUS = 0x00 and RES_LEN = 0x0000 are written, every other register is
unwritten. -/
def Regs.reset : Regs :=
  { hMsgType := .unwritten 8, hVersion := .unwritten 8, hMsgLen := .unwritten 16, hDomain := .unwritten 8,
    hRsv1 := .unwritten 8, hFlags := .unwritten 16, hCorr := .unwritten 64, hRsv2 := .unwritten 32,
    hSpi := .unwritten 80, hSeqId := .unwritten 16, hCtrl := .unwritten 8, hLogInt := .unwritten 8,
    tSec := .unwritten 64, tNsec := .unwritten 32, eDst := .unwritten 48, eSrc := .unwritten 48,
    dstOff := .unwritten addrW, dstLen := .unwritten addrW, srcOff := .unwritten addrW, srcLen := .unwritten addrW,
    status := .holding 0x00, resLen := .holding 0x0000 }

/-- BUF (rule R50): the written bytes by address, addresses strictly rising. An address that is not listed is unwritten
(rule R35): it has no value, and reading it raises the fault UninitRead. -/
abbrev Memory := List Host.Cell

/-- What a read returned to the host (rules R31, R51). -/
inductive Reply where
  /-- `RD` of this register returned this value. -/
  | reg (r : RegName) (v : Nat)
  /-- `BR` of this address returned this byte. -/
  | byte (a : Nat) (b : Byte)
deriving DecidableEq, Repr

/-- The machine. `regs` and `buf` are the architectural state of rule R21, with the written marks. `faultMark` is the fault
mark of rules R35 and R230: set once `fault UninitRead` has been raised, and cleared by nothing; from then on no action has a
step (log entry 12). `params` is the configuration, which no step changes. The rest is the model's own: `draws`
counts the free values used so far (log entry 3), and `pending`, `done` and `replies` are the host's side: the actions A[k],
A[k+1], ... still to come, the counter k of rule R26, and what reads have returned so far, newest first (log entry 5). -/
structure State where
  regs : Regs
  buf : Memory
  faultMark : Bool
  params : Params
  draws : Nat
  pending : List HostAction
  done : Nat
  replies : List Reply
deriving DecidableEq, Repr

/-- Why a run ends in the model. -/
inductive Fault where
  /-- The run has ended with `fault UninitRead` (rules R35, R211): an earlier command or host read has read a location whose
  written mark was clear (a BUF byte, or, in the configuration in which such a read raises the fault, a register), and the fault
  mark is set. Raised by the step, whatever action is next, and by no command. Safe: the spec's own stop, it errs toward
  unprovable. -/
  | uninitRead
deriving DecidableEq, Repr

/-- Actions that have no step. -/
inductive Refusal where
  /-- An instruction without a meaning yet: raised by no arm of this model. Safe. -/
  | notModelled (mnemonic : String)
  /-- `WR` or `RD` of an id that rule R22 does not assign (rules R30, R31). Raised by WR and RD. Safe. -/
  | unassignedRegister (id : Byte)
  /-- `WR` of STATUS or RES_LEN (rule R30). Raised by WR. Safe. -/
  | readOnlyRegister (r : RegName)
  /-- `WR` of a value of 2^width or more (rule R30). Raised by WR. Safe. -/
  | valueTooWide (r : RegName) (v : Nat)
  /-- `BW` or `BR` at or above BUF_SIZE (rule R51). Raised by BW and BR. Safe. -/
  | addressOutsideBuf (a : Nat)
  /-- `BW` of a value of 256 or more (rule R51). Raised by BW. Safe. -/
  | byteTooWide (b : Nat)
  /-- A parameter outside its legal values (rule R5: a BUF_SIZE below 58 is refused). Raised by the step. Safe. -/
  | illegalParameters
deriving DecidableEq, Repr

/-- The machine with these parameters right after reset (rules R5, R22, R230): no host action given yet, the counter k of rule
R26 at 0, and the fault mark clear. The free value counter starts at 0 (DESIGN CHOICE, log entry 3). -/
def State.resetWith (p : Params) : State :=
  { regs := Regs.reset, buf := [], faultMark := false, params := p, draws := 0, pending := [], done := 0, replies := [] }

/-- The machine of the spec right after reset: rules R31 and R35 whole, a read of an unwritten register raising the fault. -/
def State.resetOfSpec : State := State.resetWith Params.spec

/-- The machine right after reset behind the host's interface: that of the spec, but for the read of an unwritten register (log
entry 12). -/
def State.reset : State := State.resetWith Params.host

end Sys2Proof.Machine
end

