-- ==== Sys2Proof/Machine/Ops.lean ====
section
/-! DEFINITION. The operations every command and host action is written over: the register file, BUF, and how a command
ends. `complete` and `raiseError` are PTPENC's whole exception mechanism (spec/60_exceptions.md rules R200, R209, R210): an
error saves no state and transfers no control, and there is nothing to return from. -/

namespace Sys2Proof.Machine

/-- The register `r` of the register file. -/
def Regs.get (f : Regs) : (r : RegName) → Reg r.width
  | .hMsgType => f.hMsgType
  | .hVersion => f.hVersion
  | .hMsgLen => f.hMsgLen
  | .hDomain => f.hDomain
  | .hRsv1 => f.hRsv1
  | .hFlags => f.hFlags
  | .hCorr => f.hCorr
  | .hRsv2 => f.hRsv2
  | .hSpi => f.hSpi
  | .hSeqId => f.hSeqId
  | .hCtrl => f.hCtrl
  | .hLogInt => f.hLogInt
  | .tSec => f.tSec
  | .tNsec => f.tNsec
  | .eDst => f.eDst
  | .eSrc => f.eSrc
  | .dstOff => f.dstOff
  | .dstLen => f.dstLen
  | .srcOff => f.srcOff
  | .srcLen => f.srcLen
  | .status => f.status
  | .resLen => f.resLen

/-- The register file with `r` replaced. -/
def Regs.set (f : Regs) : (r : RegName) → Reg r.width → Regs
  | .hMsgType, x => { f with hMsgType := x }
  | .hVersion, x => { f with hVersion := x }
  | .hMsgLen, x => { f with hMsgLen := x }
  | .hDomain, x => { f with hDomain := x }
  | .hRsv1, x => { f with hRsv1 := x }
  | .hFlags, x => { f with hFlags := x }
  | .hCorr, x => { f with hCorr := x }
  | .hRsv2, x => { f with hRsv2 := x }
  | .hSpi, x => { f with hSpi := x }
  | .hSeqId, x => { f with hSeqId := x }
  | .hCtrl, x => { f with hCtrl := x }
  | .hLogInt, x => { f with hLogInt := x }
  | .tSec, x => { f with tSec := x }
  | .tNsec, x => { f with tNsec := x }
  | .eDst, x => { f with eDst := x }
  | .eSrc, x => { f with eSrc := x }
  | .dstOff, x => { f with dstOff := x }
  | .dstLen, x => { f with dstLen := x }
  | .srcOff, x => { f with srcOff := x }
  | .srcLen, x => { f with srcLen := x }
  | .status, x => { f with status := x }
  | .resLen, x => { f with resLen := x }

/-- The register `r` of the machine: value and written mark. -/
def State.reg (s : State) (r : RegName) : Reg r.width := s.regs.get r

/-- `x[r]` as a natural of the register's width (rules R9, R23). Whether it may be read is `isWritten`. -/
def State.val (s : State) (r : RegName) : Nat := (s.reg r).val.toNat

/-- The written mark of a register (rule R35). -/
def State.isWritten (s : State) (r : RegName) : Bool := (s.reg r).written

/-- All of these registers are written. -/
def State.allWritten (s : State) (rs : List RegName) : Bool := rs.all s.isWritten

/-- `x[r] <- v` (rule R9): the register becomes written (rule R35). Every caller's `v` fits the register. -/
def State.writeReg (s : State) (r : RegName) (v : Nat) : State :=
  { s with regs := s.regs.set r (Reg.holding (BitVec.ofNat r.width v)) }

/-- The state in which `fault UninitRead` has been raised (rule R35): the fault mark is set, STATUS is not written (rule R211),
and nothing else changes (log entry 12). -/
def State.faulted (s : State) : State := { s with faultMark := true }

/-- `fault UninitRead` is raised (rules R35, R211). The action ends here, with none of its effects; from the state it leaves no
action has a step (`nextStep`). -/
def raiseUninitRead (s : State) : Host.Outcome State Fault Refusal := .next s.faulted

/-- A read of these registers gets their values: under rule R35's fault, if all of them are written; behind the host's
interface, always (log entry 12). -/
def State.canRead (s : State) (rs : List RegName) : Bool :=
  match s.params.unwrittenRead with
  | .raises => s.allWritten rs
  | .holds => true

/-- A command or RD reads these registers: it goes on with their values, or raises UninitRead (rule R35). -/
def reading (rs : List RegName) (s : State) (k : Host.Outcome State Fault Refusal) : Host.Outcome State Fault Refusal :=
  if s.canRead rs then k else raiseUninitRead s

/-- The byte at an address, none where it is unwritten (rule R35). -/
def Memory.read : Memory → Nat → Option Byte
  | [], _ => none
  | (x, y) :: m, a => if x = a then some y else Memory.read m a

/-- Writing one byte marks it written; addresses stay strictly rising. -/
def Memory.write : Memory → Nat → Byte → Memory
  | [], a, b => [(a, b)]
  | (x, y) :: m, a, b =>
    if a < x then (a, b) :: (x, y) :: m
    else if a = x then (a, b) :: m
    else (x, y) :: Memory.write m a b

/-- The bytes at `a .. a+n-1`, none if one of them is unwritten. -/
def Memory.readBytes (m : Memory) : Nat → Nat → Option (List Byte)
  | _, 0 => some []
  | a, n + 1 =>
    match m.read a, Memory.readBytes m (a + 1) n with
    | some b, some bs => some (b :: bs)
    | _, _ => none

/-- Writing a byte sequence, its first byte at the lowest address (rule R8). -/
def Memory.writeBytes : Memory → Nat → List Byte → Memory
  | m, _, [] => m
  | m, a, b :: bs => Memory.writeBytes (m.write a b) (a + 1) bs

/-- Every listed address is at least `lo`, and the addresses rise strictly. -/
def Memory.risingFrom (lo : Nat) : Memory → Bool
  | [] => true
  | (a, _) :: m => decide (lo ≤ a) && Memory.risingFrom (a + 1) m

/-- The canonical form: strictly rising addresses. An unlisted address has no value, so no entry can equal one. -/
def Memory.wf (m : Memory) : Bool := Memory.risingFrom 0 m

/-- Every listed address is below `n`. -/
def Memory.below (n : Nat) : Memory → Bool
  | [] => true
  | (a, _) :: m => decide (a < n) && Memory.below n m

/-- BUF[a], none where unwritten. -/
def State.byte (s : State) (a : Nat) : Option Byte := s.buf.read a

/-- BUF[a+i] <- bytes[i] for every i, as one step. -/
def State.storeBytes (s : State) (a : Nat) (bs : List Byte) : State :=
  { s with buf := s.buf.writeBytes a bs }

/-- `MemRead(a, n)` of rules R9 and R53: none stands for UninitRead. -/
def State.memRead (s : State) (a n : Nat) : Option Nat := (s.buf.readBytes a n).map fromBE

/-- `MemWrite(a, n, v)` of rules R9 and R53. -/
def State.memWrite (s : State) (a n v : Nat) : State := s.storeBytes a (be n v)

/-- A command reads BUF[a .. a+n-1]: UninitRead if one of them is unwritten (rule R53), else it goes on with them. -/
def readingBytes (a n : Nat) (s : State) (k : List Byte → Host.Outcome State Fault Refusal) :
    Host.Outcome State Fault Refusal :=
  match s.buf.readBytes a n with
  | some bs => k bs
  | none => raiseUninitRead s

/-- STATUS and RES_LEN as a command leaves them; STATUS is its last effect (rule R27). -/
def State.setResult (s : State) (code : Byte) (len : Nat) : State :=
  (s.writeReg .resLen len).writeReg .status code.toNat

/-- `complete(n)` (rule R9): the command ends with success. -/
def complete (n : Nat) (s : State) : Host.Outcome State Fault Refusal := .next (s.setResult okCode n)

/-- `raise E` (rules R9, R209): the command ends with error E. RES_LEN is 0, and nothing else is saved. -/
def raiseError (e : ErrorKind) (s : State) : Host.Outcome State Fault Refusal := .next (s.setResult e.code 0)

/-- `n` free values have been used (log entry 3). -/
def State.useDraws (s : State) (n : Nat) : State := { s with draws := s.draws + n }

end Sys2Proof.Machine
end

