-- ==== Sys2Proof/Machine/Operands.lean ====
section
/-! DEFINITION. The operand forms of PTPENC: the registers a command's rule fixes (spec/10_state.md rules R22 to R25; the command
word has no operand fields, spec/30_encoding.md rule R71), the two BUF regions (rule R29) and the header fields. -/

namespace Sys2Proof.Machine

/-- The id column of rule R22. -/
def regId : RegName → Byte
  | .hMsgType => 0x10
  | .hVersion => 0x11
  | .hMsgLen => 0x12
  | .hDomain => 0x13
  | .hRsv1 => 0x14
  | .hFlags => 0x15
  | .hCorr => 0x16
  | .hRsv2 => 0x17
  | .hSpi => 0x18
  | .hSeqId => 0x19
  | .hCtrl => 0x1A
  | .hLogInt => 0x1B
  | .tSec => 0x20
  | .tNsec => 0x21
  | .eDst => 0x30
  | .eSrc => 0x31
  | .dstOff => 0x40
  | .dstLen => 0x41
  | .srcOff => 0x42
  | .srcLen => 0x43
  | .status => 0x50
  | .resLen => 0x51

/-- Every register, in the order of rule R22. -/
def allRegs : List RegName :=
  [.hMsgType, .hVersion, .hMsgLen, .hDomain, .hRsv1, .hFlags, .hCorr, .hRsv2, .hSpi, .hSeqId, .hCtrl, .hLogInt] ++
  [.tSec, .tNsec, .eDst, .eSrc, .dstOff, .dstLen, .srcOff, .srcLen, .status, .resLen]

/-- `reg(id)` of rule R30: the register an id names, none for an unassigned id. -/
def regOfId (id : Byte) : Option RegName := allRegs.find? fun r => regId r == id

/-- The access column of rule R22: "RO" rows. -/
def readOnly : RegName → Bool
  | .status => true
  | .resLen => true
  | _ => false

/-- A region of BUF (rule R29): the addresses `[off, off + len)`. -/
structure Region where
  off : Nat
  len : Nat
deriving DecidableEq, Repr

/-- Region validity (rule R52), on the whole of `len` and without wrap-around. -/
def Region.valid (g : Region) (p : Params) : Bool := decide (g.off + g.len ≤ p.bufSize)

/-- A command that uses a region reads its two registers and checks the region before anything else (rules R52, R206,
R208). -/
def withRegion (off len : RegName) (s : State) (k : Region → Host.Outcome State Fault Refusal) :
    Host.Outcome State Fault Refusal :=
  reading [off, len] s
    (if Region.valid { off := s.val off, len := s.val len } s.params
      then k { off := s.val off, len := s.val len }
      else raiseError .badRegion s)

/-- The twelve fields of a PtpHeader, each of its register's width (rules R6, R22). -/
structure Header where
  msgType : BitVec 8
  version : BitVec 8
  msgLen : BitVec 16
  domain : BitVec 8
  rsv1 : BitVec 8
  flags : BitVec 16
  corr : BitVec 64
  rsv2 : BitVec 32
  spi : BitVec 80
  seqId : BitVec 16
  ctrl : BitVec 8
  logInt : BitVec 8
deriving DecidableEq, Repr

/-- The twelve header registers (rule R22). -/
def headerRegs : List RegName :=
  [.hMsgType, .hVersion, .hMsgLen, .hDomain, .hRsv1, .hFlags, .hCorr, .hRsv2, .hSpi, .hSeqId, .hCtrl, .hLogInt]

/-- The header registers `enc_hdr` reads (rules R104, R106): H_RSV1 and H_RSV2 only under Verbatim. -/
def encodedRegs : ReservedOnEncode → List RegName
  | .forceZero => [.hMsgType, .hVersion, .hMsgLen, .hDomain, .hFlags, .hCorr, .hSpi, .hSeqId, .hCtrl, .hLogInt]
  | .verbatim => headerRegs

/-- The header held in the header registers. -/
def State.header (s : State) : Header :=
  { msgType := s.regs.hMsgType.val, version := s.regs.hVersion.val, msgLen := s.regs.hMsgLen.val,
    domain := s.regs.hDomain.val, rsv1 := s.regs.hRsv1.val, flags := s.regs.hFlags.val, corr := s.regs.hCorr.val,
    rsv2 := s.regs.hRsv2.val, spi := s.regs.hSpi.val, seqId := s.regs.hSeqId.val, ctrl := s.regs.hCtrl.val,
    logInt := s.regs.hLogInt.val }

/-- All twelve header registers written with a header. -/
def State.setHeader (s : State) (h : Header) : State :=
  { s with regs :=
    { s.regs with
      hMsgType := .holding h.msgType, hVersion := .holding h.version, hMsgLen := .holding h.msgLen,
      hDomain := .holding h.domain, hRsv1 := .holding h.rsv1, hFlags := .holding h.flags, hCorr := .holding h.corr,
      hRsv2 := .holding h.rsv2, hSpi := .holding h.spi, hSeqId := .holding h.seqId, hCtrl := .holding h.ctrl,
      hLogInt := .holding h.logInt } }

end Sys2Proof.Machine
end

