-- ==== Sys2Proof/Machine/HeaderCodec.lean ====
section
/-! DEFINITION. The PtpHeader codec: HDR_INIT, HDR_ENCODE and HDR_DECODE (spec/41_header_codec.md; layout
spec/30_encoding.md rule R78). -/

namespace Sys2Proof.Machine

/-- The size of a header encoding (rule R78). -/
def hdrSize : Nat := 34

/-- The default header (rule R102): every field zeroed, then the four Sync values. -/
def defaultHeader : Header :=
  { msgType := 0x10, version := 0x02, msgLen := 44, domain := 0, rsv1 := 0, flags := flagsOr [.twostep, .unicast],
    corr := 0, rsv2 := 0, spi := 0, seqId := 0, ctrl := 0, logInt := 0 }

/-- What an encode writes for a reserved field that holds `v` (rule R106, `z1` and `z4`). -/
def reservedValue (p : ReservedOnEncode) (v : Nat) : Nat :=
  match p with
  | .forceZero => 0
  | .verbatim => v

/-- `enc_hdr` (rule R106). -/
def encHdr (p : ReservedOnEncode) (h : Header) : List Byte :=
  be 1 h.msgType.toNat ++ be 1 h.version.toNat ++ be 2 h.msgLen.toNat ++ be 1 h.domain.toNat ++
  be 1 (reservedValue p h.rsv1.toNat) ++ be 2 h.flags.toNat ++ be 8 h.corr.toNat ++
  be 4 (reservedValue p h.rsv2.toNat) ++ be 10 h.spi.toNat ++ be 2 h.seqId.toNat ++ be 1 h.ctrl.toNat ++
  be 1 h.logInt.toNat

/-- `dec_hdr` (rule R107). -/
def decHdr (b : List Byte) : Header :=
  { msgType := BitVec.ofNat 8 (fromBE (slice 0 1 b)), version := BitVec.ofNat 8 (fromBE (slice 1 1 b)),
    msgLen := BitVec.ofNat 16 (fromBE (slice 2 2 b)), domain := BitVec.ofNat 8 (fromBE (slice 4 1 b)),
    rsv1 := BitVec.ofNat 8 (fromBE (slice 5 1 b)), flags := BitVec.ofNat 16 (fromBE (slice 6 2 b)),
    corr := BitVec.ofNat 64 (fromBE (slice 8 8 b)), rsv2 := BitVec.ofNat 32 (fromBE (slice 16 4 b)),
    spi := BitVec.ofNat 80 (fromBE (slice 20 10 b)), seqId := BitVec.ofNat 16 (fromBE (slice 30 2 b)),
    ctrl := BitVec.ofNat 8 (fromBE (slice 32 1 b)), logInt := BitVec.ofNat 8 (fromBE (slice 33 1 b)) }

/-- HDR_INIT (rule R103). -/
def execHdrInit (s : State) : Host.Outcome State Fault Refusal := complete 0 (s.setHeader defaultHeader)

/-- HDR_ENCODE (rule R104). -/
def execHdrEncode (s : State) : Host.Outcome State Fault Refusal :=
  withRegion .dstOff .dstLen s fun g =>
    if g.len < hdrSize then raiseError .bufferTooSmall s
    else
      reading (encodedRegs s.params.reservedOnEncode) s
        (complete hdrSize (s.storeBytes g.off (encHdr s.params.reservedOnEncode s.header)))

/-- HDR_DECODE (rule R105). -/
def execHdrDecode (s : State) : Host.Outcome State Fault Refusal :=
  withRegion .srcOff .srcLen s fun g =>
    if g.len < hdrSize then raiseError .truncatedInput s
    else readingBytes g.off hdrSize s fun b => complete hdrSize (s.setHeader (decHdr b))

end Sys2Proof.Machine
end

