-- ==== Sys2Proof/Machine/TimestampCodec.lean ====
section
/-! DEFINITION. The PtpTimestamp codec: TS_ENCODE and TS_DECODE (spec/42_timestamp_codec.md; layout spec/30_encoding.md
rule R79). -/

namespace Sys2Proof.Machine

/-- The size of a timestamp encoding (rule R79). -/
def tsSize : Nat := 10

/-- Seconds are out of range at 2^48 and above (rule R130). -/
def secondsLimit : Nat := 2 ^ 48

/-- `enc_ts(s, n)` (rule R134), for s below 2^48. -/
def encTs (sec nsec : Nat) : List Byte :=
  be 2 (bits 47 32 sec) ++ be 4 (bits 31 0 sec) ++ be 4 nsec

/-- The seconds of `dec_ts` (rule R135). -/
def decSec (b : List Byte) : Nat := fromBE (slice 0 2 b) * 2 ^ 32 + fromBE (slice 2 4 b)

/-- The nanoseconds of `dec_ts` (rule R135). -/
def decNsec (b : List Byte) : Nat := fromBE (slice 6 4 b)

/-- The error ERR_PICK draws (rules R5, R132, R151). -/
def pickedError (pick : Bool) : ErrorKind := if pick then .bufferTooSmall else .outOfRange

/-- TS_ENCODE (rule R132), given what ERR_PICK draws where both errors apply. -/
def tsEncodeWith (pick : Bool) (s : State) : Host.Outcome State Fault Refusal :=
  withRegion .dstOff .dstLen s fun g =>
    reading [.tSec] s
      (if g.len < tsSize ∧ secondsLimit ≤ s.val .tSec then raiseError (pickedError pick) (s.useDraws 1)
      else if g.len < tsSize then raiseError .bufferTooSmall s
      else if secondsLimit ≤ s.val .tSec then raiseError .outOfRange s
      else reading [.tNsec] s (complete tsSize (s.storeBytes g.off (encTs (s.val .tSec) (s.val .tNsec)))))

/-- TS_ENCODE (rule R132): ERR_PICK is the free value the draw counter stands at. -/
def execTsEncode (s : State) : Host.Outcome State Fault Refusal := tsEncodeWith (Config.errPick s.draws) s

/-- TS_DECODE (rule R133). -/
def execTsDecode (s : State) : Host.Outcome State Fault Refusal :=
  withRegion .srcOff .srcLen s fun g =>
    if g.len < tsSize then raiseError .truncatedInput s
    else
      readingBytes g.off tsSize s fun b =>
        complete tsSize ((s.writeReg .tSec (decSec b)).writeReg .tNsec (decNsec b))

end Sys2Proof.Machine
end

