-- ==== Sys2Proof/Machine/FrameBuilder.lean ====
section
/-! DEFINITION. The FrameBuilder: FRAME_BUILD (spec/43_frame_builder.md; layouts spec/30_encoding.md rules R80 and R81). -/

namespace Sys2Proof.Machine

/-- The size of the frame (rule R81). -/
def frameSize : Nat := 58

/-- What the Ethernet header and the PtpHeader take of the frame (rules R81, R153). -/
def frameTsOffset : Nat := 48

/-- The EtherType constant (rule R150). -/
def etherType : Nat := 0x88F7

/-- The Ethernet header (rule R80): destination MAC, source MAC, EtherType. -/
def ethBytes (dst src : Nat) : List Byte := be 6 dst ++ be 6 src ++ be 2 etherType

/-- The frame the registers describe (rules R81, R151). -/
def frameBytes (s : State) : List Byte :=
  ethBytes (s.val .eDst) (s.val .eSrc) ++ encHdr s.params.reservedOnEncode s.header ++
    encTs (s.val .tSec) (s.val .tNsec)

/-- `n` drawn bytes, in order. -/
def drawnBytes (free : Nat → Byte) : Nat → List Byte
  | 0 => []
  | n + 1 => free 0 :: drawnBytes (fun i => free (i + 1)) n

/-- `fail E` of rule R151 (rule R152): the first min(len, 58) bytes of the region take drawn values, then the error. -/
def frameFail (e : ErrorKind) (free : Nat → Byte) (g : Region) (s : State) : Host.Outcome State Fault Refusal :=
  raiseError e
    ((s.storeBytes g.off (drawnBytes free (min g.len frameSize))).useDraws (min g.len frameSize))

/-- FRAME_BUILD (rule R151), given what ERR_PICK draws and the bytes a failure draws. -/
def frameBuildWith (pick : Bool) (free : Nat → Byte) (s : State) : Host.Outcome State Fault Refusal :=
  withRegion .dstOff .dstLen s fun g =>
    if g.len < frameTsOffset then frameFail .bufferTooSmall free g s
    else
      reading [.tSec] s
        (if g.len < frameSize ∧ secondsLimit ≤ s.val .tSec then frameFail (pickedError pick) free g (s.useDraws 1)
        else if g.len < frameSize then frameFail .bufferTooSmall free g s
        else if secondsLimit ≤ s.val .tSec then frameFail .outOfRange free g s
        else
          reading ([.eDst, .eSrc, .tNsec] ++ encodedRegs s.params.reservedOnEncode) s
            (complete frameSize (s.storeBytes g.off (frameBytes s))))

/-- FRAME_BUILD (rule R151): the draws are the free values from the draw counter on. -/
def execFrameBuild (s : State) : Host.Outcome State Fault Refusal :=
  frameBuildWith (Config.errPick s.draws) (fun i => Config.freeByte (s.draws + i)) s

end Sys2Proof.Machine
end

