-- ==== Sys2Proof/Machine/Dispatch.lean ====
section
/-! DEFINITION. One arm per command (spec/30_encoding.md rule R72). -/

namespace Sys2Proof.Machine

def exec (i : Instr) (s : State) : Host.Outcome State Fault Refusal :=
  match i with
  | .hdrInit => Sys2Proof.Machine.execHdrInit s
  | .hdrEncode => Sys2Proof.Machine.execHdrEncode s
  | .hdrDecode => Sys2Proof.Machine.execHdrDecode s
  | .tsEncode => Sys2Proof.Machine.execTsEncode s
  | .tsDecode => Sys2Proof.Machine.execTsDecode s
  | .frameBuild => Sys2Proof.Machine.execFrameBuild s

end Sys2Proof.Machine
end

