-- ==== Sys2Proof/Machine/HostActions.lean ====
section
/-! DEFINITION. The host's side of the interface (spec/10_state.md rules R26, R30, R31; spec/20_memory.md rule R51;
spec/30_encoding.md rules R73, R77; spec/70_reset_and_hazards.md rule R230): what each host action does. -/

namespace Sys2Proof.Machine

/-- `WR id, v` (rule R30). -/
def hostWrite (id : Byte) (v : Nat) (s : State) : Host.Outcome State Fault Refusal :=
  match regOfId id with
  | none => .refused (.unassignedRegister id)
  | some r =>
    if readOnly r then .refused (.readOnlyRegister r)
    else if 2 ^ r.width ≤ v then .refused (.valueTooWide r v)
    else .next (s.writeReg r v)

/-- `RD id` (rule R31): an unwritten register raises UninitRead (not behind the host's interface, log entry 12); else the value
goes to the host and the block's state does not change. -/
def hostRead (id : Byte) (s : State) : Host.Outcome State Fault Refusal :=
  match regOfId id with
  | none => .refused (.unassignedRegister id)
  | some r => reading [r] s (.next { s with replies := .reg r (s.val r) :: s.replies })

/-- `BW a, b` (rule R51). -/
def bufWrite (a b : Nat) (s : State) : Host.Outcome State Fault Refusal :=
  if s.params.bufSize ≤ a then .refused (.addressOutsideBuf a)
  else if 256 ≤ b then .refused (.byteTooWide b)
  else .next (s.storeBytes a [BitVec.ofNat 8 b])

/-- `BR a` (rule R51). -/
def bufRead (a : Nat) (s : State) : Host.Outcome State Fault Refusal :=
  if s.params.bufSize ≤ a then .refused (.addressOutsideBuf a)
  else
    match s.byte a with
    | none => raiseUninitRead s
    | some b => .next { s with replies := .byte a b :: s.replies }

/-- An illegal command code (rules R73, R207): only STATUS and RES_LEN change. -/
def illegalCommand (s : State) : Host.Outcome State Fault Refusal := raiseError .illegalCommand s

/-- `CMD op` (rules R70 to R74): the word is decoded, and its command executed. -/
def issue (op : Byte) (s : State) : Host.Outcome State Fault Refusal :=
  match decode op with
  | .ok i => exec i s
  | .error _ => illegalCommand s

/-- `RESET` (rule R230): the registers and BUF as after reset; the fault mark is not cleared. The parameters, the host's side and
the count of draws are no part of what reset clears (DESIGN CHOICE, log entry 10). -/
def resetBlock (s : State) : Host.Outcome State Fault Refusal := .next { s with regs := Regs.reset, buf := [] }

/-- One host action. -/
def perform (a : HostAction) (s : State) : Host.Outcome State Fault Refusal :=
  match a with
  | .wr id v => hostWrite id v s
  | .rd id => hostRead id s
  | .bw a b => bufWrite a b s
  | .br a => bufRead a s
  | .cmd op => issue op s
  | .reset => resetBlock s

/-- The action is done: the counter k advances by 1 (rule R26), and the rest of the host's actions remain. -/
def State.advance (s : State) (rest : List HostAction) : State := { s with pending := rest, done := s.done + 1 }

/-- The host performs the next action of its sequence. -/
def performNext (a : HostAction) (rest : List HostAction) (s : State) : Host.Outcome State Fault Refusal :=
  match perform a s with
  | .next t => .next (t.advance rest)
  | .fault f => .fault f
  | .refused r => .refused r

/-- The step of a machine whose parameters are legal: once a fault has been raised no action has a step and the run has ended as
faulted (rules R35, R211); else the host's next action (rule R26), and with none left the same state (DESIGN CHOICE, log entry
7). -/
def nextStep (s : State) : Host.Outcome State Fault Refusal :=
  if s.faultMark then .fault .uninitRead
  else
    match s.pending with
    | [] => .next s
    | a :: rest => performNext a rest s

/-- The parameter values rule R5 admits. -/
def paramsAdmitted (p : Params) : Bool := decide (58 ≤ p.bufSize) && decide (p.bufSize ≤ 65535)

/-- The host's program, a sequence of host actions, starts at k = 0 (rule R26). -/
def State.load (s : State) (prog : List HostAction) : State := { s with pending := prog, done := 0 }

/-- The next host action is `CMD` with this word. -/
def State.nextCommand (s : State) (op : Byte) : State := { s with pending := .cmd op :: s.pending }

end Sys2Proof.Machine
end

