-- ==== Sys2Proof/Machine/Step.lean ====
section
/-! DEFINITION. One step: the next host action of the host's sequence (spec/10_state.md rule R26). Nothing in the block runs on
its own (rules R20, R231). -/

namespace Sys2Proof.Machine

/-- One step of the machine. Illegal parameters are refused (rule R5; log entry 2). -/
def step (s : State) : Host.Outcome State Fault Refusal :=
  if paramsAdmitted s.params then nextStep s
  else .refused .illegalParameters

/-- PTPENC fetches no instructions (rules R26, R61): a command word arrives with the host's issue action, so the word is placed
as the host's very next action (log entry 6). A command word is bits 7:0 of the table's word (rule R70). -/
def State.withFetchWord (s : State) (nbits w : Nat) : State := s.nextCommand (BitVec.ofNat 8 (w % 2 ^ nbits))

end Sys2Proof.Machine
end

