-- ==== Sys2Proof/Machine/Script.lean ====
section
/-! DEFINITION. The host script syntax of spec/30_encoding.md rules R75 and R76, read into the host actions of rule R77. It is
a notation for programs and has no effect of its own (92_eei_decisions.md D12). -/

namespace Sys2Proof.Machine

/-- The name column of rule R22. -/
def regText : RegName → String
  | .hMsgType => "H_MSGTYPE"
  | .hVersion => "H_VERSION"
  | .hMsgLen => "H_MSGLEN"
  | .hDomain => "H_DOMAIN"
  | .hRsv1 => "H_RSV1"
  | .hFlags => "H_FLAGS"
  | .hCorr => "H_CORR"
  | .hRsv2 => "H_RSV2"
  | .hSpi => "H_SPI"
  | .hSeqId => "H_SEQID"
  | .hCtrl => "H_CTRL"
  | .hLogInt => "H_LOGINT"
  | .tSec => "T_SEC"
  | .tNsec => "T_NSEC"
  | .eDst => "E_DST"
  | .eSrc => "E_SRC"
  | .dstOff => "DST_OFF"
  | .dstLen => "DST_LEN"
  | .srcOff => "SRC_OFF"
  | .srcLen => "SRC_LEN"
  | .status => "STATUS"
  | .resLen => "RES_LEN"

/-- The mnemonic column of rule R72. -/
def mnemonicText : Instr → String
  | .hdrInit => "HDR_INIT"
  | .hdrEncode => "HDR_ENCODE"
  | .hdrDecode => "HDR_DECODE"
  | .tsEncode => "TS_ENCODE"
  | .tsDecode => "TS_DECODE"
  | .frameBuild => "FRAME_BUILD"

/-- Every command, in the order of rule R72. -/
def allInstrs : List Instr := [.hdrInit, .hdrEncode, .hdrDecode, .tsEncode, .tsDecode, .frameBuild]

/-- The names of the flag constants (rule R100). -/
def flagText : Flag → String
  | .twostep => "TWOSTEP"
  | .unicast => "UNICAST"
  | .timeTraceable => "TIME_TRACEABLE"

/-- Every flag constant. -/
def allFlags : List Flag := [.twostep, .unicast, .timeTraceable]

/-- One line of a script: a host action (rule R75) or a pseudo-instruction (rule R76). -/
inductive ScriptLine where
  | act (a : HostAction)
  /-- `bws a, b0 b1 ... bk-1`. -/
  | bws (a : Nat) (bs : List Nat)
  /-- `wrmac NAME, m0:m1:m2:m3:m4:m5`. -/
  | wrmac (r : RegName) (mac : List Byte)
  /-- `wrspi s0 s1 ... s9`. -/
  | wrspi (spi : List Byte)
  /-- `wrflags F1|F2|...`. -/
  | wrflags (fs : List Flag)
  /-- `region dst, OFF, LEN`. -/
  | regionDst (off len : Nat)
  /-- `region src, OFF, LEN`. -/
  | regionSrc (off len : Nat)
deriving DecidableEq, Repr

/-- Byte writes at rising addresses. -/
def byteWrites : Nat → List Nat → List HostAction
  | _, [] => []
  | a, b :: bs => .bw a b :: byteWrites (a + 1) bs

/-- The expansion of rule R76, none for a line that rule has no expansion for: `wrmac` of a register other than E_DST and
E_SRC, a MAC address that is not six bytes, a port identity that is not ten. -/
def ScriptLine.expand : ScriptLine → Option (List HostAction)
  | .act a => some [a]
  | .bws a bs => some (byteWrites a bs)
  | .wrmac r mac =>
    if (r = .eDst ∨ r = .eSrc) ∧ mac.length = 6 then some [.wr (regId r) (fromBE mac)] else none
  | .wrspi spi => if spi.length = 10 then some [.wr (regId .hSpi) (fromBE spi)] else none
  | .wrflags fs => some [.wr (regId .hFlags) (flagsOr fs).toNat]
  | .regionDst off len => some [.wr (regId .dstOff) off, .wr (regId .dstLen) len]
  | .regionSrc off len => some [.wr (regId .srcOff) off, .wr (regId .srcLen) len]

/-- A digit's value is its place among the sixteen digits, written with capitals in the spec and read either way. -/
def digitValue (c : Char) : Option Nat :=
  ("0123456789ABCDEF".toList.findIdx? (· == c)).or ("0123456789abcdef".toList.findIdx? (· == c))

/-- Digits in a base, on from the value read so far; `_` only groups digits (rule R10). -/
def digitsFrom (base : Nat) : Nat → List Char → Option Nat
  | acc, [] => some acc
  | acc, '_' :: cs => digitsFrom base acc cs
  | acc, c :: cs =>
    match digitValue c with
    | some d => if d < base then digitsFrom base (acc * base + d) cs else none
    | none => none

/-- At least one digit that is no `_`. -/
def digits (base : Nat) (cs : List Char) : Option Nat :=
  if cs.all (· == '_') then none else digitsFrom base 0 cs

/-- A number (rules R10, R75): hexadecimal after `0x`, else decimal. -/
def number : List Char → Option Nat
  | '0' :: 'x' :: cs => digits 16 cs
  | cs => digits 10 cs

/-- A byte written as one pair of hexadecimal digits (rule R8). -/
def bytePair (cs : List Char) : Option Byte :=
  if cs.length = 2 ∧ cs.all (· != '_') then (digits 16 cs).map (BitVec.ofNat 8) else none

/-- The pieces of a text between separators; an empty piece is kept. -/
def pieces (sep : Char → Bool) : List Char → List (List Char)
  | [] => [[]]
  | c :: cs =>
    if sep c then [] :: pieces sep cs
    else
      match pieces sep cs with
      | [] => [[c]]
      | w :: ws => (c :: w) :: ws

/-- The text before a comment (rule R75: text after `;` is a comment). -/
def beforeComment (cs : List Char) : List Char := cs.takeWhile (· != ';')

/-- The words of a line: white space and commas part them (log entry 8). -/
def lineWords (cs : List Char) : List (List Char) :=
  (pieces (fun c => c == ' ' || c == ',' || c == '\t' || c == '\r') (beforeComment cs)).filter fun w => !w.isEmpty

/-- The register a name stands for. -/
def regNamed (w : List Char) : Option RegName := allRegs.find? fun r => (regText r).toList == w

/-- The command word of `cmd MNEMONIC` or `cmd 0xNN` (rule R75). -/
def commandWord (w : List Char) : Option Byte :=
  match allInstrs.find? fun i => (mnemonicText i).toList == w with
  | some i => some (encode i)
  | none =>
    match w with
    | '0' :: 'x' :: cs => (digits 16 cs).bind fun n => if n < 256 then some (BitVec.ofNat 8 n) else none
    | _ => none

/-- The flags of `F1|F2|...`. -/
def flagsNamed (w : List Char) : Option (List Flag) :=
  (pieces (· == '|') w).mapM fun f => allFlags.find? fun g => (flagText g).toList == f

/-- The line a list of words is, none where it is no line of rules R75 and R76. -/
def lineOf (ws : List (List Char)) : Option ScriptLine :=
  match ws with
  | [] => none
  | word :: rest =>
    match String.ofList word, rest with
    | "wr", [name, v] =>
      match regNamed name, number v with
      | some r, some n => some (.act (.wr (regId r) n))
      | _, _ => none
    | "rd", [name] => (regNamed name).map fun r => .act (.rd (regId r))
    | "bw", [a, b] =>
      match number a, number b with
      | some a, some b => some (.act (.bw a b))
      | _, _ => none
    | "br", [a] => (number a).map fun a => .act (.br a)
    | "cmd", [m] => (commandWord m).map fun op => .act (.cmd op)
    | "reset", [] => some (.act .reset)
    | "bws", a :: bs =>
      match number a, bs.mapM number with
      | some a, some bs => some (.bws a bs)
      | _, _ => none
    | "wrmac", [name, mac] =>
      match regNamed name, (pieces (· == ':') mac).mapM bytePair with
      | some r, some bs => some (.wrmac r bs)
      | _, _ => none
    | "wrspi", bs => (bs.mapM bytePair).map .wrspi
    | "wrflags", [fs] => (flagsNamed fs).map .wrflags
    | "region", [which, off, len] =>
      match String.ofList which, number off, number len with
      | "dst", some off, some len => some (.regionDst off len)
      | "src", some off, some len => some (.regionSrc off len)
      | _, _, _ => none
    | _, _ => none

/-- The host actions of one line; an empty line or a comment is none. -/
def lineActions (cs : List Char) : Option (List HostAction) :=
  match lineWords cs with
  | [] => some []
  | ws => (lineOf ws).bind ScriptLine.expand

/-- The host actions of a script, one line after another (rule R75); none if one line is not of its syntax. -/
def scriptActions (script : String) : Option (List HostAction) :=
  ((pieces (· == '\n') script.toList).mapM lineActions).map List.flatten

end Sys2Proof.Machine
end

