-- ==== Sys2Proof/Safety.lean ====
section
/-! DEFINITION. The terms claims are stated in: what a run must keep (the invariant), what a command changes and leaves
unchanged, what the host must have written before a command (spec/70_reset_and_hazards.md rule R232), and when two states
look the same to the host. -/

namespace Sys2Proof.Machine

/-- `n` steps, stopping at the first fault or refusal: a host program of `n` actions, loaded with `State.load`, run to its end
(rule R26). After a fault there is no state to go on from (DEDUCED, log entry 9). -/
def runFor : Nat → State → Host.Outcome State Fault Refusal
  | 0, s => .next s
  | n + 1, s =>
    match step s with
    | .next t => runFor n t
    | .fault f => .fault f
    | .refused r => .refused r

/-- The command succeeds: it answers `t`, no fault has been raised (rule R35), and STATUS is OK (rule R27). -/
structure Succeeds (i : Instr) (s t : State) : Prop where
  answers : exec i s = .next t
  noFault : t.faultMark = false
  ok : t.val .status = 0x00

/-- The codes the block writes to STATUS (spec/10_state.md rule R27). TransportError, 0x04, is not among them. -/
def statusCodes : List Nat := [0x00, 0x01, 0x02, 0x03, 0x05, 0x06]

/-- RES_LEN after a command that succeeds (rule R28). -/
def successLength : Instr → Nat
  | .hdrInit => 0
  | .hdrEncode => 34
  | .hdrDecode => 34
  | .tsEncode => 10
  | .tsDecode => 10
  | .frameBuild => 58

/-- The registers rule R22 lists a command as writing, STATUS and RES_LEN among them. -/
def writtenRegs : Instr → List RegName
  | .hdrInit => headerRegs ++ [.status, .resLen]
  | .hdrEncode => [.status, .resLen]
  | .hdrDecode => headerRegs ++ [.status, .resLen]
  | .tsEncode => [.status, .resLen]
  | .tsDecode => [.tSec, .tNsec, .status, .resLen]
  | .frameBuild => [.status, .resLen]

/-- The registers a command's rule may read ("Operands read" of rules R103 to R105, R132, R133, R151). -/
def operandRegs (p : ReservedOnEncode) : Instr → List RegName
  | .hdrInit => []
  | .hdrEncode => [.dstOff, .dstLen] ++ encodedRegs p
  | .hdrDecode => [.srcOff, .srcLen]
  | .tsEncode => [.dstOff, .dstLen, .tSec, .tNsec]
  | .tsDecode => [.srcOff, .srcLen]
  | .frameBuild => [.dstOff, .dstLen, .eDst, .eSrc, .tSec, .tNsec] ++ encodedRegs p

/-- How many bytes of the destination region, from its start, a command may write (rules R56, R151, R152). -/
def storedSize : Instr → Nat
  | .hdrInit => 0
  | .hdrEncode => 34
  | .hdrDecode => 0
  | .tsEncode => 10
  | .tsDecode => 0
  | .frameBuild => 58

/-- STATUS and RES_LEN are written and hold these values. -/
structure Result (t : State) (code len : Nat) : Prop where
  statusWritten : t.isWritten .status = true
  status : t.val .status = code
  resLenWritten : t.isWritten .resLen = true
  resLen : t.val .resLen = len

/-- From `s` to `t` only the registers `rs` and the `n` bytes of BUF at `lo` may differ: every other register keeps its value
and its mark, every other byte reads as before, and the parameters and the host's side are as they were. The
fault mark is no part of the frame. -/
structure Frame (s t : State) (rs : List RegName) (lo n : Nat) : Prop where
  regs : ∀ r, r ∉ rs → t.reg r = s.reg r
  bytes : ∀ a, a < lo ∨ lo + n ≤ a → t.byte a = s.byte a
  params : t.params = s.params
  pending : t.pending = s.pending
  done : t.done = s.done
  replies : t.replies = s.replies

/-- The host has written these registers. -/
def regsReady (rs : List RegName) (s : State) : Prop := ∀ r ∈ rs, s.isWritten r = true

/-- A read of these registers gets their values: they are written, or the configuration lets an unwritten register be read (log
entry 12). -/
def regsReadable (rs : List RegName) (s : State) : Prop := s.params.unwrittenRead = .holds ∨ regsReady rs s

/-- The `n` bytes of BUF at `a` are written. -/
def bytesReady (a n : Nat) (s : State) : Prop := ∀ i, i < n → ∃ b, s.byte (a + i) = some b

/-- The destination region lies in BUF (rules R29, R52). -/
def dstValid (s : State) : Prop := s.val .dstOff + s.val .dstLen ≤ s.params.bufSize

/-- The source region lies in BUF (rules R29, R52). -/
def srcValid (s : State) : Prop := s.val .srcOff + s.val .srcLen ≤ s.params.bufSize

/-- What the host must write before each command (rule R232). The source bytes are those the command would read: 34 or 10
from SRC_OFF on. -/
def Ready (i : Instr) (s : State) : Prop :=
  match i with
  | .hdrInit => True
  | .hdrEncode => regsReady ([.dstOff, .dstLen] ++ encodedRegs s.params.reservedOnEncode) s
  | .hdrDecode => regsReady [.srcOff, .srcLen] s ∧ bytesReady (s.val .srcOff) 34 s
  | .tsEncode => regsReady [.dstOff, .dstLen, .tSec, .tNsec] s
  | .tsDecode => regsReady [.srcOff, .srcLen] s ∧ bytesReady (s.val .srcOff) 10 s
  | .frameBuild =>
    regsReady ([.dstOff, .dstLen, .eDst, .eSrc, .tSec, .tNsec] ++ encodedRegs s.params.reservedOnEncode) s

/-- What every step keeps: legal parameters (rule R5), BUF in its canonical form and inside BUF_SIZE (rule R50), and result
registers that are written and hold a result of rules R27 and R28. -/
structure Inv (s : State) : Prop where
  params : paramsAdmitted s.params = true
  bufCanonical : s.buf.wf = true
  bufInside : s.buf.below s.params.bufSize = true
  statusWritten : s.isWritten .status = true
  resLenWritten : s.isWritten .resLen = true
  statusLegal : s.val .status ∈ statusCodes
  resLenLegal : s.val .resLen ∈ [0, 10, 34, 58]
  errorLength : s.val .status ≠ 0 → s.val .resLen = 0

/-- `s` with anything at all in H_RSV1 and H_RSV2, the written marks included. -/
def State.withReserved (s : State) (x : Reg 8) (y : Reg 32) : State :=
  { s with regs := { s.regs with hRsv1 := x, hRsv2 := y } }

/-- Two states that differ at most in what unwritten registers hold (rule R35: a value no source gives). -/
structure SameButUnwritten (s t : State) : Prop where
  marks : ∀ r, s.isWritten r = t.isWritten r
  vals : ∀ r, s.isWritten r = true → s.val r = t.val r
  buf : s.buf = t.buf
  faultMark : s.faultMark = t.faultMark
  params : s.params = t.params
  draws : s.draws = t.draws
  pending : s.pending = t.pending
  done : s.done = t.done
  replies : s.replies = t.replies

/-- Two states that differ at most in the registers' written marks. -/
structure SameButMarks (s t : State) : Prop where
  vals : ∀ r, s.val r = t.val r
  buf : s.buf = t.buf
  faultMark : s.faultMark = t.faultMark
  params : s.params = t.params
  draws : s.draws = t.draws
  pending : s.pending = t.pending
  done : s.done = t.done
  replies : s.replies = t.replies

/-- `s` with the given reading of rule R35 (log entry 12). -/
def State.withUnwrittenRead (s : State) (u : UnwrittenRead) : State :=
  { s with params := { s.params with unwrittenRead := u } }

/-- Two outcomes of the same kind: related next states, or the same reason to stop. -/
def SameOutcome (R : State → State → Prop) (x y : Host.Outcome State Fault Refusal) : Prop :=
  match x, y with
  | .next s, .next t => R s t
  | .fault f, .fault g => f = g
  | .refused r, .refused q => r = q
  | _, _ => False

/-- The host's duties of rule R235 for a conformant Sync message, none of which the block checks. -/
def conformantSync (s : State) : Prop :=
  s.val .tNsec < 1000000000 ∧ s.val .hMsgLen = 44 ∧ s.val .hMsgType = 0x10 ∧ s.val .hVersion = 2 ∧
    (s.params.reservedOnEncode = .verbatim → s.val .hRsv1 = 0 ∧ s.val .hRsv2 = 0)

/-- The output of a command may be used (rule R234): STATUS is OK after it. -/
def outputUsable (s : State) : Prop := s.val .status = 0x00

end Sys2Proof.Machine
end

