-- ==== Sys2Proof/Certificates/Slice0/Obligations.lean ====
section
/-! DEFINITION. The statements about this model, from the numbered rules of spec/. Each docstring names the rule it
formalises; a clause that is the model's own choice says so. -/

open Sys2Proof Sys2Proof.Machine

/-! ### Encoding -/

/-- Rules R72 and R74: the six rows of the command map, and that every byte is a row or IllegalCommand. -/
def Obligations.CommandMapIsTotal : Prop :=
  decode 0x01 = .ok .hdrInit ∧ decode 0x02 = .ok .hdrEncode ∧ decode 0x03 = .ok .hdrDecode ∧
  decode 0x04 = .ok .tsEncode ∧ decode 0x05 = .ok .tsDecode ∧ decode 0x06 = .ok .frameBuild ∧
  ∀ op : Byte, (op.toNat = 0 ∨ 7 ≤ op.toNat → decode op = .error (.illegalCommand op)) ∧
    (1 ≤ op.toNat ∧ op.toNat ≤ 6 → ∃ i, decode op = .ok i ∧ encode i = op)

/-- Rules R70 and R72: a command's word is one byte, and decoding it gives the command back; no other byte string decodes to
it. -/
def Obligations.EncodeThenDecode : Prop :=
  ∀ i : Instr, (encodeBytes i).length = 1 ∧ decodeBytes (encodeBytes i) = .ok i ∧
    ∀ bytes, decodeBytes bytes = .ok i → bytes = encodeBytes i

/-! ### The machine: steps, reset, the host's sequence -/

/-- Rules R26, R56 and R70: with legal parameters and no fault raised, a step performs the next host action, whichever it is, then
the sequence moves on by one; a refused action has no step (rule R211); the action CMD is `exec` of the decoded command, and an
illegal code the error IllegalCommand (rule R73). Holding the sequence and k in the state is the model's choice (log entry 5), and
so is that an action which raises UninitRead answers the state with the fault mark set (log entry 12): no action stops by
itself. -/
def Obligations.StepRunsDecodedCommand : Prop :=
  (∀ (s : State) (a : HostAction) (rest : List HostAction), paramsAdmitted s.params = true → s.faultMark = false →
    s.pending = a :: rest →
    (∀ t, perform a s = .next t → step s = .next (t.advance rest)) ∧ (∀ f, perform a s ≠ .fault f) ∧
    (∀ r, perform a s = .refused r → step s = .refused r)) ∧
  ∀ (s : State) (op : Byte) (rest : List HostAction), paramsAdmitted s.params = true → s.faultMark = false →
    s.pending = .cmd op :: rest →
    (∀ i, decode op = .ok i → ∃ t, exec i s = .next t ∧ step s = .next (t.advance rest)) ∧
    (∀ e, decode op = .error e → step s = .next ((s.setResult 0x06 0).advance rest))

/-- Rule R22's reset column, for every value of the parameters: STATUS = 0x00 and RES_LEN = 0x0000 are written, every other
register and every BUF byte is unwritten, the fault mark is clear; the counter k is 0 (rule R26). The machine of the spec has the
parameters rule R5 takes, and faults at an unwritten register (rule R35); State.reset is that machine but for the read of
an unwritten register, which is the model's choice (log entry 12). -/
def Obligations.ResetStateIsAsGiven : Prop :=
  (∀ p : Params, Result (State.resetWith p) 0x00 0 ∧
    (∀ r, r ≠ .status → r ≠ .resLen → (State.resetWith p).isWritten r = false) ∧
    (∀ a, (State.resetWith p).byte a = none) ∧ (State.resetWith p).params = p ∧ (State.resetWith p).done = 0 ∧
    (State.resetWith p).faultMark = false) ∧
  State.resetOfSpec = State.resetWith ⟨64, .forceZero, .canonical, .raises⟩ ∧
  State.reset = State.resetWith ⟨64, .forceZero, .canonical, .holds⟩

/-- Rule R230: what the host action reset does in every state; power-on leaves the same; the fault mark is not cleared, and a run
that has ended as faulted stays faulted, whatever actions (a reset among them) would come next. The model's own choices in it: the
values behind the clear marks are those of State.reset (log entry 1), and the parameters, the draws and the host's side stay (log
entry 10). -/
def Obligations.ResetActionClearsBlock : Prop :=
  (∀ s : State, ∃ t, perform .reset s = .next t ∧ Result t 0x00 0 ∧
    (∀ r, r ≠ .status → r ≠ .resLen → t.isWritten r = false) ∧ (∀ a, t.byte a = none) ∧ t.faultMark = s.faultMark ∧
    t.params = s.params ∧ t.pending = s.pending ∧ t.done = s.done ∧ t.replies = s.replies ∧ t.draws = s.draws ∧
    t.regs = State.reset.regs ∧ t.buf = State.reset.buf) ∧
  ∀ (s : State) (f : Fault) (n m : Nat), runFor n s = .fault f → runFor (n + m) s = .fault f

/-- Rule R26: from k = 0, each host action that has a step advances k by exactly 1, and what is left is the sequence without
its first k actions; at k = n the program has ended and, if no fault has been raised, nothing changes
any more (log entry 7). -/
def Obligations.CounterAdvancesPerAction : Prop :=
  (∀ (s : State) (prog : List HostAction) (m : Nat) (t : State), m ≤ prog.length →
    runFor m (s.load prog) = .next t → t.done = m ∧ t.pending = prog.drop m) ∧
  ∀ (s : State) (prog : List HostAction) (m : Nat) (t : State), paramsAdmitted s.params = true →
    runFor prog.length (s.load prog) = .next t → t.faultMark = false → runFor (prog.length + m) (s.load prog) = .next t

/-- Rule R5: a configuration outside the legal values of BUF_SIZE has no step, and one inside them, 58 and 65535 among them, is
never refused for its parameters, under either value of RESERVED_ON_ENCODE. -/
def Obligations.IllegalParametersRefused : Prop :=
  (∀ s : State, s.params.bufSize < 58 ∨ 65535 < s.params.bufSize → step s = .refused .illegalParameters) ∧
  (∀ s : State, 58 ≤ s.params.bufSize → s.params.bufSize ≤ 65535 → step s ≠ .refused .illegalParameters) ∧
  ∀ p : Params, paramsAdmitted p = true ↔ 58 ≤ p.bufSize ∧ p.bufSize ≤ 65535

/-- Rules R73 and R207: an illegal command code, in every state. -/
def Obligations.IllegalCodesOnlyReport : Prop :=
  ∀ (s : State) (op : Byte), op.toNat = 0 ∨ 7 ≤ op.toNat →
    ∃ t, perform (.cmd op) s = .next t ∧ Result t 0x06 0 ∧ Frame s t [.status, .resLen] 0 0 ∧ t.draws = s.draws ∧
      t.faultMark = s.faultMark

/-! ### The six commands on their success paths, with their frames -/

/-- Rules R102 and R103: HDR_INIT in every state. -/
def Obligations.HdrInitLoadsDefaults : Prop :=
  ∀ s : State, ∃ t, exec .hdrInit s = .next t ∧ Result t 0x00 0 ∧ regsReady headerRegs t ∧
    t.val .hMsgType = 0x10 ∧ t.val .hVersion = 0x02 ∧ t.val .hMsgLen = 44 ∧ t.val .hFlags = 0x0600 ∧
    (∀ r ∈ headerRegs, r ≠ .hMsgType → r ≠ .hVersion → r ≠ .hMsgLen → r ≠ .hFlags → t.val r = 0) ∧
    Frame s t (headerRegs ++ [.status, .resLen]) 0 0 ∧ t.draws = s.draws ∧ t.faultMark = s.faultMark ∧
    exec .hdrInit t = .next t

/-- Rules R78 and R104, success path: under either value of RESERVED_ON_ENCODE, each field stands at its offset and size,
read back with MemRead; only the 34 bytes, STATUS and RES_LEN change. -/
def Obligations.HdrEncodeWritesLayout : Prop :=
  ∀ s : State, regsReady ([.dstOff, .dstLen] ++ encodedRegs s.params.reservedOnEncode) s → dstValid s →
    34 ≤ s.val .dstLen →
    ∃ t, exec .hdrEncode s = .next t ∧ Result t 0x00 34 ∧
      Frame s t [.status, .resLen] (s.val .dstOff) 34 ∧ t.draws = s.draws ∧ t.faultMark = s.faultMark ∧
      t.memRead (s.val .dstOff) 1 = some (s.val .hMsgType) ∧
      t.memRead (s.val .dstOff + 1) 1 = some (s.val .hVersion) ∧
      t.memRead (s.val .dstOff + 2) 2 = some (s.val .hMsgLen) ∧
      t.memRead (s.val .dstOff + 4) 1 = some (s.val .hDomain) ∧
      t.memRead (s.val .dstOff + 5) 1 =
        some (if s.params.reservedOnEncode = .forceZero then 0 else s.val .hRsv1) ∧
      t.memRead (s.val .dstOff + 6) 2 = some (s.val .hFlags) ∧
      t.memRead (s.val .dstOff + 8) 8 = some (s.val .hCorr) ∧
      t.memRead (s.val .dstOff + 16) 4 =
        some (if s.params.reservedOnEncode = .forceZero then 0 else s.val .hRsv2) ∧
      t.memRead (s.val .dstOff + 20) 10 = some (s.val .hSpi) ∧
      t.memRead (s.val .dstOff + 30) 2 = some (s.val .hSeqId) ∧
      t.memRead (s.val .dstOff + 32) 1 = some (s.val .hCtrl) ∧
      t.memRead (s.val .dstOff + 33) 1 = some (s.val .hLogInt)

/-- Rules R105 and R107, success path: every field is the big-endian value of its bytes, whatever they are (rule R108); only
the header registers, STATUS and RES_LEN change. -/
def Obligations.HdrDecodeReadsLayout : Prop :=
  ∀ s : State, regsReady [.srcOff, .srcLen] s → srcValid s → 34 ≤ s.val .srcLen → bytesReady (s.val .srcOff) 34 s →
    ∃ t, exec .hdrDecode s = .next t ∧ Result t 0x00 34 ∧ regsReady headerRegs t ∧
      Frame s t (headerRegs ++ [.status, .resLen]) 0 0 ∧ t.draws = s.draws ∧ t.faultMark = s.faultMark ∧
      s.memRead (s.val .srcOff) 1 = some (t.val .hMsgType) ∧
      s.memRead (s.val .srcOff + 1) 1 = some (t.val .hVersion) ∧
      s.memRead (s.val .srcOff + 2) 2 = some (t.val .hMsgLen) ∧
      s.memRead (s.val .srcOff + 4) 1 = some (t.val .hDomain) ∧
      s.memRead (s.val .srcOff + 5) 1 = some (t.val .hRsv1) ∧
      s.memRead (s.val .srcOff + 6) 2 = some (t.val .hFlags) ∧
      s.memRead (s.val .srcOff + 8) 8 = some (t.val .hCorr) ∧
      s.memRead (s.val .srcOff + 16) 4 = some (t.val .hRsv2) ∧
      s.memRead (s.val .srcOff + 20) 10 = some (t.val .hSpi) ∧
      s.memRead (s.val .srcOff + 30) 2 = some (t.val .hSeqId) ∧
      s.memRead (s.val .srcOff + 32) 1 = some (t.val .hCtrl) ∧
      s.memRead (s.val .srcOff + 33) 1 = some (t.val .hLogInt)

/-- Rules R79, R131 and R132, success path: seconds below 2^48 and any nanoseconds. -/
def Obligations.TsEncodeWritesLayout : Prop :=
  ∀ s : State, regsReady [.dstOff, .dstLen, .tSec, .tNsec] s → dstValid s → 10 ≤ s.val .dstLen →
    s.val .tSec < 2 ^ 48 →
    ∃ t, exec .tsEncode s = .next t ∧ Result t 0x00 10 ∧
      Frame s t [.status, .resLen] (s.val .dstOff) 10 ∧ t.draws = s.draws ∧ t.faultMark = s.faultMark ∧
      t.memRead (s.val .dstOff) 2 = some (s.val .tSec / 2 ^ 32) ∧
      t.memRead (s.val .dstOff + 2) 4 = some (s.val .tSec % 2 ^ 32) ∧
      t.memRead (s.val .dstOff + 6) 4 = some (s.val .tNsec)

/-- Rules R133 and R135, success path: the seconds combine the two parts and are below 2^48, whatever the bytes are. -/
def Obligations.TsDecodeReadsLayout : Prop :=
  ∀ s : State, regsReady [.srcOff, .srcLen] s → srcValid s → 10 ≤ s.val .srcLen → bytesReady (s.val .srcOff) 10 s →
    ∃ t hi lo, exec .tsDecode s = .next t ∧ Result t 0x00 10 ∧ regsReady [.tSec, .tNsec] t ∧
      Frame s t [.tSec, .tNsec, .status, .resLen] 0 0 ∧ t.draws = s.draws ∧ t.faultMark = s.faultMark ∧
      s.memRead (s.val .srcOff) 2 = some hi ∧ s.memRead (s.val .srcOff + 2) 4 = some lo ∧
      t.val .tSec = hi * 2 ^ 32 + lo ∧ t.val .tSec < 2 ^ 48 ∧
      s.memRead (s.val .srcOff + 6) 4 = some (t.val .tNsec)

/-- Rules R80, R81, R150 and R151, success path: every field of the frame at its offset, whatever H_MSGLEN holds (rule
R155); exactly 58 bytes (rule R156). -/
def Obligations.FrameBuildWritesLayout : Prop :=
  ∀ s : State,
    regsReady ([.dstOff, .dstLen, .eDst, .eSrc, .tSec, .tNsec] ++ encodedRegs s.params.reservedOnEncode) s →
    dstValid s → 58 ≤ s.val .dstLen → s.val .tSec < 2 ^ 48 →
    ∃ t, exec .frameBuild s = .next t ∧ Result t 0x00 58 ∧
      Frame s t [.status, .resLen] (s.val .dstOff) 58 ∧ t.draws = s.draws ∧ t.faultMark = s.faultMark ∧
      t.memRead (s.val .dstOff) 6 = some (s.val .eDst) ∧
      t.memRead (s.val .dstOff + 6) 6 = some (s.val .eSrc) ∧
      t.memRead (s.val .dstOff + 12) 2 = some 0x88F7 ∧
      t.memRead (s.val .dstOff + 14) 1 = some (s.val .hMsgType) ∧
      t.memRead (s.val .dstOff + 15) 1 = some (s.val .hVersion) ∧
      t.memRead (s.val .dstOff + 16) 2 = some (s.val .hMsgLen) ∧
      t.memRead (s.val .dstOff + 18) 1 = some (s.val .hDomain) ∧
      t.memRead (s.val .dstOff + 19) 1 =
        some (if s.params.reservedOnEncode = .forceZero then 0 else s.val .hRsv1) ∧
      t.memRead (s.val .dstOff + 20) 2 = some (s.val .hFlags) ∧
      t.memRead (s.val .dstOff + 22) 8 = some (s.val .hCorr) ∧
      t.memRead (s.val .dstOff + 30) 4 =
        some (if s.params.reservedOnEncode = .forceZero then 0 else s.val .hRsv2) ∧
      t.memRead (s.val .dstOff + 34) 10 = some (s.val .hSpi) ∧
      t.memRead (s.val .dstOff + 44) 2 = some (s.val .hSeqId) ∧
      t.memRead (s.val .dstOff + 46) 1 = some (s.val .hCtrl) ∧
      t.memRead (s.val .dstOff + 47) 1 = some (s.val .hLogInt) ∧
      t.memRead (s.val .dstOff + 48) 2 = some (s.val .tSec / 2 ^ 32) ∧
      t.memRead (s.val .dstOff + 50) 4 = some (s.val .tSec % 2 ^ 32) ∧
      t.memRead (s.val .dstOff + 54) 4 = some (s.val .tNsec)

/-- Rule R232: a command whose locations the host has written ends in a next state, with success or with an error, and leaves the
fault mark as it was. In every other state it answers a next state too: an error is a result (rule R200), and a read that
raises UninitRead leaves the state with the fault mark set, which is the model's form of that fault (log entry 12). -/
def Obligations.ReadyCommandsComplete : Prop :=
  (∀ (i : Instr) (s : State), Ready i s → ∃ t, exec i s = .next t ∧ t.faultMark = s.faultMark) ∧
  ∀ (i : Instr) (s : State), ∃ t, exec i s = .next t

/-! ### Errors -/

/-- Rules R52 and R206: each command that uses a region checks it first, on the whole of its length; only its
two registers need be written. -/
def Obligations.BadRegionComesFirst : Prop :=
  (∀ (i : Instr) (s : State), i = .hdrEncode ∨ i = .tsEncode ∨ i = .frameBuild → regsReady [.dstOff, .dstLen] s →
    s.params.bufSize < s.val .dstOff + s.val .dstLen →
    ∃ t, exec i s = .next t ∧ Result t 0x05 0 ∧ Frame s t [.status, .resLen] 0 0 ∧ t.draws = s.draws ∧
      t.faultMark = s.faultMark) ∧
  (∀ (i : Instr) (s : State), i = .hdrDecode ∨ i = .tsDecode → regsReady [.srcOff, .srcLen] s →
    s.params.bufSize < s.val .srcOff + s.val .srcLen →
    ∃ t, exec i s = .next t ∧ Result t 0x05 0 ∧ Frame s t [.status, .resLen] 0 0 ∧ t.draws = s.draws ∧
      t.faultMark = s.faultMark) ∧
  (∀ (i : Instr) (s t : State), exec i s = .next t → t.faultMark = false → t.val .status = 0x05 →
    ((i = .hdrEncode ∨ i = .tsEncode ∨ i = .frameBuild) ∧ s.params.bufSize < s.val .dstOff + s.val .dstLen) ∨
    ((i = .hdrDecode ∨ i = .tsDecode) ∧ s.params.bufSize < s.val .srcOff + s.val .srcLen))

/-- Rule R202: where BufferTooSmall is reported, and that it is STATUS = 0x01 and RES_LEN = 0; HDR_ENCODE and TS_ENCODE leave
BUF, FRAME_BUILD leaves it as rule R152 says. Where ERR_PICK applies, the other error is OutOfRange. -/
def Obligations.BufferTooSmallCases : Prop :=
  (∀ s : State, regsReady [.dstOff, .dstLen] s → dstValid s → s.val .dstLen < 34 →
    ∃ t, exec .hdrEncode s = .next t ∧ Result t 0x01 0 ∧ Frame s t [.status, .resLen] 0 0 ∧ t.draws = s.draws ∧
      t.faultMark = s.faultMark) ∧
  (∀ s : State, regsReady [.dstOff, .dstLen, .tSec] s → dstValid s → s.val .dstLen < 10 →
    ∃ t, exec .tsEncode s = .next t ∧ Frame s t [.status, .resLen] 0 0 ∧ t.faultMark = s.faultMark ∧
      (Result t 0x01 0 ∨ 2 ^ 48 ≤ s.val .tSec ∧ Result t 0x03 0)) ∧
  (∀ s : State, regsReady [.dstOff, .dstLen] s → dstValid s → s.val .dstLen < 58 →
    (48 ≤ s.val .dstLen → regsReady [.tSec] s) →
    ∃ t, exec .frameBuild s = .next t ∧
      Frame s t [.status, .resLen] (s.val .dstOff) (s.val .dstLen) ∧
      bytesReady (s.val .dstOff) (s.val .dstLen) t ∧
      t.faultMark = s.faultMark ∧
      (Result t 0x01 0 ∨ 48 ≤ s.val .dstLen ∧ 2 ^ 48 ≤ s.val .tSec ∧ Result t 0x03 0))

/-- Rule R203: TruncatedInput. -/
def Obligations.TruncatedInputCases : Prop :=
  ∀ s : State, regsReady [.srcOff, .srcLen] s → srcValid s →
    (s.val .srcLen < 34 →
      ∃ t, exec .hdrDecode s = .next t ∧ Result t 0x02 0 ∧ Frame s t [.status, .resLen] 0 0 ∧ t.draws = s.draws ∧
        t.faultMark = s.faultMark) ∧
    (s.val .srcLen < 10 →
      ∃ t, exec .tsDecode s = .next t ∧ Result t 0x02 0 ∧ Frame s t [.status, .resLen] 0 0 ∧ t.draws = s.draws ∧
        t.faultMark = s.faultMark)

/-- Rules R130 and R204: TS_ENCODE and FRAME_BUILD report OutOfRange for seconds of 2^48 and more and never truncate them; no
command reports it for any other reason. The nanoseconds need not be written. -/
def Obligations.OutOfRangeCases : Prop :=
  (∀ s : State, regsReady [.dstOff, .dstLen, .tSec] s → dstValid s → 10 ≤ s.val .dstLen → 2 ^ 48 ≤ s.val .tSec →
    ∃ t, exec .tsEncode s = .next t ∧ Result t 0x03 0 ∧ Frame s t [.status, .resLen] 0 0 ∧ t.draws = s.draws ∧
      t.faultMark = s.faultMark) ∧
  (∀ s : State, regsReady [.dstOff, .dstLen, .tSec] s → dstValid s → 58 ≤ s.val .dstLen → 2 ^ 48 ≤ s.val .tSec →
    ∃ t, exec .frameBuild s = .next t ∧ Result t 0x03 0 ∧ Frame s t [.status, .resLen] (s.val .dstOff) 58 ∧
      t.faultMark = s.faultMark) ∧
  (∀ (i : Instr) (s t : State), exec i s = .next t → t.faultMark = false → t.val .status = 0x03 →
    (i = .tsEncode ∨ i = .frameBuild) ∧ 2 ^ 48 ≤ s.val .tSec)

/-- Rule R132, ERR_PICK (rule R5): where both errors apply, TS_ENCODE reports the drawn one, and each of the two is what some
draw reports; whatever is drawn, BUF and the operand registers stay. The draw is used up: the counter moves on by one (log
entry 3), and on no other path of TS_ENCODE does it move. -/
def Obligations.TsEncodeAdmitsBothErrors : Prop :=
  (∀ s : State, regsReady [.dstOff, .dstLen, .tSec] s → dstValid s → s.val .dstLen < 10 → 2 ^ 48 ≤ s.val .tSec →
    (∃ pick, exec .tsEncode s = tsEncodeWith pick s) ∧
    (∀ pick, ∃ t, tsEncodeWith pick s = .next t ∧ t.draws = s.draws + 1 ∧ t.faultMark = s.faultMark) ∧
    ∀ code, code = 0x01 ∨ code = 0x03 ↔
      ∃ pick t, tsEncodeWith pick s = .next t ∧ Result t code 0 ∧ Frame s t [.status, .resLen] 0 0) ∧
  ∀ s t : State, exec .tsEncode s = .next t → ¬ (dstValid s ∧ s.val .dstLen < 10 ∧ 2 ^ 48 ≤ s.val .tSec) →
    t.draws = s.draws

/-- Rule R153: which error FRAME_BUILD reports for each length of the region, whatever the draws. -/
def Obligations.FrameBuildErrorByLength : Prop :=
  ∀ s : State, regsReady [.dstOff, .dstLen] s → dstValid s → (48 ≤ s.val .dstLen → regsReady [.tSec] s) →
    ∀ (pick : Bool) (free : Nat → Byte),
      (s.val .dstLen < 48 → ∃ t, frameBuildWith pick free s = .next t ∧ Result t 0x01 0 ∧ t.faultMark = s.faultMark) ∧
      (48 ≤ s.val .dstLen → s.val .dstLen < 58 → s.val .tSec < 2 ^ 48 →
        ∃ t, frameBuildWith pick free s = .next t ∧ Result t 0x01 0 ∧ t.faultMark = s.faultMark) ∧
      (48 ≤ s.val .dstLen → s.val .dstLen < 58 → 2 ^ 48 ≤ s.val .tSec →
        ∃ t, frameBuildWith pick free s = .next t ∧ Result t (if pick then 0x01 else 0x03) 0 ∧ t.faultMark = s.faultMark) ∧
      (58 ≤ s.val .dstLen → 2 ^ 48 ≤ s.val .tSec →
        ∃ t, frameBuildWith pick free s = .next t ∧ Result t 0x03 0 ∧ t.faultMark = s.faultMark) ∧
      (58 ≤ s.val .dstLen → ∀ t, frameBuildWith pick free s = .next t → t.faultMark = false → t.val .status ≠ 0x00 →
        2 ^ 48 ≤ s.val .tSec ∧ Result t 0x03 0)

/-- Rule R152: after BufferTooSmall or OutOfRange the bytes at DST_OFF + i for i < min(DST_LEN, 58) are the drawn ones and
written, so that every content is some draw's; every other byte stays. After BadRegion every byte stays. The draws are used up:
the counter moves on by one for each of those bytes, and by one more where ERR_PICK was drawn (log entries 3 and 4); on the
other paths it stays. (Where UninitRead is raised instead, there is no error: rule R211.) -/
def Obligations.FailedFrameBuildLeavesDraws : Prop :=
  (∀ (s t : State) (pick : Bool) (free : Nat → Byte), frameBuildWith pick free s = .next t →
    t.faultMark = false → t.val .status = 0x01 ∨ t.val .status = 0x03 →
    (∀ i, i < min (s.val .dstLen) 58 → t.byte (s.val .dstOff + i) = some (free i)) ∧
    (∀ a, a < s.val .dstOff ∨ s.val .dstOff + min (s.val .dstLen) 58 ≤ a → t.byte a = s.byte a) ∧
    t.draws = s.draws + min (s.val .dstLen) 58 +
      (if 48 ≤ s.val .dstLen ∧ s.val .dstLen < 58 ∧ 2 ^ 48 ≤ s.val .tSec then 1 else 0)) ∧
  (∀ (s t : State) (pick : Bool) (free : Nat → Byte), frameBuildWith pick free s = .next t →
    t.faultMark = false → t.val .status = 0x05 → t.draws = s.draws ∧ ∀ a, t.byte a = s.byte a) ∧
  (∀ (s t : State) (pick : Bool) (free : Nat → Byte), frameBuildWith pick free s = .next t →
    t.faultMark = false → t.val .status = 0x00 → t.draws = s.draws) ∧
  (∀ s : State, exec .frameBuild s = frameBuildWith (Config.errPick s.draws) (fun i => Config.freeByte (s.draws + i)) s)

/-- Rules R27, R28, R201 and R205: every command writes STATUS with one of the six codes and never 0x04, and RES_LEN is the
command's size on success and 0 on any error. A command that raises UninitRead writes neither (rule R211). -/
def Obligations.ResultPairIsLegal : Prop :=
  ∀ (i : Instr) (s t : State), exec i s = .next t → t.faultMark = false →
    Result t 0x00 (successLength i) ∨
    ∃ code, code ∈ [0x01, 0x02, 0x03, 0x05] ∧ Result t code 0

/-- Rules R35, R208 and R211: UninitRead is raised exactly by a read that the command's rule performs, after the errors checked
before it; it writes neither STATUS nor anything else. From a state with a clear mark. `State.faulted` is the model's form of the
raised fault, and so is the configuration: where it follows rule R35 for registers too, each of them must be written; where an
unwritten register is read as it stands, only the bytes a decode reads (log entry 12). Rule R35's end of the run is
`FaultEndsTheRun`. -/
def Obligations.UninitReadExactly : Prop :=
  ∀ s : State, s.faultMark = false →
    exec .hdrInit s ≠ .next s.faulted ∧
    (s.params.unwrittenRead = .raises →
      (exec .hdrEncode s = .next s.faulted ↔
        ¬ regsReady [.dstOff, .dstLen] s ∨
          dstValid s ∧ 34 ≤ s.val .dstLen ∧ ¬ regsReady (encodedRegs s.params.reservedOnEncode) s) ∧
      (exec .hdrDecode s = .next s.faulted ↔
        ¬ regsReady [.srcOff, .srcLen] s ∨
          srcValid s ∧ 34 ≤ s.val .srcLen ∧ ¬ bytesReady (s.val .srcOff) 34 s) ∧
      (exec .tsEncode s = .next s.faulted ↔
        ¬ regsReady [.dstOff, .dstLen] s ∨
          dstValid s ∧ (¬ regsReady [.tSec] s ∨
            10 ≤ s.val .dstLen ∧ s.val .tSec < 2 ^ 48 ∧ ¬ regsReady [.tNsec] s)) ∧
      (exec .tsDecode s = .next s.faulted ↔
        ¬ regsReady [.srcOff, .srcLen] s ∨
          srcValid s ∧ 10 ≤ s.val .srcLen ∧ ¬ bytesReady (s.val .srcOff) 10 s) ∧
      (exec .frameBuild s = .next s.faulted ↔
        ¬ regsReady [.dstOff, .dstLen] s ∨
          dstValid s ∧ 48 ≤ s.val .dstLen ∧ (¬ regsReady [.tSec] s ∨
            58 ≤ s.val .dstLen ∧ s.val .tSec < 2 ^ 48 ∧
              ¬ regsReady ([.eDst, .eSrc, .tNsec] ++ encodedRegs s.params.reservedOnEncode) s))) ∧
    (s.params.unwrittenRead = .holds →
      (∀ i, i ≠ .hdrDecode → i ≠ .tsDecode → exec i s ≠ .next s.faulted) ∧
      (exec .hdrDecode s = .next s.faulted ↔
        srcValid s ∧ 34 ≤ s.val .srcLen ∧ ¬ bytesReady (s.val .srcOff) 34 s) ∧
      (exec .tsDecode s = .next s.faulted ↔
        srcValid s ∧ 10 ≤ s.val .srcLen ∧ ¬ bytesReady (s.val .srcOff) 10 s))

/-- A machine whose every register and BUF byte is written never faults (rule R35): no step raises the fault or stops with it. -/
def Obligations.WrittenMachineNeverFaults : Prop :=
  ∀ s : State, s.faultMark = false → (∀ r, s.isWritten r = true) → bytesReady 0 s.params.bufSize s →
    (∀ f, step s ≠ .fault f) ∧ ∀ t, step s = .next t → t.faultMark = false

/-! ### The host's actions -/

/-- Rule R30: WR. The ids and widths are those of rule R22. -/
def Obligations.HostWriteRule : Prop :=
  (∀ (s : State) (id : Byte) (v : Nat), regOfId id = none → ∃ r, perform (.wr id v) s = .refused r) ∧
  (∀ (s : State) (r : RegName) (v : Nat), r = .status ∨ r = .resLen ∨ 2 ^ r.width ≤ v →
    ∃ e, perform (.wr (regId r) v) s = .refused e) ∧
  (∀ (s : State) (r : RegName) (v : Nat), r ≠ .status → r ≠ .resLen → v < 2 ^ r.width →
    ∃ t, perform (.wr (regId r) v) s = .next t ∧ t.isWritten r = true ∧ t.val r = v ∧
      Frame s t [r] 0 0 ∧ t.draws = s.draws ∧ t.faultMark = s.faultMark)

/-- Rule R31: RD. Where the configuration follows rule R35 for registers, a read of an unwritten register raises the fault
UninitRead, and returns nothing; where an unwritten register is read as it stands, it returns the value held. The configuration,
and `State.faulted` as the form of the raised fault, are the model's (log entry 12). -/
def Obligations.HostReadRule : Prop :=
  (∀ (s : State) (id : Byte), regOfId id = none → ∃ r, perform (.rd id) s = .refused r) ∧
  (∀ (s : State) (r : RegName), s.params.unwrittenRead = .raises → s.isWritten r = false →
    perform (.rd (regId r)) s = .next s.faulted) ∧
  (∀ (s : State) (r : RegName), s.params.unwrittenRead = .holds ∨ s.isWritten r = true →
    ∃ t, perform (.rd (regId r)) s = .next t ∧ t.replies = .reg r (s.val r) :: s.replies ∧
      t.regs = s.regs ∧ t.buf = s.buf ∧ t.params = s.params ∧ t.draws = s.draws ∧ t.faultMark = s.faultMark)

/-- Rule R22's id, width and access columns, row by row; no two registers share an id, and every other id is unassigned. -/
def Obligations.RegisterIdsAreTheTable : Prop :=
  regOfId 0x10 = some .hMsgType ∧ regOfId 0x11 = some .hVersion ∧ regOfId 0x12 = some .hMsgLen ∧
  regOfId 0x13 = some .hDomain ∧ regOfId 0x14 = some .hRsv1 ∧ regOfId 0x15 = some .hFlags ∧
  regOfId 0x16 = some .hCorr ∧ regOfId 0x17 = some .hRsv2 ∧ regOfId 0x18 = some .hSpi ∧
  regOfId 0x19 = some .hSeqId ∧ regOfId 0x1A = some .hCtrl ∧ regOfId 0x1B = some .hLogInt ∧
  regOfId 0x20 = some .tSec ∧ regOfId 0x21 = some .tNsec ∧ regOfId 0x30 = some .eDst ∧ regOfId 0x31 = some .eSrc ∧
  regOfId 0x40 = some .dstOff ∧ regOfId 0x41 = some .dstLen ∧ regOfId 0x42 = some .srcOff ∧
  regOfId 0x43 = some .srcLen ∧ regOfId 0x50 = some .status ∧ regOfId 0x51 = some .resLen ∧
  RegName.width .hMsgType = 8 ∧ RegName.width .hVersion = 8 ∧ RegName.width .hMsgLen = 16 ∧
  RegName.width .hDomain = 8 ∧ RegName.width .hRsv1 = 8 ∧ RegName.width .hFlags = 16 ∧
  RegName.width .hCorr = 64 ∧ RegName.width .hRsv2 = 32 ∧ RegName.width .hSpi = 80 ∧
  RegName.width .hSeqId = 16 ∧ RegName.width .hCtrl = 8 ∧ RegName.width .hLogInt = 8 ∧
  RegName.width .tSec = 64 ∧ RegName.width .tNsec = 32 ∧ RegName.width .eDst = 48 ∧ RegName.width .eSrc = 48 ∧
  RegName.width .dstOff = 16 ∧ RegName.width .dstLen = 16 ∧ RegName.width .srcOff = 16 ∧
  RegName.width .srcLen = 16 ∧ RegName.width .status = 8 ∧ RegName.width .resLen = 16 ∧
  (∀ r, readOnly r = true ↔ r = .status ∨ r = .resLen) ∧
  (∀ (id : Byte) (r : RegName), regOfId id = some r ↔ id = regId r) ∧
  ∀ id : Byte, regOfId id = none ↔
    ¬ ((0x10 ≤ id.toNat ∧ id.toNat ≤ 0x1B) ∨ (0x20 ≤ id.toNat ∧ id.toNat ≤ 0x21) ∨
      (0x30 ≤ id.toNat ∧ id.toNat ≤ 0x31) ∨ (0x40 ≤ id.toNat ∧ id.toNat ≤ 0x43) ∨
      (0x50 ≤ id.toNat ∧ id.toNat ≤ 0x51))

/-- Rule R51: BW and BR. BR of an unwritten byte raises the fault UninitRead, in the model's form (log entry 12). -/
def Obligations.HostBufferAccessRule : Prop :=
  (∀ (s : State) (a b : Nat), a < s.params.bufSize → b < 256 →
    ∃ t, perform (.bw a b) s = .next t ∧ t.byte a = some (BitVec.ofNat 8 b) ∧ Frame s t [] a 1 ∧ t.draws = s.draws ∧
      t.faultMark = s.faultMark) ∧
  (∀ (s : State) (a : Nat) (b : Byte), a < s.params.bufSize → s.byte a = some b →
    ∃ t, perform (.br a) s = .next t ∧ t.replies = .byte a b :: s.replies ∧
      t.regs = s.regs ∧ t.buf = s.buf ∧ t.params = s.params ∧ t.draws = s.draws ∧ t.faultMark = s.faultMark) ∧
  (∀ (s : State) (a : Nat), a < s.params.bufSize → s.byte a = none → perform (.br a) s = .next s.faulted) ∧
  (∀ (s : State) (a b : Nat), s.params.bufSize ≤ a → (∃ r, perform (.bw a b) s = .refused r) ∧
    ∃ r, perform (.br a) s = .refused r) ∧
  (∀ (s : State) (a b : Nat), 256 ≤ b → ∃ r, perform (.bw a b) s = .refused r)

/-- Rule R211: the host actions that are refused are exactly those the syntax's check refuses (rules R30, R31, R51), whatever
the state; a refusal comes before a fault. -/
def Obligations.RefusedIffNotWellFormed : Prop :=
  ∀ (s : State) (a : HostAction), (∃ r, perform a s = .refused r) ↔ a.wellFormed s.params = false

/-! ### Frames and whole-machine rules -/

/-- Rule R33 and the "written by" column of rule R22: a command changes no register outside its row and no byte outside its
part of the destination region; no command writes E_DST, E_SRC or a region register. -/
def Obligations.CommandFrame : Prop :=
  (∀ (i : Instr) (s t : State), exec i s = .next t →
    Frame s t (writtenRegs i) (s.val .dstOff) (min (s.val .dstLen) (storedSize i))) ∧
  ∀ i : Instr, ∀ r ∈ [RegName.eDst, .eSrc, .dstOff, .dstLen, .srcOff, .srcLen], r ∉ writtenRegs i

/-- Rule R209: an error of any command but FRAME_BUILD changes nothing but STATUS and RES_LEN (one that raises UninitRead
changes neither). -/
def Obligations.ErrorsArePrecise : Prop :=
  ∀ (i : Instr) (s t : State), exec i s = .next t → t.val .status ≠ 0x00 → i ≠ .frameBuild →
    Frame s t [.status, .resLen] 0 0

/-- Rule R32: a command's result depends on nothing but what its rule reads. Two states with equal parameters, draws
and fault mark that agree on the command's operand registers (and, for a decode, on the bytes it reads) give the same outcome: both
raise UninitRead or neither does, and where none is raised they end with the same STATUS and RES_LEN and, on success, the same
written registers and the same bytes in the destination region. -/
def Obligations.ResultDependsOnOperandsOnly : Prop :=
  ∀ (i : Instr) (s u : State), s.params = u.params → s.draws = u.draws → s.faultMark = u.faultMark →
    (∀ r ∈ operandRegs s.params.reservedOnEncode i, s.reg r = u.reg r) →
    (i = .hdrDecode → ∀ j, j < 34 → s.byte (s.val .srcOff + j) = u.byte (s.val .srcOff + j)) →
    (i = .tsDecode → ∀ j, j < 10 → s.byte (s.val .srcOff + j) = u.byte (s.val .srcOff + j)) →
    SameOutcome
      (fun t v => t.draws = v.draws ∧ t.faultMark = v.faultMark ∧ (t.faultMark = false →
        t.reg .status = v.reg .status ∧ t.reg .resLen = v.reg .resLen ∧ (t.val .status = 0x00 →
          (∀ r ∈ writtenRegs i, t.reg r = v.reg r) ∧
          ∀ j, j < storedSize i → t.byte (s.val .dstOff + j) = v.byte (s.val .dstOff + j))))
      (exec i s) (exec i u)

/-- Rules R104, R106 and R151 under ForceZero: HDR_ENCODE and FRAME_BUILD do not read H_RSV1 and H_RSV2, neither their values nor
their marks: with anything at all in the two registers, written or not, the command ends as before, with the same STATUS,
RES_LEN, BUF and fault mark. Where a register the command does read is unwritten and the configuration follows rule R35 for
registers, both states it ends in are those of the raised fault, in the model's form (log entry 12). -/
def Obligations.ForceZeroIgnoresReserved : Prop :=
  ∀ (i : Instr) (s : State) (x : Reg 8) (y : Reg 32), i = .hdrEncode ∨ i = .frameBuild →
    s.params.reservedOnEncode = .forceZero →
    ∃ t, exec i s = .next t ∧ exec i (s.withReserved x y) = .next (t.withReserved x y)

/-- Where the configuration follows rule R35 for registers, what an unwritten register holds is never seen (rules R35, R230): two
states that differ only there take steps of the same kind, to states that again differ only there, or stop for the same reason. No
such run owes anything to the value zero the model names for reset (log entry 1). -/
def Obligations.UnwrittenValuesUnseen : Prop :=
  ∀ s t : State, s.params.unwrittenRead = .raises → SameButUnwritten s t →
    SameOutcome SameButUnwritten (step s) (step t)

/-! ### Byte order and layouts -/

/-- Rule R8: BE_n and fromBE are inverse, in both directions. -/
def Obligations.BigEndianInverse : Prop :=
  (∀ n v : Nat, v < 256 ^ n → (be n v).length = n ∧ fromBE (be n v) = v) ∧
  (∀ bs : List Byte, be bs.length (fromBE bs) = bs) ∧
  ∀ (n v i : Nat) (h : i < (be n v).length), (be n v)[i].toNat = bits (8 * (n - 1 - i) + 7) (8 * (n - 1 - i)) v

/-- Rule R53: MemWrite puts `v[8(n-1-i)+7 : 8(n-1-i)]` at a+i, marks each byte written and changes no other, and MemRead gives
the value back; MemRead of a range with an unwritten byte is UninitRead. -/
def Obligations.MemReadAfterMemWrite : Prop :=
  (∀ (s : State) (a n v : Nat), v < 256 ^ n → (s.memWrite a n v).memRead a n = some v) ∧
  (∀ (s : State) (a n v i : Nat), i < n →
    (s.memWrite a n v).byte (a + i) = some (BitVec.ofNat 8 (bits (8 * (n - 1 - i) + 7) (8 * (n - 1 - i)) v))) ∧
  (∀ (s : State) (a n v c : Nat), c < a ∨ a + n ≤ c → (s.memWrite a n v).byte c = s.byte c) ∧
  ∀ (s : State) (a n : Nat), s.memRead a n = none ↔ ∃ i, i < n ∧ s.byte (a + i) = none

/-- Rule R54: the six bytes of the encoded seconds are BE_6 of them, and a 64-bit field is its high half first. -/
def Obligations.MixedWidthViews : Prop :=
  (∀ s n : Nat, s < 2 ^ 48 → encTs s n = be 6 s ++ be 4 n) ∧
  ∀ v : Nat, v < 2 ^ 64 → be 8 v = be 4 (v / 2 ^ 32) ++ be 4 (v % 2 ^ 32)

/-- Rule R24 with the pseudo-instructions of rule R76: a MAC address written by `wrmac`, and a port identity written by
`wrspi`, is held so that its array bytes are the register's bytes, first byte most significant. -/
def Obligations.RawArraysKeepTheirOrder : Prop :=
  (∀ (s : State) (r : RegName) (mac : List Byte), r = .eDst ∨ r = .eSrc → mac.length = 6 →
    ∃ a t, (ScriptLine.wrmac r mac).expand = some [a] ∧ perform a s = .next t ∧ be 6 (t.val r) = mac ∧
      ∀ i (h : i < mac.length), mac[i].toNat = bits (8 * (5 - i) + 7) (8 * (5 - i)) (t.val r)) ∧
  ∀ (s : State) (spi : List Byte), spi.length = 10 →
    ∃ a t, (ScriptLine.wrspi spi).expand = some [a] ∧ perform a s = .next t ∧ be 10 (t.val .hSpi) = spi ∧
      ∀ i (h : i < spi.length), spi[i].toNat = bits (8 * (9 - i) + 7) (8 * (9 - i)) (t.val .hSpi)

/-- Rule R76: the expansions of `bws`, `wrflags` and `region`. -/
def Obligations.PseudoInstructionsExpand : Prop :=
  (∀ (a : Nat) (bs : List Nat), ∃ l, (ScriptLine.bws a bs).expand = some l ∧ l.length = bs.length ∧
    ∀ i (h : i < bs.length), l[i]? = some (.bw (a + i) bs[i])) ∧
  (∀ off len : Nat, (ScriptLine.regionDst off len).expand = some [.wr 0x40 off, .wr 0x41 len] ∧
    (ScriptLine.regionSrc off len).expand = some [.wr 0x42 off, .wr 0x43 len]) ∧
  ∀ fs : List Flag, ∃ v, (ScriptLine.wrflags fs).expand = some [.wr 0x15 v] ∧ v < 2 ^ 16 ∧
    ∀ i, v.testBit i = true ↔ ∃ f ∈ fs, f.bit = i

/-- Rules R82, R100 and R101: after a successful HDR_ENCODE, TWOSTEP is 0x02 and UNICAST 0x04 in header byte 6, and
TIME_TRACEABLE is 0x08 in byte 7; every bit of H_FLAGS, named or not, is written as it stands. -/
def Obligations.FlagBitsOnTheWire : Prop :=
  ∀ s t : State, Succeeds .hdrEncode s t →
    ∃ b6 b7, t.byte (s.val .dstOff + 6) = some b6 ∧ t.byte (s.val .dstOff + 7) = some b7 ∧
      (∀ j, j < 8 → b6.getLsbD j = (s.val .hFlags).testBit (8 + j) ∧ b7.getLsbD j = (s.val .hFlags).testBit j) ∧
      (b6 &&& 0x02 ≠ 0 ↔ (s.val .hFlags).testBit 9 = true) ∧
      (b6 &&& 0x04 ≠ 0 ↔ (s.val .hFlags).testBit 10 = true) ∧
      (b7 &&& 0x08 ≠ 0 ↔ (s.val .hFlags).testBit 3 = true) ∧
      Flag.twostep.bit = 9 ∧ Flag.unicast.bit = 10 ∧ Flag.timeTraceable.bit = 3

/-- Rules R100 and R101: the flag constants, each the power of two of its bit, and their combinations. -/
def Obligations.FlagConstants : Prop :=
  (∀ f : Flag, flagsOr [f] = BitVec.ofNat 16 (2 ^ f.bit)) ∧
  flagsOr [.twostep] = 0x0200 ∧ flagsOr [.unicast] = 0x0400 ∧ flagsOr [.timeTraceable] = 0x0008 ∧
  flagsOr [.twostep, .unicast] = 0x0600 ∧ flagsOr [.twostep, .unicast, .timeTraceable] = 0x0608

/-! ### Laws of the codecs -/

/-- Rule R110: the round trip of the header, in both directions, under both values of RESERVED_ON_ENCODE. -/
def Obligations.HeaderRoundTrip : Prop :=
  (∀ (p : ReservedOnEncode) (h : Header), p = .verbatim ∨ h.rsv1 = 0 ∧ h.rsv2 = 0 → decHdr (encHdr p h) = h) ∧
  (∀ b : List Byte, b.length = 34 → encHdr .verbatim (decHdr b) = b) ∧
  ∀ b : List Byte, b.length = 34 →
    (encHdr .forceZero (decHdr b) = b ↔ ∀ j, j = 5 ∨ 16 ≤ j ∧ j ≤ 19 → b[j]? = some 0)

/-- Rule R111: 34 bytes always, RES_LEN = 34 after every success, and a second HDR_ENCODE leaves every byte as the first did;
where BUF is in canonical form it leaves the same state. -/
def Obligations.HeaderLengthAndIdempotence : Prop :=
  (∀ (p : ReservedOnEncode) (h : Header), (encHdr p h).length = 34) ∧
  ∀ s t : State, Succeeds .hdrEncode s t →
    t.val .resLen = 34 ∧ (∃ u, Succeeds .hdrEncode t u ∧ ∀ a, u.byte a = t.byte a) ∧
      (s.buf.wf = true → exec .hdrEncode t = .next t)

/-- Rule R136: the round trip of the timestamp in both directions, its length, and that a second TS_ENCODE leaves every byte as
the first did; where BUF is in canonical form it leaves the same state. -/
def Obligations.TimestampRoundTrip : Prop :=
  (∀ s n : Nat, s < 2 ^ 48 → n < 2 ^ 32 →
    (encTs s n).length = 10 ∧ decSec (encTs s n) = s ∧ decNsec (encTs s n) = n) ∧
  (∀ b : List Byte, b.length = 10 →
    encTs (decSec b) (decNsec b) = b ∧ decSec b < 2 ^ 48 ∧ decNsec b < 2 ^ 32) ∧
  ∀ s t : State, Succeeds .tsEncode s t →
    t.val .resLen = 10 ∧ (∃ u, Succeeds .tsEncode t u ∧ ∀ a, u.byte a = t.byte a) ∧
      (s.buf.wf = true → exec .tsEncode t = .next t)

/-- Rule R110 on the machine: after a successful HDR_ENCODE of a valid header, HDR_DECODE of the same bytes (the source region
pointed at them by the host) succeeds and leaves every header register it encoded as it was, whatever the header registers were
set to in between. -/
def Obligations.EncodeThenDecodeRestoresHeader : Prop :=
  ∀ (s t : State) (h' : Header), Succeeds .hdrEncode s t →
    s.params.reservedOnEncode = .verbatim ∨ s.val .hRsv1 = 0 ∧ s.val .hRsv2 = 0 →
    ∃ u, Succeeds .hdrDecode (((t.setHeader h').writeReg .srcOff (s.val .dstOff)).writeReg .srcLen 34) u ∧
      u.val .resLen = 34 ∧ u.header = s.header ∧ regsReady headerRegs u ∧ u.buf = t.buf

/-- Rule R136 on the machine: after a successful TS_ENCODE, TS_DECODE of the same bytes succeeds and restores T_SEC and T_NSEC,
whatever they were set to in between. -/
def Obligations.EncodeThenDecodeRestoresTimestamp : Prop :=
  ∀ (s t : State) (v w : Nat), Succeeds .tsEncode s t →
    ∃ u, Succeeds .tsDecode ((((t.writeReg .tSec v).writeReg .tNsec w).writeReg .srcOff (s.val .dstOff)).writeReg .srcLen 10)
        u ∧
      u.val .resLen = 10 ∧ u.val .tSec = s.val .tSec ∧ u.val .tNsec = s.val .tNsec ∧ u.buf = t.buf

/-- Rules R81 and R153: a successful FRAME_BUILD leaves the BUF that the three steps leave one after another: the Ethernet
header written at DST_OFF, then HDR_ENCODE with the region at DST_OFF + 14, then TS_ENCODE with the region at DST_OFF + 48. -/
def Obligations.FrameIsItsThreeSteps : Prop :=
  ∀ s t : State, paramsAdmitted s.params = true → Succeeds .frameBuild s t →
    ∃ u v, Succeeds .hdrEncode
        (((((s.memWrite (s.val .dstOff) 6 (s.val .eDst)).memWrite (s.val .dstOff + 6) 6 (s.val .eSrc)).memWrite
          (s.val .dstOff + 12) 2 0x88F7).writeReg .dstOff (s.val .dstOff + 14)).writeReg .dstLen
            (s.val .dstLen - 14)) u ∧
      Succeeds .tsEncode ((u.writeReg .dstOff (s.val .dstOff + 48)).writeReg .dstLen (s.val .dstLen - 48)) v ∧ v.buf = t.buf

/-- Rule R236: TS_ENCODE at frame offset 48 after a successful FRAME_BUILD replaces the frame's timestamp bytes and leaves the
48 bytes before them. -/
def Obligations.TimestampPatchesFrame : Prop :=
  ∀ (s t : State) (v w : Nat), paramsAdmitted s.params = true → Succeeds .frameBuild s t →
    v < 2 ^ 48 → w < 2 ^ 32 →
    ∃ u, Succeeds .tsEncode
        ((((t.writeReg .tSec v).writeReg .tNsec w).writeReg .dstOff (s.val .dstOff + 48)).writeReg .dstLen 10) u ∧
      u.memRead (s.val .dstOff + 48) 6 = some v ∧ u.memRead (s.val .dstOff + 54) 4 = some w ∧
      ∀ a, a < s.val .dstOff + 48 ∨ s.val .dstOff + 58 ≤ a → u.byte a = t.byte a

/-! ### Invariants -/

/-- The invariant holds at reset, for every legal value of the parameters (rules R5, R22, R230). -/
def Obligations.InvariantAtReset : Prop :=
  Inv State.reset ∧ ∀ p : Params, paramsAdmitted p = true → Inv (State.resetWith p)

/-- Every step keeps the invariant: legal parameters, BUF in canonical form and inside BUF_SIZE (rule R50), and a result pair of
rules R27 and R28 (STATUS never 0x04, rule R205; RES_LEN 0 with an error). -/
def Obligations.StepKeepsInvariant : Prop :=
  ∀ s t : State, Inv s → step s = .next t → Inv t

/-- No step changes the parameters (rule R5) and no action clears the fault mark (rules R35 and R230), reset among them; a step
with the mark set answers no next state; and no step gives a draw back (rules R132, R152; the draw counter is the model's own, log
entry 3): the counter never falls. -/
def Obligations.StepKeepsParametersAndDraws : Prop :=
  (∀ s t : State, step s = .next t → t.params = s.params ∧ s.draws ≤ t.draws ∧ s.faultMark = false) ∧
  ∀ (a : HostAction) (s t : State), perform a s = .next t → s.faultMark = true → t.faultMark = true

/-! ### The end of a faulted run -/

/-- Rules R35 and R211: once the fault is raised no further action has a step, whatever it is, and the run has ended as faulted;
a step stops for no other reason; and the action that raises the fault changes nothing but the fault mark: it writes no STATUS and
returns nothing to the host. The mark as a field, and that the raising action leaves the rest as it was, are the model's form of
the rule (log entry 12). -/
def Obligations.FaultEndsTheRun : Prop :=
  (∀ (s : State) (n : Nat), paramsAdmitted s.params = true → s.faultMark = true →
    runFor (n + 1) s = .fault .uninitRead) ∧
  (∀ (s : State) (f : Fault), step s = .fault f → s.faultMark = true) ∧
  (∀ (a : HostAction) (s t : State), perform a s = .next t → s.faultMark = false → t.faultMark = true → t = s.faulted)

/-! ### The two readings of rule R35 -/

/-- Where the configuration lets an unwritten register be read as it stands (the machine behind the host's interface, log
entry 12; rule R35: "The hardware holds some value in such a location"), the registers' written marks play no part: two states that
differ only there take steps of the same kind, to states that again differ only there. So every statement about written operands
says what happens with unwritten ones that hold the same values. -/
def Obligations.HeldValuesAreRead : Prop :=
  ∀ s t : State, s.params.unwrittenRead = .holds → SameButMarks s t → SameOutcome SameButMarks (step s) (step t)

/-- The two readings of rule R35 part only where its fault is raised (log entry 12): a step that raises none under the rule's model
fault is, but for the configuration, the step where unwritten registers are read as they stand, and a refusal is the same refusal
under both. -/
def Obligations.ReadingsAgreeWithoutFault : Prop :=
  ∀ s : State,
    (∀ t, step (s.withUnwrittenRead .raises) = .next t → t.faultMark = false →
      step (s.withUnwrittenRead .holds) = .next (t.withUnwrittenRead .holds)) ∧
    ∀ r, step (s.withUnwrittenRead .raises) = .refused r ↔ step (s.withUnwrittenRead .holds) = .refused r

/-- Rules R31, R35 and R211 from reset, in the machine of the spec and with every other legal value of the parameters of rule R5:
RD of a register that nothing has written, or any command but HDR_INIT, as the first host action raises UninitRead, and the run has
ended as faulted whatever actions follow; STATUS and RES_LEN read 0; and a register the host has written reads as it was written.
That the run has ended is seen at the step after the one that raises the fault, the model's form of it (log entry 12). -/
def Obligations.UnwrittenReadEndsRunFromReset : Prop :=
  ∀ p : Params, paramsAdmitted p = true → p.unwrittenRead = .raises →
    (∀ (r : RegName) (rest : List HostAction) (n : Nat), r ≠ .status → r ≠ .resLen →
      runFor (n + 2) ((State.resetWith p).load (.rd (regId r) :: rest)) = .fault .uninitRead) ∧
    (∀ (i : Instr) (rest : List HostAction) (n : Nat), i ≠ .hdrInit →
      runFor (n + 2) ((State.resetWith p).load (.cmd (encode i) :: rest)) = .fault .uninitRead) ∧
    (∀ r : RegName, r = .status ∨ r = .resLen →
      ∃ t, runFor 1 ((State.resetWith p).load [.rd (regId r)]) = .next t ∧ t.faultMark = false ∧ t.replies = [.reg r 0]) ∧
    (∀ (r : RegName) (v : Nat), r ≠ .status → r ≠ .resLen → v < 2 ^ r.width →
      ∃ t, runFor 2 ((State.resetWith p).load [.wr (regId r) v, .rd (regId r)]) = .next t ∧ t.faultMark = false ∧
        t.replies = [.reg r v])

/-- The machine behind the host's interface from reset, with every legal value of the parameters of rule R5: RD of any register as
the first host action returns the value it holds, 0 where rule R22 gives none, and any command word as the first host action
answers a next state without a fault. The model's choice throughout (log entries 1, 6 and 12). -/
def Obligations.HostMachineGoesOnFromReset : Prop :=
  ∀ p : Params, paramsAdmitted p = true → p.unwrittenRead = .holds →
    (∀ r : RegName, ∃ t, runFor 1 ((State.resetWith p).load [.rd (regId r)]) = .next t ∧ t.faultMark = false ∧
      t.replies = [.reg r 0]) ∧
    ∀ op : Byte, ∃ t, runFor 1 ((State.resetWith p).load [.cmd op]) = .next t ∧ t.faultMark = false
end

