-- ==== Sys2Proof/Laws/Bytes.lean ====
section
/-! SUPPORT. The laws of byte order: lengths, and `be` and `fromBE` as inverses (spec/00_scope.md rule R8). -/

namespace Sys2Proof.Machine

@[simp] theorem be_length (n v : Nat) : (be n v).length = n := by
  induction n with
  | zero => rfl
  | succ n ih => simp [be, ih]

theorem fromBE_lt (bs : List Byte) : fromBE bs < 256 ^ bs.length := by
  induction bs with
  | nil => simp [fromBE]
  | cons b bs ih =>
    have hb : b.toNat < 256 := b.isLt
    have h : b.toNat * 256 ^ bs.length ≤ 255 * 256 ^ bs.length := Nat.mul_le_mul_right _ (by omega)
    simp only [fromBE, List.length_cons, pow_succ]
    omega

theorem fromBE_be (n v : Nat) : fromBE (be n v) = v % 256 ^ n := by
  induction n with
  | zero => simp [be, fromBE, Nat.mod_one]
  | succ n ih =>
    have h : v % (256 ^ n * 256) = v % 256 ^ n + 256 ^ n * (v / 256 ^ n % 256) := Nat.mod_mul
    rw [be, fromBE, be_length, ih, BitVec.toNat_ofNat, pow_succ 256 n, h, Nat.add_comm, Nat.mul_comm (256 ^ n)]

theorem be_mod (n v : Nat) : be n (v % 256 ^ n) = be n v := by
  induction n generalizing v with
  | zero => rfl
  | succ n ih =>
    rw [be, be, ← ih (v % 256 ^ (n + 1)), ← ih v, pow_succ, Nat.mod_mul_right_mod, Nat.mod_mul_right_div_self]
    congr 1
    apply BitVec.eq_of_toNat_eq
    simp

theorem be_fromBE (bs : List Byte) : be bs.length (fromBE bs) = bs := by
  induction bs with
  | nil => rfl
  | cons b bs ih =>
    have hlt := fromBE_lt bs
    have hpos : 0 < 256 ^ bs.length := Nat.pow_pos (by norm_num)
    simp only [List.length_cons, be, fromBE]
    congr 1
    · rw [Nat.add_comm, Nat.add_mul_div_right _ _ hpos, Nat.div_eq_of_lt hlt, Nat.zero_add]
      exact BitVec.eq_of_toNat_eq (by simp)
    · rw [← be_mod, Nat.add_comm, Nat.add_mul_mod_self_right, be_mod, ih]

theorem be_append (m n hi lo : Nat) (h : lo < 256 ^ n) : be (m + n) (hi * 256 ^ n + lo) = be m hi ++ be n lo := by
  have hpos : 0 < 256 ^ n := Nat.pow_pos (by norm_num)
  induction m with
  | zero =>
    rw [Nat.zero_add, ← be_mod, Nat.add_comm, Nat.add_mul_mod_self_right, be_mod]
    rfl
  | succ m ih =>
    have e : m + 1 + n = (m + n) + 1 := by omega
    rw [e, be, be, ih, List.cons_append]
    congr 2
    rw [pow_add, Nat.mul_comm (256 ^ m), ← Nat.div_div_eq_div_mul, Nat.add_comm, Nat.add_mul_div_right _ _ hpos,
      Nat.div_eq_of_lt h, Nat.zero_add]

@[simp] theorem slice_length_le (off n : Nat) (bs : List Byte) : (slice off n bs).length ≤ n := by
  simp [slice]

theorem slice_length (off n : Nat) (bs : List Byte) (h : off + n ≤ bs.length) : (slice off n bs).length = n := by
  simp [slice]; omega

@[simp] theorem encHdr_length (p : ReservedOnEncode) (h : Header) : (encHdr p h).length = 34 := by
  simp [encHdr]

@[simp] theorem encTs_length (a b : Nat) : (encTs a b).length = 10 := by
  simp [encTs]

@[simp] theorem ethBytes_length (a b : Nat) : (ethBytes a b).length = 14 := by
  simp [ethBytes]

@[simp] theorem frameBytes_length (s : State) : (frameBytes s).length = 58 := by
  simp [frameBytes]

@[simp] theorem drawnBytes_length (free : Nat → Byte) (n : Nat) : (drawnBytes free n).length = n := by
  induction n generalizing free with
  | zero => rfl
  | succ n ih => simp [drawnBytes, ih]

end Sys2Proof.Machine
end

