-- ==== Sys2Proof/Laws/Memory.lean ====
section
/-! SUPPORT. The laws of BUF: read after write, every operation keeps the canonical form and the bound, and equal contents
are equal data. -/

namespace Sys2Proof.Machine

theorem Memory.read_write_same (m : Memory) (a : Nat) (b : Byte) : (m.write a b).read a = some b := by
  induction m with
  | nil => simp [Memory.write, Memory.read]
  | cons c m ih =>
    obtain ⟨x, y⟩ := c
    simp only [Memory.write]
    split
    · simp [Memory.read]
    · split
      · simp [Memory.read]
      · have h : x ≠ a := fun e => by simp_all
        simp [Memory.read, h, ih]

theorem Memory.read_write_ne (m : Memory) {a c : Nat} (b : Byte) (h : c ≠ a) : (m.write a b).read c = m.read c := by
  induction m with
  | nil => simp [Memory.write, Memory.read, Ne.symm h]
  | cons d m ih =>
    obtain ⟨x, y⟩ := d
    simp only [Memory.write]
    split
    · simp [Memory.read, Ne.symm h]
    · split
      · rename_i hx
        simp [Memory.read, Ne.symm h, ← hx]
      · simp [Memory.read, ih]

theorem Memory.risingFrom_mono {lo lo' : Nat} {m : Memory} (h : lo' ≤ lo) (hm : m.risingFrom lo = true) :
    m.risingFrom lo' = true := by
  cases m with
  | nil => rfl
  | cons c m =>
    simp only [Memory.risingFrom, Bool.and_eq_true, decide_eq_true_eq] at hm ⊢
    exact ⟨by omega, hm.2⟩

theorem Memory.write_risingFrom {m : Memory} {lo a : Nat} (b : Byte) (hm : m.risingFrom lo = true) (h : lo ≤ a) :
    (m.write a b).risingFrom lo = true := by
  induction m generalizing lo with
  | nil => simp [Memory.write, Memory.risingFrom, h]
  | cons c m ih =>
    obtain ⟨x, y⟩ := c
    simp only [Memory.risingFrom, Bool.and_eq_true, decide_eq_true_eq] at hm
    simp only [Memory.write]
    split
    · simp [Memory.risingFrom, h, hm.2]; omega
    · split
      · simp_all [Memory.risingFrom]
      · simp [Memory.risingFrom, hm.1, ih hm.2 (by omega)]

theorem Memory.write_wf {m : Memory} (a : Nat) (b : Byte) (h : m.wf = true) : (m.write a b).wf = true :=
  Memory.write_risingFrom b h (Nat.zero_le a)

theorem Memory.write_below {m : Memory} {n a : Nat} (b : Byte) (hm : m.below n = true) (h : a < n) :
    (m.write a b).below n = true := by
  induction m with
  | nil => simp [Memory.write, Memory.below, h]
  | cons c m ih =>
    obtain ⟨x, y⟩ := c
    simp only [Memory.below, Bool.and_eq_true, decide_eq_true_eq] at hm
    simp only [Memory.write]
    split
    · simp [Memory.below, h, hm]
    · split
      · simp_all [Memory.below]
      · simp [Memory.below, hm.1, ih hm.2]

theorem Memory.writeBytes_wf {m : Memory} (a : Nat) (bs : List Byte) (h : m.wf = true) :
    (m.writeBytes a bs).wf = true := by
  induction bs generalizing m a with
  | nil => exact h
  | cons b bs ih => exact ih (a + 1) (Memory.write_wf a b h)

theorem Memory.writeBytes_below {m : Memory} {n a : Nat} (bs : List Byte) (hm : m.below n = true)
    (h : a + bs.length ≤ n) : (m.writeBytes a bs).below n = true := by
  induction bs generalizing m a with
  | nil => exact hm
  | cons b bs ih =>
    simp only [List.length_cons] at h
    exact ih (Memory.write_below b hm (by omega)) (by omega)

theorem Memory.read_writeBytes_outside (m : Memory) {a c : Nat} (bs : List Byte) (h : c < a ∨ a + bs.length ≤ c) :
    (m.writeBytes a bs).read c = m.read c := by
  induction bs generalizing m a with
  | nil => rfl
  | cons b bs ih =>
    simp only [List.length_cons] at h
    rw [Memory.writeBytes, ih _ (by omega), Memory.read_write_ne _ _ (by omega)]

theorem Memory.read_writeBytes_inside (m : Memory) (a : Nat) (bs : List Byte) {i : Nat} (h : i < bs.length) :
    (m.writeBytes a bs).read (a + i) = some bs[i] := by
  induction bs generalizing m a i with
  | nil => simp at h
  | cons b bs ih =>
    cases i with
    | zero =>
      rw [Memory.writeBytes, Memory.read_writeBytes_outside _ _ (.inl (by omega))]
      exact Memory.read_write_same m a b
    | succ i =>
      simp only [List.length_cons] at h
      rw [Memory.writeBytes, show a + (i + 1) = (a + 1) + i by omega, ih _ _ (by omega)]
      rfl

theorem Memory.writeBytes_append (m : Memory) (a : Nat) (xs ys : List Byte) :
    m.writeBytes a (xs ++ ys) = (m.writeBytes a xs).writeBytes (a + xs.length) ys := by
  induction xs generalizing m a with
  | nil => rfl
  | cons x xs ih =>
    simp only [List.cons_append, Memory.writeBytes, List.length_cons, ih]
    congr 1
    omega

/-- Everything `readBytes` can answer: the bytes, exactly when each of them is written. -/
theorem Memory.readBytes_eq_some {m : Memory} {a n : Nat} {bs : List Byte} :
    m.readBytes a n = some bs ↔ bs.length = n ∧ ∀ i (h : i < bs.length), m.read (a + i) = some bs[i] := by
  induction n generalizing a bs with
  | zero => cases bs <;> simp [Memory.readBytes]
  | succ n ih =>
    cases bs with
    | nil => simp only [Memory.readBytes]; split <;> simp
    | cons b bs =>
      have key : m.readBytes a (n + 1) = some (b :: bs) ↔ m.read a = some b ∧ m.readBytes (a + 1) n = some bs := by
        simp only [Memory.readBytes]
        split
        · rename_i h1 h2; simp [h1, h2]
        · rename_i h
          constructor
          · intro e; cases e
          · rintro ⟨h1, h2⟩; exact absurd h2 (h _ _ h1)
      rw [key, ih]
      constructor
      · rintro ⟨h0, hl, hr⟩
        refine ⟨by simp [hl], fun i hi => ?_⟩
        cases i with
        | zero => exact h0
        | succ i =>
          have := hr i (by simpa using hi)
          rw [show a + (i + 1) = a + 1 + i by omega, this]
          rfl
      · rintro ⟨hl, hr⟩
        refine ⟨hr 0 (by simp), by simpa using hl, fun i hi => ?_⟩
        have := hr (i + 1) (by simpa using hi)
        rw [show a + 1 + i = a + (i + 1) by omega, this]
        rfl

theorem Memory.readBytes_writeBytes (m : Memory) (a : Nat) (bs : List Byte) :
    (m.writeBytes a bs).readBytes a bs.length = some bs :=
  Memory.readBytes_eq_some.mpr ⟨rfl, fun _ h => Memory.read_writeBytes_inside m a bs h⟩

theorem Memory.readBytes_isSome {m : Memory} {a n : Nat} (h : ∀ i, i < n → ∃ b, m.read (a + i) = some b) :
    ∃ bs, m.readBytes a n = some bs := by
  induction n generalizing a with
  | zero => exact ⟨[], rfl⟩
  | succ n ih =>
    obtain ⟨b, hb⟩ := h 0 (by omega)
    obtain ⟨bs, hbs⟩ := ih (a := a + 1) fun i hi => by
      have := h (i + 1) (by omega)
      rwa [show a + (i + 1) = a + 1 + i by omega] at this
    exact ⟨b :: bs, by simp only [Nat.add_zero] at hb; simp [Memory.readBytes, hb, hbs]⟩

theorem Memory.read_lt_rising {m : Memory} {lo a : Nat} (h : m.risingFrom lo = true) (ha : a < lo) :
    m.read a = none := by
  induction m generalizing lo with
  | nil => rfl
  | cons c m ih =>
    obtain ⟨x, y⟩ := c
    simp only [Memory.risingFrom, Bool.and_eq_true, decide_eq_true_eq] at h
    have hx : x ≠ a := by omega
    simp [Memory.read, hx, ih h.2 (by omega)]

theorem Memory.ext_rising {m m' : Memory} {lo : Nat} (h : m.risingFrom lo = true) (h' : m'.risingFrom lo = true)
    (e : ∀ a, m.read a = m'.read a) : m = m' := by
  induction m generalizing lo m' with
  | nil =>
    cases m' with
    | nil => rfl
    | cons c m' => exact absurd (e c.1) (by simp [Memory.read])
  | cons c m ih =>
    obtain ⟨x, y⟩ := c
    cases m' with
    | nil => exact absurd (e x) (by simp [Memory.read])
    | cons d m' =>
      obtain ⟨u, v⟩ := d
      simp only [Memory.risingFrom, Bool.and_eq_true, decide_eq_true_eq] at h h'
      have hxu : x = u := by
        rcases Nat.lt_trichotomy x u with hlt | heq | hgt
        · have hu : u ≠ x := by omega
          have := e x
          simp [Memory.read, hu, Memory.read_lt_rising h'.2 (show x < u + 1 by omega)] at this
        · exact heq
        · have hu : x ≠ u := by omega
          have := e u
          simp [Memory.read, hu, Memory.read_lt_rising h.2 (show u < x + 1 by omega)] at this
      subst hxu
      have hy : y = v := by simpa [Memory.read] using e x
      subst hy
      congr 1
      refine ih h.2 h'.2 fun a => ?_
      by_cases ha : x = a
      · subst ha
        rw [Memory.read_lt_rising h.2 (Nat.lt_succ_self x), Memory.read_lt_rising h'.2 (Nat.lt_succ_self x)]
      · simpa [Memory.read, ha] using e a

/-- Equal contents are equal data. -/
theorem Memory.ext_wf {m m' : Memory} (h : m.wf = true) (h' : m'.wf = true) (e : ∀ a, m.read a = m'.read a) : m = m' :=
  Memory.ext_rising h h' e

theorem Memory.read_below {m : Memory} {n a : Nat} {b : Byte} (h : m.below n = true) (e : m.read a = some b) : a < n := by
  induction m with
  | nil => simp [Memory.read] at e
  | cons c m ih =>
    obtain ⟨x, y⟩ := c
    simp only [Memory.below, Bool.and_eq_true, decide_eq_true_eq] at h
    by_cases hx : x = a
    · omega
    · exact ih h.2 (by simpa [Memory.read, hx] using e)

theorem reset_memory_wf : State.reset.buf.wf = true := rfl

end Sys2Proof.Machine
end

