-- ==== Sys2Proof/Laws/State.lean ====
section
/-! SUPPORT. One lemma per field per update of State, and the register file's read-after-write laws. -/

namespace Sys2Proof.Machine

@[simp] theorem Regs.get_set_same (f : Regs) (r : RegName) (x : Reg r.width) : (f.set r x).get r = x := by
  cases r <;> rfl

theorem Regs.get_set_ne (f : Regs) {r q : RegName} (x : Reg r.width) (h : q ≠ r) :
    (f.set r x).get q = f.get q := by
  cases r <;> cases q <;> first | rfl | exact absurd rfl h

@[simp] theorem Reg.holding_val {w : Nat} (v : BitVec w) : (Reg.holding v).val = v := (rfl)
@[simp] theorem Reg.holding_written {w : Nat} (v : BitVec w) : (Reg.holding v).written = true := (rfl)

@[simp] theorem State.reg_writeReg_same (s : State) (r : RegName) (v : Nat) :
    (s.writeReg r v).reg r = Reg.holding (BitVec.ofNat r.width v) := Regs.get_set_same ..

theorem State.reg_writeReg_ne (s : State) {r q : RegName} (v : Nat) (h : q ≠ r) :
    (s.writeReg r v).reg q = s.reg q := Regs.get_set_ne _ _ h

@[simp] theorem State.writeReg_buf (s : State) (r : RegName) (v : Nat) : (s.writeReg r v).buf = s.buf := (rfl)
@[simp] theorem State.writeReg_params (s : State) (r : RegName) (v : Nat) : (s.writeReg r v).params = s.params := (rfl)
@[simp] theorem State.writeReg_draws (s : State) (r : RegName) (v : Nat) : (s.writeReg r v).draws = s.draws := (rfl)
@[simp] theorem State.writeReg_faultMark (s : State) (r : RegName) (v : Nat) :
    (s.writeReg r v).faultMark = s.faultMark := (rfl)
@[simp] theorem State.writeReg_pending (s : State) (r : RegName) (v : Nat) :
    (s.writeReg r v).pending = s.pending := (rfl)
@[simp] theorem State.writeReg_done (s : State) (r : RegName) (v : Nat) : (s.writeReg r v).done = s.done := (rfl)
@[simp] theorem State.writeReg_replies (s : State) (r : RegName) (v : Nat) :
    (s.writeReg r v).replies = s.replies := (rfl)
@[simp] theorem State.writeReg_byte (s : State) (r : RegName) (v a : Nat) : (s.writeReg r v).byte a = s.byte a := (rfl)

@[simp] theorem State.val_writeReg_same (s : State) (r : RegName) (v : Nat) :
    (s.writeReg r v).val r = v % 2 ^ r.width := by
  simp [State.val]

theorem State.val_writeReg_ne (s : State) {r q : RegName} (v : Nat) (h : q ≠ r) :
    (s.writeReg r v).val q = s.val q := by
  simp [State.val, s.reg_writeReg_ne v h]

@[simp] theorem State.isWritten_writeReg_same (s : State) (r : RegName) (v : Nat) :
    (s.writeReg r v).isWritten r = true := by
  simp [State.isWritten]

theorem State.isWritten_writeReg_ne (s : State) {r q : RegName} (v : Nat) (h : q ≠ r) :
    (s.writeReg r v).isWritten q = s.isWritten q := by
  simp [State.isWritten, s.reg_writeReg_ne v h]

@[simp] theorem State.storeBytes_regs (s : State) (a : Nat) (bs : List Byte) : (s.storeBytes a bs).regs = s.regs := (rfl)
@[simp] theorem State.storeBytes_reg (s : State) (a : Nat) (bs : List Byte) (r : RegName) :
    (s.storeBytes a bs).reg r = s.reg r := (rfl)
@[simp] theorem State.storeBytes_val (s : State) (a : Nat) (bs : List Byte) (r : RegName) :
    (s.storeBytes a bs).val r = s.val r := (rfl)
@[simp] theorem State.storeBytes_isWritten (s : State) (a : Nat) (bs : List Byte) (r : RegName) :
    (s.storeBytes a bs).isWritten r = s.isWritten r := (rfl)
@[simp] theorem State.storeBytes_buf (s : State) (a : Nat) (bs : List Byte) :
    (s.storeBytes a bs).buf = s.buf.writeBytes a bs := (rfl)
@[simp] theorem State.storeBytes_params (s : State) (a : Nat) (bs : List Byte) :
    (s.storeBytes a bs).params = s.params := (rfl)
@[simp] theorem State.storeBytes_draws (s : State) (a : Nat) (bs : List Byte) :
    (s.storeBytes a bs).draws = s.draws := (rfl)
@[simp] theorem State.storeBytes_faultMark (s : State) (a : Nat) (bs : List Byte) :
    (s.storeBytes a bs).faultMark = s.faultMark := (rfl)
@[simp] theorem State.storeBytes_pending (s : State) (a : Nat) (bs : List Byte) :
    (s.storeBytes a bs).pending = s.pending := (rfl)
@[simp] theorem State.storeBytes_done (s : State) (a : Nat) (bs : List Byte) : (s.storeBytes a bs).done = s.done := (rfl)
@[simp] theorem State.storeBytes_replies (s : State) (a : Nat) (bs : List Byte) :
    (s.storeBytes a bs).replies = s.replies := (rfl)

@[simp] theorem State.useDraws_regs (s : State) (n : Nat) : (s.useDraws n).regs = s.regs := (rfl)
@[simp] theorem State.useDraws_reg (s : State) (n : Nat) (r : RegName) : (s.useDraws n).reg r = s.reg r := (rfl)
@[simp] theorem State.useDraws_val (s : State) (n : Nat) (r : RegName) : (s.useDraws n).val r = s.val r := (rfl)
@[simp] theorem State.useDraws_isWritten (s : State) (n : Nat) (r : RegName) :
    (s.useDraws n).isWritten r = s.isWritten r := (rfl)
@[simp] theorem State.useDraws_buf (s : State) (n : Nat) : (s.useDraws n).buf = s.buf := (rfl)
@[simp] theorem State.useDraws_byte (s : State) (n a : Nat) : (s.useDraws n).byte a = s.byte a := (rfl)
@[simp] theorem State.useDraws_params (s : State) (n : Nat) : (s.useDraws n).params = s.params := (rfl)
@[simp] theorem State.useDraws_draws (s : State) (n : Nat) : (s.useDraws n).draws = s.draws + n := (rfl)
@[simp] theorem State.useDraws_faultMark (s : State) (n : Nat) : (s.useDraws n).faultMark = s.faultMark := (rfl)
@[simp] theorem State.useDraws_pending (s : State) (n : Nat) : (s.useDraws n).pending = s.pending := (rfl)
@[simp] theorem State.useDraws_done (s : State) (n : Nat) : (s.useDraws n).done = s.done := (rfl)
@[simp] theorem State.useDraws_replies (s : State) (n : Nat) : (s.useDraws n).replies = s.replies := (rfl)

/-! Raising the fault changes the fault mark alone. -/

@[simp] theorem State.faulted_regs (s : State) : s.faulted.regs = s.regs := (rfl)
@[simp] theorem State.faulted_buf (s : State) : s.faulted.buf = s.buf := (rfl)
@[simp] theorem State.faulted_params (s : State) : s.faulted.params = s.params := (rfl)
@[simp] theorem State.faulted_draws (s : State) : s.faulted.draws = s.draws := (rfl)
@[simp] theorem State.faulted_pending (s : State) : s.faulted.pending = s.pending := (rfl)
@[simp] theorem State.faulted_done (s : State) : s.faulted.done = s.done := (rfl)
@[simp] theorem State.faulted_replies (s : State) : s.faulted.replies = s.replies := (rfl)
@[simp] theorem State.faulted_header (s : State) : s.faulted.header = s.header := (rfl)
@[simp] theorem State.faulted_reg (s : State) (r : RegName) : s.faulted.reg r = s.reg r := (rfl)
@[simp] theorem State.faulted_val (s : State) (r : RegName) : s.faulted.val r = s.val r := (rfl)
@[simp] theorem State.faulted_isWritten (s : State) (r : RegName) : s.faulted.isWritten r = s.isWritten r := (rfl)
@[simp] theorem State.faulted_byte (s : State) (a : Nat) : s.faulted.byte a = s.byte a := (rfl)
@[simp] theorem State.faulted_faultMark (s : State) : s.faulted.faultMark = true := (rfl)
@[simp] theorem State.faulted_faulted (s : State) : s.faulted.faulted = s.faulted := (rfl)

theorem State.allWritten_append (s : State) (rs qs : List RegName) :
    s.allWritten (rs ++ qs) = (s.allWritten rs && s.allWritten qs) := by
  simp [State.allWritten]

@[simp] theorem State.setHeader_header (s : State) (h : Header) : (s.setHeader h).header = h := (rfl)
@[simp] theorem State.setHeader_buf (s : State) (h : Header) : (s.setHeader h).buf = s.buf := (rfl)
@[simp] theorem State.setHeader_byte (s : State) (h : Header) (a : Nat) : (s.setHeader h).byte a = s.byte a := (rfl)
@[simp] theorem State.setHeader_params (s : State) (h : Header) : (s.setHeader h).params = s.params := (rfl)
@[simp] theorem State.setHeader_draws (s : State) (h : Header) : (s.setHeader h).draws = s.draws := (rfl)
@[simp] theorem State.setHeader_faultMark (s : State) (h : Header) : (s.setHeader h).faultMark = s.faultMark := (rfl)
@[simp] theorem State.setHeader_pending (s : State) (h : Header) : (s.setHeader h).pending = s.pending := (rfl)
@[simp] theorem State.setHeader_done (s : State) (h : Header) : (s.setHeader h).done = s.done := (rfl)
@[simp] theorem State.setHeader_replies (s : State) (h : Header) : (s.setHeader h).replies = s.replies := (rfl)

theorem State.setHeader_reg_ne (s : State) (h : Header) {r : RegName} (hr : r ∉ headerRegs) :
    (s.setHeader h).reg r = s.reg r := by
  cases r <;> first | rfl | exact absurd (by decide) hr

theorem State.setHeader_isWritten (s : State) (h : Header) {r : RegName} (hr : r ∈ headerRegs) :
    (s.setHeader h).isWritten r = true := by
  cases r <;> first | rfl | exact absurd hr (by decide)

@[simp] theorem State.advance_regs (s : State) (l : List HostAction) : (s.advance l).regs = s.regs := (rfl)
@[simp] theorem State.advance_reg (s : State) (l : List HostAction) (r : RegName) : (s.advance l).reg r = s.reg r := (rfl)
@[simp] theorem State.advance_val (s : State) (l : List HostAction) (r : RegName) : (s.advance l).val r = s.val r := (rfl)
@[simp] theorem State.advance_isWritten (s : State) (l : List HostAction) (r : RegName) :
    (s.advance l).isWritten r = s.isWritten r := (rfl)
@[simp] theorem State.advance_buf (s : State) (l : List HostAction) : (s.advance l).buf = s.buf := (rfl)
@[simp] theorem State.advance_params (s : State) (l : List HostAction) : (s.advance l).params = s.params := (rfl)
@[simp] theorem State.advance_draws (s : State) (l : List HostAction) : (s.advance l).draws = s.draws := (rfl)
@[simp] theorem State.advance_faultMark (s : State) (l : List HostAction) : (s.advance l).faultMark = s.faultMark := (rfl)
@[simp] theorem State.advance_pending (s : State) (l : List HostAction) : (s.advance l).pending = l := (rfl)
@[simp] theorem State.advance_done (s : State) (l : List HostAction) : (s.advance l).done = s.done + 1 := (rfl)
@[simp] theorem State.advance_replies (s : State) (l : List HostAction) : (s.advance l).replies = s.replies := (rfl)

/-! What `setResult` leaves: the result pair, and everything else as it was. -/

theorem State.setResult_reg_ne (s : State) (c : Byte) (n : Nat) {r : RegName} (h1 : r ≠ .status) (h2 : r ≠ .resLen) :
    (s.setResult c n).reg r = s.reg r := by
  rw [State.setResult, State.reg_writeReg_ne _ _ h1, State.reg_writeReg_ne _ _ h2]

@[simp] theorem State.setResult_status (s : State) (c : Byte) (n : Nat) :
    (s.setResult c n).reg .status = Reg.holding c := by
  simp [State.setResult, RegName.width]

@[simp] theorem State.setResult_resLen (s : State) (c : Byte) (n : Nat) :
    (s.setResult c n).reg .resLen = Reg.holding (BitVec.ofNat addrW n) := by
  rw [State.setResult, State.reg_writeReg_ne _ _ (by decide)]
  exact State.reg_writeReg_same ..

@[simp] theorem State.setResult_buf (s : State) (c : Byte) (n : Nat) : (s.setResult c n).buf = s.buf := (rfl)
@[simp] theorem State.setResult_byte (s : State) (c : Byte) (n a : Nat) : (s.setResult c n).byte a = s.byte a := (rfl)
@[simp] theorem State.setResult_params (s : State) (c : Byte) (n : Nat) : (s.setResult c n).params = s.params := (rfl)
@[simp] theorem State.setResult_draws (s : State) (c : Byte) (n : Nat) : (s.setResult c n).draws = s.draws := (rfl)
@[simp] theorem State.setResult_faultMark (s : State) (c : Byte) (n : Nat) : (s.setResult c n).faultMark = s.faultMark := (rfl)
@[simp] theorem State.setResult_pending (s : State) (c : Byte) (n : Nat) : (s.setResult c n).pending = s.pending := (rfl)
@[simp] theorem State.setResult_done (s : State) (c : Byte) (n : Nat) : (s.setResult c n).done = s.done := (rfl)
@[simp] theorem State.setResult_replies (s : State) (c : Byte) (n : Nat) : (s.setResult c n).replies = s.replies := (rfl)

@[simp] theorem State.setResult_val_status (s : State) (c : Byte) (n : Nat) :
    (s.setResult c n).val .status = c.toNat :=
  congrArg (fun r : Reg 8 => r.val.toNat) (State.setResult_status s c n)

@[simp] theorem State.setResult_val_resLen (s : State) (c : Byte) (n : Nat) :
    (s.setResult c n).val .resLen = n % 2 ^ 16 :=
  (congrArg (fun r : Reg 16 => r.val.toNat) (State.setResult_resLen s c n)).trans (BitVec.toNat_ofNat n 16)

@[simp] theorem State.setResult_isWritten_status (s : State) (c : Byte) (n : Nat) :
    (s.setResult c n).isWritten .status = true := congrArg Reg.written (State.setResult_status s c n)

@[simp] theorem State.setResult_isWritten_resLen (s : State) (c : Byte) (n : Nat) :
    (s.setResult c n).isWritten .resLen = true := congrArg Reg.written (State.setResult_resLen s c n)

theorem State.setResult_result (s : State) (c : Byte) (n : Nat) (h : n < 2 ^ 16) :
    Result (s.setResult c n) c.toNat n :=
  ⟨by simp, by simp, by simp, by simpa using h⟩

/-! Updates of different parts of the state may be exchanged. -/

theorem State.writeReg_comm (s : State) {r q : RegName} (v w : Nat) (h : r ≠ q) :
    (s.writeReg r v).writeReg q w = (s.writeReg q w).writeReg r v := by
  cases r <;> cases q <;> first | rfl | exact absurd rfl h

theorem State.storeBytes_writeReg (s : State) (r : RegName) (v a : Nat) (bs : List Byte) :
    (s.writeReg r v).storeBytes a bs = (s.storeBytes a bs).writeReg r v := rfl

theorem State.setResult_writeReg (s : State) {r : RegName} (v : Nat) (c : Byte) (n : Nat) (h1 : r ≠ .status)
    (h2 : r ≠ .resLen) : (s.writeReg r v).setResult c n = (s.setResult c n).writeReg r v := by
  rw [State.setResult, State.writeReg_comm _ _ _ h2, State.writeReg_comm _ _ _ h1, State.setResult]

/-! Another reading of rule R35 changes the configuration alone, and may be exchanged with every update. -/

@[simp] theorem State.resetWith_regs (p : Params) : (State.resetWith p).regs = Regs.reset := (rfl)
@[simp] theorem State.resetWith_buf (p : Params) : (State.resetWith p).buf = [] := (rfl)
@[simp] theorem State.resetWith_faultMark (p : Params) : (State.resetWith p).faultMark = false := (rfl)
@[simp] theorem State.resetWith_params (p : Params) : (State.resetWith p).params = p := (rfl)
@[simp] theorem State.resetWith_draws (p : Params) : (State.resetWith p).draws = 0 := (rfl)
@[simp] theorem State.resetWith_pending (p : Params) : (State.resetWith p).pending = [] := (rfl)
@[simp] theorem State.resetWith_done (p : Params) : (State.resetWith p).done = 0 := (rfl)
@[simp] theorem State.resetWith_replies (p : Params) : (State.resetWith p).replies = [] := (rfl)
theorem State.resetOfSpec_eq : State.resetOfSpec = State.resetWith Params.spec := rfl
theorem State.reset_eq : State.reset = State.resetWith Params.host := rfl
@[simp] theorem State.resetWith_byte (p : Params) (a : Nat) : (State.resetWith p).byte a = none := rfl

/-- The machine behind the host's interface is that of the spec with the other reading of an unwritten register. -/
theorem State.reset_eq_resetOfSpec : State.reset = State.resetOfSpec.withUnwrittenRead .holds := rfl

@[simp] theorem State.withUnwrittenRead_regs (s : State) (u : UnwrittenRead) :
    (s.withUnwrittenRead u).regs = s.regs := (rfl)
@[simp] theorem State.withUnwrittenRead_buf (s : State) (u : UnwrittenRead) :
    (s.withUnwrittenRead u).buf = s.buf := (rfl)
@[simp] theorem State.withUnwrittenRead_draws (s : State) (u : UnwrittenRead) :
    (s.withUnwrittenRead u).draws = s.draws := (rfl)
@[simp] theorem State.withUnwrittenRead_faultMark (s : State) (u : UnwrittenRead) :
    (s.withUnwrittenRead u).faultMark = s.faultMark := (rfl)
@[simp] theorem State.withUnwrittenRead_pending (s : State) (u : UnwrittenRead) :
    (s.withUnwrittenRead u).pending = s.pending := (rfl)
@[simp] theorem State.withUnwrittenRead_done (s : State) (u : UnwrittenRead) :
    (s.withUnwrittenRead u).done = s.done := (rfl)
@[simp] theorem State.withUnwrittenRead_replies (s : State) (u : UnwrittenRead) :
    (s.withUnwrittenRead u).replies = s.replies := (rfl)
@[simp] theorem State.withUnwrittenRead_header (s : State) (u : UnwrittenRead) :
    (s.withUnwrittenRead u).header = s.header := (rfl)
@[simp] theorem State.withUnwrittenRead_reg (s : State) (u : UnwrittenRead) (r : RegName) :
    (s.withUnwrittenRead u).reg r = s.reg r := (rfl)
@[simp] theorem State.withUnwrittenRead_val (s : State) (u : UnwrittenRead) (r : RegName) :
    (s.withUnwrittenRead u).val r = s.val r := (rfl)
@[simp] theorem State.withUnwrittenRead_isWritten (s : State) (u : UnwrittenRead) (r : RegName) :
    (s.withUnwrittenRead u).isWritten r = s.isWritten r := (rfl)
@[simp] theorem State.withUnwrittenRead_byte (s : State) (u : UnwrittenRead) (a : Nat) :
    (s.withUnwrittenRead u).byte a = s.byte a := (rfl)
@[simp] theorem State.withUnwrittenRead_params (s : State) (u : UnwrittenRead) :
    (s.withUnwrittenRead u).params = { s.params with unwrittenRead := u } := (rfl)
@[simp] theorem State.withUnwrittenRead_withUnwrittenRead (s : State) (u v : UnwrittenRead) :
    (s.withUnwrittenRead u).withUnwrittenRead v = s.withUnwrittenRead v := rfl
theorem State.writeReg_withUnwrittenRead (s : State) (u : UnwrittenRead) (r : RegName) (v : Nat) :
    (s.withUnwrittenRead u).writeReg r v = (s.writeReg r v).withUnwrittenRead u := rfl
theorem State.storeBytes_withUnwrittenRead (s : State) (u : UnwrittenRead) (a : Nat) (bs : List Byte) :
    (s.withUnwrittenRead u).storeBytes a bs = (s.storeBytes a bs).withUnwrittenRead u := rfl
theorem State.setHeader_withUnwrittenRead (s : State) (u : UnwrittenRead) (h : Header) :
    (s.withUnwrittenRead u).setHeader h = (s.setHeader h).withUnwrittenRead u := rfl
theorem State.useDraws_withUnwrittenRead (s : State) (u : UnwrittenRead) (n : Nat) :
    (s.withUnwrittenRead u).useDraws n = (s.useDraws n).withUnwrittenRead u := rfl
theorem State.setResult_withUnwrittenRead (s : State) (u : UnwrittenRead) (c : Byte) (n : Nat) :
    (s.withUnwrittenRead u).setResult c n = (s.setResult c n).withUnwrittenRead u := rfl
theorem State.advance_withUnwrittenRead (s : State) (u : UnwrittenRead) (l : List HostAction) :
    (s.withUnwrittenRead u).advance l = (s.advance l).withUnwrittenRead u := rfl

@[simp] theorem State.withReserved_regs (s : State) (x : Reg 8) (y : Reg 32) :
    (s.withReserved x y).regs = { s.regs with hRsv1 := x, hRsv2 := y } := (rfl)
@[simp] theorem State.withReserved_buf (s : State) (x : Reg 8) (y : Reg 32) : (s.withReserved x y).buf = s.buf := (rfl)
@[simp] theorem State.withReserved_params (s : State) (x : Reg 8) (y : Reg 32) :
    (s.withReserved x y).params = s.params := (rfl)
@[simp] theorem State.withReserved_draws (s : State) (x : Reg 8) (y : Reg 32) : (s.withReserved x y).draws = s.draws := (rfl)
@[simp] theorem State.withReserved_faultMark (s : State) (x : Reg 8) (y : Reg 32) :
    (s.withReserved x y).faultMark = s.faultMark := (rfl)

theorem State.withReserved_reg_ne (s : State) (x : Reg 8) (y : Reg 32) {r : RegName} (h1 : r ≠ .hRsv1)
    (h2 : r ≠ .hRsv2) : (s.withReserved x y).reg r = s.reg r := by
  cases r <;> first | rfl | exact absurd rfl h1 | exact absurd rfl h2

theorem State.writeReg_withReserved (s : State) (x : Reg 8) (y : Reg 32) {r : RegName} (v : Nat) (h1 : r ≠ .hRsv1)
    (h2 : r ≠ .hRsv2) : (s.withReserved x y).writeReg r v = (s.writeReg r v).withReserved x y := by
  cases r <;> first | rfl | exact absurd rfl h1 | exact absurd rfl h2

theorem State.setResult_withReserved (s : State) (x : Reg 8) (y : Reg 32) (c : Byte) (n : Nat) :
    (s.withReserved x y).setResult c n = (s.setResult c n).withReserved x y := by
  rw [State.setResult, State.writeReg_withReserved _ _ _ _ (by decide) (by decide),
    State.writeReg_withReserved _ _ _ _ (by decide) (by decide), State.setResult]

theorem State.storeBytes_withReserved (s : State) (x : Reg 8) (y : Reg 32) (a : Nat) (bs : List Byte) :
    (s.withReserved x y).storeBytes a bs = (s.storeBytes a bs).withReserved x y := rfl

theorem State.useDraws_withReserved (s : State) (x : Reg 8) (y : Reg 32) (n : Nat) :
    (s.withReserved x y).useDraws n = (s.useDraws n).withReserved x y := rfl

theorem State.faulted_withReserved (s : State) (x : Reg 8) (y : Reg 32) :
    (s.withReserved x y).faulted = s.faulted.withReserved x y := rfl

theorem State.allWritten_withReserved (s : State) (x : Reg 8) (y : Reg 32) {rs : List RegName} (h1 : RegName.hRsv1 ∉ rs)
    (h2 : RegName.hRsv2 ∉ rs) : (s.withReserved x y).allWritten rs = s.allWritten rs := by
  rw [Bool.eq_iff_iff, State.allWritten, State.allWritten, List.all_eq_true, List.all_eq_true]
  refine forall₂_congr fun r hr => ?_
  simp only [State.isWritten,
    State.withReserved_reg_ne s x y (fun c => h1 (c ▸ hr)) (fun c => h2 (c ▸ hr))]

/-! `memWrite`, and what updates leave of the header and of the written marks. -/

@[simp] theorem State.memWrite_reg (s : State) (a n v : Nat) (r : RegName) : (s.memWrite a n v).reg r = s.reg r := (rfl)
@[simp] theorem State.memWrite_val (s : State) (a n v : Nat) (r : RegName) : (s.memWrite a n v).val r = s.val r := (rfl)
@[simp] theorem State.memWrite_isWritten (s : State) (a n v : Nat) (r : RegName) :
    (s.memWrite a n v).isWritten r = s.isWritten r := (rfl)
@[simp] theorem State.memWrite_buf (s : State) (a n v : Nat) :
    (s.memWrite a n v).buf = s.buf.writeBytes a (be n v) := (rfl)
@[simp] theorem State.memWrite_params (s : State) (a n v : Nat) : (s.memWrite a n v).params = s.params := (rfl)
@[simp] theorem State.memWrite_faultMark (s : State) (a n v : Nat) : (s.memWrite a n v).faultMark = s.faultMark := (rfl)
@[simp] theorem State.memWrite_header (s : State) (a n v : Nat) : (s.memWrite a n v).header = s.header := (rfl)
@[simp] theorem State.storeBytes_header (s : State) (a : Nat) (bs : List Byte) : (s.storeBytes a bs).header = s.header := (rfl)
@[simp] theorem State.setResult_header (s : State) (c : Byte) (n : Nat) : (s.setResult c n).header = s.header := (rfl)

theorem State.writeReg_header (s : State) {r : RegName} (v : Nat) (h : r ∉ headerRegs) :
    (s.writeReg r v).header = s.header := by
  cases r <;> first | rfl | exact absurd (by decide) h

theorem State.isWritten_writeReg_of (s : State) (r : RegName) (v : Nat) {q : RegName} (h : s.isWritten q = true) :
    (s.writeReg r v).isWritten q = true := by
  by_cases a : q = r
  · subst a
    simp
  · rw [State.isWritten_writeReg_ne _ _ a]
    exact h

theorem State.isWritten_setResult_of (s : State) (c : Byte) (n : Nat) {q : RegName} (h : s.isWritten q = true) :
    (s.setResult c n).isWritten q = true :=
  State.isWritten_writeReg_of _ _ _ (State.isWritten_writeReg_of _ _ _ h)

theorem State.setResult_val_ne (s : State) (c : Byte) (n : Nat) {r : RegName} (h1 : r ≠ .status) (h2 : r ≠ .resLen) :
    (s.setResult c n).val r = s.val r := by
  simp only [State.val, State.setResult_reg_ne s c n h1 h2]

end Sys2Proof.Machine
end

