-- ==== Sys2Proof/Laws/Ops.lean ====
section
/-! SUPPORT. One lemma for each shared operation that says everything it can do, and from them what each command can do. -/

namespace Sys2Proof.Machine

theorem allWritten_iff {s : State} {rs : List RegName} : s.allWritten rs = true ↔ regsReady rs s := by
  simp [State.allWritten, regsReady]

theorem regsReady_append {rs qs : List RegName} {s : State} :
    regsReady (rs ++ qs) s ↔ regsReady rs s ∧ regsReady qs s := by
  simp only [regsReady, List.mem_append, or_imp, forall_and]

theorem canRead_iff {s : State} {rs : List RegName} : s.canRead rs = true ↔ regsReadable rs s := by
  unfold State.canRead regsReadable
  cases s.params.unwrittenRead <;> simp [allWritten_iff]

theorem State.canRead_withReserved (s : State) (x : Reg 8) (y : Reg 32) {rs : List RegName} (h1 : .hRsv1 ∉ rs)
    (h2 : .hRsv2 ∉ rs) : (s.withReserved x y).canRead rs = s.canRead rs := by
  unfold State.canRead
  rw [State.allWritten_withReserved s x y h1 h2, State.withReserved_params]

theorem regsReadable_of_ready {rs : List RegName} {s : State} (h : regsReady rs s) : regsReadable rs s := .inr h

theorem regsReadable_append {rs qs : List RegName} {s : State} :
    regsReadable (rs ++ qs) s ↔ regsReadable rs s ∧ regsReadable qs s := by
  rw [regsReadable, regsReady_append, or_and_left]
  exact Iff.rfl

/-- Fewer registers are readable where more are. -/
theorem regsReadable_mono {rs qs : List RegName} {s : State} (h : regsReadable rs s) (hq : qs ⊆ rs) : regsReadable qs s :=
  h.imp_right fun h r hr => h r (hq hr)

theorem reading_of_readable {rs : List RegName} {s : State} {k : Host.Outcome State Fault Refusal} (h : regsReadable rs s) :
    reading rs s k = k := if_pos (canRead_iff.mpr h)

theorem reading_of_not_readable {rs : List RegName} {s : State} {k : Host.Outcome State Fault Refusal}
    (h : ¬ regsReadable rs s) : reading rs s k = .next s.faulted := if_neg (mt canRead_iff.mp h)

/-- Where an unwritten register is read as it stands, a read never raises the fault. -/
theorem reading_of_holds {rs : List RegName} {s : State} {k : Host.Outcome State Fault Refusal}
    (h : s.params.unwrittenRead = .holds) : reading rs s k = k := reading_of_readable (.inl h)

/-- Everything `reading` can do. -/
theorem reading_cases (rs : List RegName) (s : State) (k : Host.Outcome State Fault Refusal) :
    (regsReadable rs s ∧ reading rs s k = k) ∨ (¬ regsReadable rs s ∧ reading rs s k = .next s.faulted) := by
  by_cases h : regsReadable rs s
  · exact .inl ⟨h, reading_of_readable h⟩
  · exact .inr ⟨h, reading_of_not_readable h⟩

theorem readBytes_isSome_iff {s : State} {a n : Nat} : (∃ bs, s.buf.readBytes a n = some bs) ↔ bytesReady a n s := by
  constructor
  · rintro ⟨bs, h⟩ i hi
    obtain ⟨hl, hr⟩ := Memory.readBytes_eq_some.mp h
    exact ⟨_, hr i (by omega)⟩
  · exact Memory.readBytes_isSome

/-- Everything `readingBytes` can do. -/
theorem readingBytes_cases (a n : Nat) (s : State) (k : List Byte → Host.Outcome State Fault Refusal) :
    (∃ bs, s.buf.readBytes a n = some bs ∧ bytesReady a n s ∧ readingBytes a n s k = k bs) ∨
    (¬ bytesReady a n s ∧ readingBytes a n s k = .next s.faulted) := by
  by_cases h : bytesReady a n s
  · obtain ⟨bs, hbs⟩ := readBytes_isSome_iff.mpr h
    exact .inl ⟨bs, hbs, h, by simp [readingBytes, hbs]⟩
  · have : s.buf.readBytes a n = none := by
      cases hb : s.buf.readBytes a n with
      | none => rfl
      | some bs => exact absurd (readBytes_isSome_iff.mp ⟨bs, hb⟩) h
    exact .inr ⟨h, by rw [readingBytes, this]; rfl⟩

/-- Everything `withRegion` can do. -/
theorem withRegion_cases (off len : RegName) (s : State) (k : Region → Host.Outcome State Fault Refusal) :
    (¬ regsReadable [off, len] s ∧ withRegion off len s k = .next s.faulted) ∨
    (regsReadable [off, len] s ∧ s.params.bufSize < s.val off + s.val len ∧
      withRegion off len s k = raiseError .badRegion s) ∨
    (regsReadable [off, len] s ∧ s.val off + s.val len ≤ s.params.bufSize ∧
      withRegion off len s k = k { off := s.val off, len := s.val len }) := by
  unfold withRegion
  rcases reading_cases [off, len] s _ with ⟨h, e⟩ | ⟨h, e⟩
  · by_cases hv : s.val off + s.val len ≤ s.params.bufSize
    · exact .inr (.inr ⟨h, hv, by rw [e, if_pos (by simpa [Region.valid] using hv)]⟩)
    · exact .inr (.inl ⟨h, by omega, by rw [e, if_neg (by simpa [Region.valid] using hv)]⟩)
  · exact .inl ⟨h, e⟩

/-- Everything HDR_ENCODE can do (rule R104). -/
theorem execHdrEncode_cases (s : State) :
    (execHdrEncode s = .next s.faulted ∧ (¬ regsReadable [.dstOff, .dstLen] s ∨
      dstValid s ∧ 34 ≤ s.val .dstLen ∧ ¬ regsReadable (encodedRegs s.params.reservedOnEncode) s)) ∨
    (execHdrEncode s = .next (s.setResult 0x05 0) ∧ regsReadable [.dstOff, .dstLen] s ∧
      s.params.bufSize < s.val .dstOff + s.val .dstLen) ∨
    (execHdrEncode s = .next (s.setResult 0x01 0) ∧ regsReadable [.dstOff, .dstLen] s ∧ dstValid s ∧ s.val .dstLen < 34) ∨
    (execHdrEncode s =
        .next ((s.storeBytes (s.val .dstOff) (encHdr s.params.reservedOnEncode s.header)).setResult 0x00 34) ∧
      regsReadable [.dstOff, .dstLen] s ∧ dstValid s ∧ 34 ≤ s.val .dstLen ∧
      regsReadable (encodedRegs s.params.reservedOnEncode) s) := by
  unfold execHdrEncode
  rcases withRegion_cases .dstOff .dstLen s _ with ⟨h, e⟩ | ⟨h, hv, e⟩ | ⟨h, hv, e⟩ <;> rw [e]
  · exact .inl ⟨rfl, .inl h⟩
  · exact .inr (.inl ⟨rfl, h, hv⟩)
  · by_cases hl : s.val .dstLen < 34
    · exact .inr (.inr (.inl ⟨if_pos hl, h, hv, hl⟩))
    · rw [if_neg (show ¬ s.val .dstLen < hdrSize from hl)]
      rcases reading_cases (encodedRegs s.params.reservedOnEncode) s _ with ⟨hr, e'⟩ | ⟨hr, e'⟩ <;> rw [e']
      · exact .inr (.inr (.inr ⟨rfl, h, hv, by omega, hr⟩))
      · exact .inl ⟨rfl, .inr ⟨hv, by omega, hr⟩⟩

/-- Everything HDR_DECODE can do (rule R105). -/
theorem execHdrDecode_cases (s : State) :
    (execHdrDecode s = .next s.faulted ∧ (¬ regsReadable [.srcOff, .srcLen] s ∨
      srcValid s ∧ 34 ≤ s.val .srcLen ∧ ¬ bytesReady (s.val .srcOff) 34 s)) ∨
    (execHdrDecode s = .next (s.setResult 0x05 0) ∧ regsReadable [.srcOff, .srcLen] s ∧
      s.params.bufSize < s.val .srcOff + s.val .srcLen) ∨
    (execHdrDecode s = .next (s.setResult 0x02 0) ∧ regsReadable [.srcOff, .srcLen] s ∧ srcValid s ∧ s.val .srcLen < 34) ∨
    (∃ bs, execHdrDecode s = .next ((s.setHeader (decHdr bs)).setResult 0x00 34) ∧
      s.buf.readBytes (s.val .srcOff) 34 = some bs ∧
      regsReadable [.srcOff, .srcLen] s ∧ srcValid s ∧ 34 ≤ s.val .srcLen ∧ bytesReady (s.val .srcOff) 34 s) := by
  unfold execHdrDecode
  rcases withRegion_cases .srcOff .srcLen s _ with ⟨h, e⟩ | ⟨h, hv, e⟩ | ⟨h, hv, e⟩ <;> rw [e]
  · exact .inl ⟨rfl, .inl h⟩
  · exact .inr (.inl ⟨rfl, h, hv⟩)
  · by_cases hl : s.val .srcLen < 34
    · exact .inr (.inr (.inl ⟨if_pos hl, h, hv, hl⟩))
    · rw [if_neg (show ¬ s.val .srcLen < hdrSize from hl)]
      rcases readingBytes_cases (s.val .srcOff) hdrSize s _ with ⟨bs, hb, hr, e'⟩ | ⟨hr, e'⟩ <;> rw [e']
      · exact .inr (.inr (.inr ⟨bs, rfl, hb, h, hv, by omega, hr⟩))
      · exact .inl ⟨rfl, .inr ⟨hv, by omega, hr⟩⟩

/-- Everything TS_ENCODE can do (rule R132), whatever ERR_PICK draws. -/
theorem tsEncodeWith_cases (pick : Bool) (s : State) :
    (tsEncodeWith pick s = .next s.faulted ∧ (¬ regsReadable [.dstOff, .dstLen] s ∨
      dstValid s ∧ (¬ regsReadable [.tSec] s ∨
        10 ≤ s.val .dstLen ∧ s.val .tSec < 2 ^ 48 ∧ ¬ regsReadable [.tNsec] s))) ∨
    (tsEncodeWith pick s = .next (s.setResult 0x05 0) ∧ regsReadable [.dstOff, .dstLen] s ∧
      s.params.bufSize < s.val .dstOff + s.val .dstLen) ∨
    (tsEncodeWith pick s = .next ((s.useDraws 1).setResult (pickedError pick).code 0) ∧
      regsReadable [.dstOff, .dstLen] s ∧ dstValid s ∧ regsReadable [.tSec] s ∧ s.val .dstLen < 10 ∧ 2 ^ 48 ≤ s.val .tSec) ∨
    (tsEncodeWith pick s = .next (s.setResult 0x01 0) ∧ regsReadable [.dstOff, .dstLen] s ∧ dstValid s ∧
      regsReadable [.tSec] s ∧ s.val .dstLen < 10 ∧ s.val .tSec < 2 ^ 48) ∨
    (tsEncodeWith pick s = .next (s.setResult 0x03 0) ∧ regsReadable [.dstOff, .dstLen] s ∧ dstValid s ∧
      regsReadable [.tSec] s ∧ 10 ≤ s.val .dstLen ∧ 2 ^ 48 ≤ s.val .tSec) ∨
    (tsEncodeWith pick s =
        .next ((s.storeBytes (s.val .dstOff) (encTs (s.val .tSec) (s.val .tNsec))).setResult 0x00 10) ∧
      regsReadable [.dstOff, .dstLen] s ∧ dstValid s ∧ regsReadable [.tSec] s ∧ regsReadable [.tNsec] s ∧
      10 ≤ s.val .dstLen ∧ s.val .tSec < 2 ^ 48) := by
  unfold tsEncodeWith
  rcases withRegion_cases .dstOff .dstLen s _ with ⟨h, e⟩ | ⟨h, hv, e⟩ | ⟨h, hv, e⟩ <;> rw [e]
  · exact .inl ⟨rfl, .inl h⟩
  · exact .inr (.inl ⟨rfl, h, hv⟩)
  · rcases reading_cases [.tSec] s _ with ⟨hs, e'⟩ | ⟨hs, e'⟩ <;> rw [e']
    · by_cases hl : s.val .dstLen < 10 <;> by_cases hx : 2 ^ 48 ≤ s.val .tSec
      · exact .inr (.inr (.inl ⟨if_pos ⟨hl, hx⟩, h, hv, hs, hl, hx⟩))
      · rw [if_neg (fun c => hx c.2), if_pos (show s.val .dstLen < tsSize from hl)]
        exact .inr (.inr (.inr (.inl ⟨rfl, h, hv, hs, hl, by omega⟩)))
      · rw [if_neg (fun c => hl c.1), if_neg (show ¬ s.val .dstLen < tsSize from hl), if_pos (show secondsLimit ≤ s.val .tSec from hx)]
        exact .inr (.inr (.inr (.inr (.inl ⟨rfl, h, hv, hs, by omega, hx⟩))))
      · rw [if_neg (fun c => hl c.1), if_neg (show ¬ s.val .dstLen < tsSize from hl), if_neg (show ¬ secondsLimit ≤ s.val .tSec from hx)]
        rcases reading_cases [.tNsec] s _ with ⟨hn, e''⟩ | ⟨hn, e''⟩ <;> rw [e'']
        · exact .inr (.inr (.inr (.inr (.inr ⟨rfl, h, hv, hs, hn, by omega, by omega⟩))))
        · exact .inl ⟨rfl, .inr ⟨hv, .inr ⟨by omega, by omega, hn⟩⟩⟩
    · exact .inl ⟨rfl, .inr ⟨hv, .inl hs⟩⟩

/-- Everything TS_DECODE can do (rule R133). -/
theorem execTsDecode_cases (s : State) :
    (execTsDecode s = .next s.faulted ∧ (¬ regsReadable [.srcOff, .srcLen] s ∨
      srcValid s ∧ 10 ≤ s.val .srcLen ∧ ¬ bytesReady (s.val .srcOff) 10 s)) ∨
    (execTsDecode s = .next (s.setResult 0x05 0) ∧ regsReadable [.srcOff, .srcLen] s ∧
      s.params.bufSize < s.val .srcOff + s.val .srcLen) ∨
    (execTsDecode s = .next (s.setResult 0x02 0) ∧ regsReadable [.srcOff, .srcLen] s ∧ srcValid s ∧ s.val .srcLen < 10) ∨
    (∃ bs, execTsDecode s =
        .next (((s.writeReg .tSec (decSec bs)).writeReg .tNsec (decNsec bs)).setResult 0x00 10) ∧
      s.buf.readBytes (s.val .srcOff) 10 = some bs ∧
      regsReadable [.srcOff, .srcLen] s ∧ srcValid s ∧ 10 ≤ s.val .srcLen ∧ bytesReady (s.val .srcOff) 10 s) := by
  unfold execTsDecode
  rcases withRegion_cases .srcOff .srcLen s _ with ⟨h, e⟩ | ⟨h, hv, e⟩ | ⟨h, hv, e⟩ <;> rw [e]
  · exact .inl ⟨rfl, .inl h⟩
  · exact .inr (.inl ⟨rfl, h, hv⟩)
  · by_cases hl : s.val .srcLen < 10
    · exact .inr (.inr (.inl ⟨if_pos hl, h, hv, hl⟩))
    · rw [if_neg (show ¬ s.val .srcLen < tsSize from hl)]
      rcases readingBytes_cases (s.val .srcOff) tsSize s _ with ⟨bs, hb, hr, e'⟩ | ⟨hr, e'⟩ <;> rw [e']
      · exact .inr (.inr (.inr ⟨bs, rfl, hb, h, hv, by omega, hr⟩))
      · exact .inl ⟨rfl, .inr ⟨hv, by omega, hr⟩⟩

/-- The state a failed FRAME_BUILD leaves with error `e` (rule R152). -/
theorem frameFail_eq (e : ErrorKind) (free : Nat → Byte) (g : Region) (s : State) :
    frameFail e free g s = .next (((s.storeBytes g.off (drawnBytes free (min g.len 58))).useDraws
      (min g.len 58)).setResult e.code 0) := rfl

/-- A failed FRAME_BUILD after draws already used. -/
theorem frameFail_useDraws (e : ErrorKind) (free : Nat → Byte) (g : Region) (s : State) (k : Nat) :
    frameFail e free g (s.useDraws k) = .next (((s.storeBytes g.off (drawnBytes free (min g.len 58))).useDraws
      (k + min g.len 58)).setResult e.code 0) := by
  rw [frameFail_eq]
  simp [State.useDraws, State.storeBytes, Nat.add_assoc]

/-- The frame does not depend on the configuration's reading of rule R35. -/
@[simp] theorem frameBytes_withUnwrittenRead (s : State) (u : UnwrittenRead) :
    frameBytes (s.withUnwrittenRead u) = frameBytes s := by
  simp only [frameBytes, State.withUnwrittenRead_val, State.withUnwrittenRead_header, State.withUnwrittenRead_params]

/-- Everything FRAME_BUILD can do (rule R151), whatever is drawn. -/
theorem frameBuildWith_cases (pick : Bool) (free : Nat → Byte) (s : State) :
    (frameBuildWith pick free s = .next s.faulted ∧ (¬ regsReadable [.dstOff, .dstLen] s ∨
      dstValid s ∧ 48 ≤ s.val .dstLen ∧ (¬ regsReadable [.tSec] s ∨
        58 ≤ s.val .dstLen ∧ s.val .tSec < 2 ^ 48 ∧
          ¬ regsReadable ([.eDst, .eSrc, .tNsec] ++ encodedRegs s.params.reservedOnEncode) s))) ∨
    (frameBuildWith pick free s = .next (s.setResult 0x05 0) ∧ regsReadable [.dstOff, .dstLen] s ∧
      s.params.bufSize < s.val .dstOff + s.val .dstLen) ∨
    (∃ e n, frameBuildWith pick free s =
        .next (((s.storeBytes (s.val .dstOff) (drawnBytes free (min (s.val .dstLen) 58))).useDraws
          (n + min (s.val .dstLen) 58)).setResult (ErrorKind.code e) 0) ∧
      regsReadable [.dstOff, .dstLen] s ∧ dstValid s ∧ (48 ≤ s.val .dstLen → regsReadable [.tSec] s) ∧
      (s.val .dstLen < 48 ∧ e = .bufferTooSmall ∧ n = 0 ∨
        48 ≤ s.val .dstLen ∧ s.val .dstLen < 58 ∧ 2 ^ 48 ≤ s.val .tSec ∧ e = pickedError pick ∧ n = 1 ∨
        48 ≤ s.val .dstLen ∧ s.val .dstLen < 58 ∧ s.val .tSec < 2 ^ 48 ∧ e = .bufferTooSmall ∧ n = 0 ∨
        58 ≤ s.val .dstLen ∧ 2 ^ 48 ≤ s.val .tSec ∧ e = .outOfRange ∧ n = 0)) ∨
    (frameBuildWith pick free s = .next ((s.storeBytes (s.val .dstOff) (frameBytes s)).setResult 0x00 58) ∧
      regsReadable [.dstOff, .dstLen] s ∧ dstValid s ∧ regsReadable [.tSec] s ∧
      regsReadable ([.eDst, .eSrc, .tNsec] ++ encodedRegs s.params.reservedOnEncode) s ∧
      58 ≤ s.val .dstLen ∧ s.val .tSec < 2 ^ 48) := by
  unfold frameBuildWith
  rcases withRegion_cases .dstOff .dstLen s _ with ⟨h, e⟩ | ⟨h, hv, e⟩ | ⟨h, hv, e⟩ <;> rw [e]
  · exact .inl ⟨rfl, .inl h⟩
  · exact .inr (.inl ⟨rfl, h, hv⟩)
  · by_cases h48 : s.val .dstLen < 48
    · rw [if_pos (show s.val .dstLen < frameTsOffset from h48), frameFail_eq]
      exact .inr (.inr (.inl ⟨.bufferTooSmall, 0, by rw [Nat.zero_add], h, hv, fun c => by omega, .inl ⟨h48, rfl, rfl⟩⟩))
    · rw [if_neg (show ¬ s.val .dstLen < frameTsOffset from h48)]
      rcases reading_cases [.tSec] s _ with ⟨hs, e'⟩ | ⟨hs, e'⟩ <;> rw [e']
      · by_cases hl : s.val .dstLen < 58 <;> by_cases hx : 2 ^ 48 ≤ s.val .tSec
        · rw [if_pos (show s.val .dstLen < frameSize ∧ secondsLimit ≤ s.val .tSec from ⟨hl, hx⟩), frameFail_useDraws]
          exact .inr (.inr (.inl ⟨pickedError pick, 1, rfl, h, hv, fun _ => hs, .inr (.inl ⟨by omega, hl, hx, rfl, rfl⟩)⟩))
        · rw [if_neg (fun c => hx c.2), if_pos (show s.val .dstLen < frameSize from hl), frameFail_eq]
          exact .inr (.inr (.inl ⟨.bufferTooSmall, 0, by rw [Nat.zero_add], h, hv, fun _ => hs,
            .inr (.inr (.inl ⟨by omega, hl, by omega, rfl, rfl⟩))⟩))
        · rw [if_neg (fun c => hl c.1), if_neg (show ¬ s.val .dstLen < frameSize from hl),
            if_pos (show secondsLimit ≤ s.val .tSec from hx), frameFail_eq]
          exact .inr (.inr (.inl ⟨.outOfRange, 0, by rw [Nat.zero_add], h, hv, fun _ => hs,
            .inr (.inr (.inr ⟨by omega, hx, rfl, rfl⟩))⟩))
        · rw [if_neg (fun c => hl c.1), if_neg (show ¬ s.val .dstLen < frameSize from hl),
            if_neg (show ¬ secondsLimit ≤ s.val .tSec from hx)]
          rcases reading_cases ([.eDst, .eSrc, .tNsec] ++ encodedRegs s.params.reservedOnEncode) s _ with
            ⟨hn, e''⟩ | ⟨hn, e''⟩ <;> rw [e'']
          · exact .inr (.inr (.inr ⟨rfl, h, hv, hs, hn, by omega, by omega⟩))
          · exact .inl ⟨rfl, .inr ⟨hv, by omega, .inr ⟨by omega, by omega, hn⟩⟩⟩
      · exact .inl ⟨rfl, .inr ⟨hv, by omega, .inl hs⟩⟩

/-- What raising the fault leaves unchanged. -/
theorem frame_faulted (s : State) (rs : List RegName) (lo n : Nat) : Frame s s.faulted rs lo n where
  regs _ _ := rfl
  bytes _ _ := rfl
  params := rfl
  pending := rfl
  done := rfl
  replies := rfl

/-- What `setResult` leaves unchanged. -/
theorem frame_setResult (s : State) (c : Byte) (n lo k : Nat) : Frame s (s.setResult c n) [.status, .resLen] lo k where
  regs r hr := by
    simp only [List.mem_cons, List.not_mem_nil, or_false, not_or] at hr
    exact State.setResult_reg_ne s c n hr.1 hr.2
  bytes _ _ := rfl
  params := rfl
  pending := rfl
  done := rfl
  replies := rfl

/-- What storing bytes, using draws and then setting the result leaves unchanged. -/
theorem frame_store_setResult (s : State) (c : Byte) (n a d : Nat) (bs : List Byte) :
    Frame s (((s.storeBytes a bs).useDraws d).setResult c n) [.status, .resLen] a bs.length where
  regs r hr := by
    simp only [List.mem_cons, List.not_mem_nil, or_false, not_or] at hr
    exact State.setResult_reg_ne _ c n hr.1 hr.2
  bytes _ h := Memory.read_writeBytes_outside _ _ h
  params := rfl
  pending := rfl
  done := rfl
  replies := rfl

theorem useDraws_zero (s : State) : s.useDraws 0 = s := rfl

/-- What storing bytes and then setting the result leaves unchanged. -/
theorem frame_storeBytes_setResult (s : State) (c : Byte) (n a : Nat) (bs : List Byte) :
    Frame s ((s.storeBytes a bs).setResult c n) [.status, .resLen] a bs.length :=
  frame_store_setResult s c n a 0 bs

/-- What writing the whole header and then the result leaves unchanged. -/
theorem frame_setHeader_setResult (s : State) (h : Header) (c : Byte) (n lo k : Nat) :
    Frame s ((s.setHeader h).setResult c n) (headerRegs ++ [.status, .resLen]) lo k where
  regs r hr := by
    simp only [List.mem_append, List.mem_cons, List.not_mem_nil, or_false, not_or] at hr
    rw [State.setResult_reg_ne _ c n hr.2.1 hr.2.2, State.setHeader_reg_ne s h hr.1]
  bytes _ _ := rfl
  params := rfl
  pending := rfl
  done := rfl
  replies := rfl

/-- A frame holds for more registers and more bytes. -/
theorem Frame.mono {s t : State} {rs qs : List RegName} {lo n lo' n' : Nat} (h : Frame s t rs lo n) (hr : rs ⊆ qs)
    (hb : n = 0 ∨ lo' ≤ lo ∧ lo + n ≤ lo' + n') : Frame s t qs lo' n' where
  regs r hq := h.regs r fun c => hq (hr c)
  bytes a ha := h.bytes a (by omega)
  params := h.params
  pending := h.pending
  done := h.done
  replies := h.replies

/-- Everything one host action can do, followed by the host's move to the next. -/
theorem performNext_cases (a : HostAction) (rest : List HostAction) (s : State) :
    (∃ t, perform a s = .next t ∧ performNext a rest s = .next (t.advance rest)) ∨
    (∃ f, perform a s = .fault f ∧ performNext a rest s = .fault f) ∨
    (∃ r, perform a s = .refused r ∧ performNext a rest s = .refused r) := by
  unfold performNext
  cases perform a s with
  | next t => exact .inl ⟨t, rfl, rfl⟩
  | fault f => exact .inr (.inl ⟨f, rfl, rfl⟩)
  | refused r => exact .inr (.inr ⟨r, rfl, rfl⟩)

/-- Everything `nextStep` can do: nothing more once the fault mark is set; with no action left the same state; else the next
action. -/
theorem nextStep_cases (s : State) :
    (s.faultMark = true ∧ nextStep s = .fault .uninitRead) ∨
    (s.faultMark = false ∧ s.pending = [] ∧ nextStep s = .next s) ∨
    (∃ a rest, s.faultMark = false ∧ s.pending = a :: rest ∧ nextStep s = performNext a rest s) := by
  unfold nextStep
  cases hm : s.faultMark with
  | true => exact .inl ⟨rfl, rfl⟩
  | false =>
    cases hp : s.pending with
    | nil => exact .inr (.inl ⟨rfl, rfl, rfl⟩)
    | cons a rest => exact .inr (.inr ⟨a, rest, rfl, rfl, rfl⟩)

theorem step_eq_nextStep {s : State} (h : paramsAdmitted s.params = true) : step s = nextStep s := if_pos h

/-- Everything a step can do when it answers a next state. -/
theorem step_next_cases {s t : State} (h : step s = .next t) :
    paramsAdmitted s.params = true ∧ s.faultMark = false ∧ (s.pending = [] ∧ t = s ∨
      ∃ a rest u, s.pending = a :: rest ∧ perform a s = .next u ∧ t = u.advance rest) := by
  unfold step at h
  split at h
  · rename_i hp
    refine ⟨hp, ?_⟩
    rcases nextStep_cases s with ⟨_, e⟩ | ⟨hm, he, e⟩ | ⟨a, rest, hm, he, e⟩ <;> rw [e] at h
    · cases h
    · exact ⟨hm, .inl ⟨he, by cases h; rfl⟩⟩
    · rcases performNext_cases a rest s with ⟨u, hu, e⟩ | ⟨f, _, e⟩ | ⟨r, _, e⟩ <;> rw [e] at h
      · exact ⟨hm, .inr ⟨a, rest, u, he, hu, by cases h; rfl⟩⟩
      · cases h
      · cases h
  · cases h

/-- Issuing a command word: the decoded command, or the error IllegalCommand. -/
theorem issue_cases (op : Byte) (s : State) :
    (∃ i, decode op = .ok i ∧ issue op s = exec i s) ∨
    (∃ e, decode op = .error e ∧ issue op s = .next (s.setResult 0x06 0)) := by
  unfold issue
  cases decode op with
  | ok i => exact .inl ⟨i, rfl, rfl⟩
  | error e => exact .inr ⟨e, rfl, rfl⟩

end Sys2Proof.Machine
end

