-- ==== Sys2Proof/Laws/Commands.lean ====
section
/-! SUPPORT. What every command and every host action leaves alone on the host's side, and that the host's own run is the model's. -/

namespace Sys2Proof.Machine

@[simp] theorem exec_hdrInit (s : State) : exec .hdrInit s = execHdrInit s := rfl
@[simp] theorem exec_hdrEncode (s : State) : exec .hdrEncode s = execHdrEncode s := rfl
@[simp] theorem exec_hdrDecode (s : State) : exec .hdrDecode s = execHdrDecode s := rfl
@[simp] theorem exec_tsEncode (s : State) : exec .tsEncode s = tsEncodeWith (Config.errPick s.draws) s := rfl
@[simp] theorem exec_tsDecode (s : State) : exec .tsDecode s = execTsDecode s := rfl
@[simp] theorem exec_frameBuild (s : State) : exec .frameBuild s =
    frameBuildWith (Config.errPick s.draws) (fun i => Config.freeByte (s.draws + i)) s := rfl
theorem execHdrInit_eq (s : State) : execHdrInit s = .next ((s.setHeader defaultHeader).setResult 0x00 0) := rfl

/-- The parameters and the host's side are as they were. -/
structure SameHostSide (s t : State) : Prop where
  params : t.params = s.params
  pending : t.pending = s.pending
  done : t.done = s.done
  replies : t.replies = s.replies

theorem next_unique {x : Host.Outcome State Fault Refusal} {s t : State} (h : x = .next s) (h' : x = .next t) : s = t :=
  Host.Outcome.next.inj (h.symm.trans h')

theorem exec_sameHostSide {i : Instr} {s t : State} (h : exec i s = .next t) : SameHostSide s t := by
  cases i with
  | hdrInit =>
    rw [exec_hdrInit, execHdrInit_eq] at h
    obtain rfl := Host.Outcome.next.inj h
    exact ⟨by simp, by simp, by simp, by simp⟩
  | hdrEncode =>
    rw [exec_hdrEncode] at h
    rcases execHdrEncode_cases s with ⟨e, _⟩ | ⟨e, _⟩ | ⟨e, _⟩ | ⟨e, _⟩
    all_goals
      rw [e] at h
      obtain rfl := Host.Outcome.next.inj h
      exact ⟨by simp, by simp, by simp, by simp⟩
  | hdrDecode =>
    rw [exec_hdrDecode] at h
    rcases execHdrDecode_cases s with ⟨e, _⟩ | ⟨e, _⟩ | ⟨e, _⟩ | ⟨bs, e, _⟩
    all_goals
      rw [e] at h
      obtain rfl := Host.Outcome.next.inj h
      exact ⟨by simp, by simp, by simp, by simp⟩
  | tsEncode =>
    rw [exec_tsEncode] at h
    rcases tsEncodeWith_cases (Config.errPick s.draws) s with ⟨e, _⟩ | ⟨e, _⟩ | ⟨e, _⟩ | ⟨e, _⟩ | ⟨e, _⟩ | ⟨e, _⟩
    all_goals
      rw [e] at h
      obtain rfl := Host.Outcome.next.inj h
      exact ⟨by simp, by simp, by simp, by simp⟩
  | tsDecode =>
    rw [exec_tsDecode] at h
    rcases execTsDecode_cases s with ⟨e, _⟩ | ⟨e, _⟩ | ⟨e, _⟩ | ⟨bs, e, _⟩
    all_goals
      rw [e] at h
      obtain rfl := Host.Outcome.next.inj h
      exact ⟨by simp, by simp, by simp, by simp⟩
  | frameBuild =>
    rw [exec_frameBuild] at h
    rcases frameBuildWith_cases (Config.errPick s.draws) (fun i => Config.freeByte (s.draws + i)) s with
      ⟨e, _⟩ | ⟨e, _⟩ | ⟨_, _, e, _⟩ | ⟨e, _⟩
    all_goals
      rw [e] at h
      obtain rfl := Host.Outcome.next.inj h
      exact ⟨by simp, by simp, by simp, by simp⟩

/-- Every command answers a next state in every state: an error is a result (rule R200), and a read of an unwritten location
leaves the faulted state. -/
theorem exec_answers (i : Instr) (s : State) : ∃ t, exec i s = .next t := by
  cases i with
  | hdrInit => exact ⟨_, execHdrInit_eq s⟩
  | hdrEncode =>
    rw [exec_hdrEncode]
    rcases execHdrEncode_cases s with ⟨e, _⟩ | ⟨e, _⟩ | ⟨e, _⟩ | ⟨e, _⟩ <;> exact ⟨_, e⟩
  | hdrDecode =>
    rw [exec_hdrDecode]
    rcases execHdrDecode_cases s with ⟨e, _⟩ | ⟨e, _⟩ | ⟨e, _⟩ | ⟨_, e, _⟩ <;> exact ⟨_, e⟩
  | tsEncode =>
    rw [exec_tsEncode]
    rcases tsEncodeWith_cases (Config.errPick s.draws) s with ⟨e, _⟩ | ⟨e, _⟩ | ⟨e, _⟩ | ⟨e, _⟩ | ⟨e, _⟩ | ⟨e, _⟩ <;>
      exact ⟨_, e⟩
  | tsDecode =>
    rw [exec_tsDecode]
    rcases execTsDecode_cases s with ⟨e, _⟩ | ⟨e, _⟩ | ⟨e, _⟩ | ⟨_, e, _⟩ <;> exact ⟨_, e⟩
  | frameBuild =>
    rw [exec_frameBuild]
    rcases frameBuildWith_cases (Config.errPick s.draws) (fun i => Config.freeByte (s.draws + i)) s with
      ⟨e, _⟩ | ⟨e, _⟩ | ⟨_, _, e, _⟩ | ⟨e, _⟩ <;> exact ⟨_, e⟩

/-- A command raises UninitRead, with no other effect, or leaves the fault mark as it was. -/
theorem exec_fault_cases {i : Instr} {s t : State} (h : exec i s = .next t) :
    t = s.faulted ∨ t.faultMark = s.faultMark := by
  cases i with
  | hdrInit =>
    cases (execHdrInit_eq s).symm.trans h
    exact .inr (by simp)
  | hdrEncode =>
    rcases execHdrEncode_cases s with ⟨e, _⟩ | ⟨e, _⟩ | ⟨e, _⟩ | ⟨e, _⟩ <;> cases e.symm.trans h <;> simp
  | hdrDecode =>
    rcases execHdrDecode_cases s with ⟨e, _⟩ | ⟨e, _⟩ | ⟨e, _⟩ | ⟨_, e, _⟩ <;> cases e.symm.trans h <;> simp
  | tsEncode =>
    rcases tsEncodeWith_cases (Config.errPick s.draws) s with ⟨e, _⟩ | ⟨e, _⟩ | ⟨e, _⟩ | ⟨e, _⟩ | ⟨e, _⟩ | ⟨e, _⟩ <;>
      cases e.symm.trans h <;> simp
  | tsDecode =>
    rcases execTsDecode_cases s with ⟨e, _⟩ | ⟨e, _⟩ | ⟨e, _⟩ | ⟨_, e, _⟩ <;> cases e.symm.trans h <;> simp
  | frameBuild =>
    rcases frameBuildWith_cases (Config.errPick s.draws) (fun i => Config.freeByte (s.draws + i)) s with
      ⟨e, _⟩ | ⟨e, _⟩ | ⟨_, _, e, _⟩ | ⟨e, _⟩ <;> cases e.symm.trans h <;> simp

/-- No command stops with a fault. -/
theorem exec_not_fault (i : Instr) (s : State) (f : Fault) : exec i s ≠ .fault f := by
  obtain ⟨t, e⟩ := exec_answers i s
  simp [e]

/-- No command is refused. -/
theorem exec_not_refused (i : Instr) (s : State) (r : Refusal) : exec i s ≠ .refused r := by
  obtain ⟨t, e⟩ := exec_answers i s
  simp [e]

/-- Everything `WR` can do (rule R30). -/
theorem hostWrite_cases (id : Byte) (v : Nat) (s : State) :
    (regOfId id = none ∧ hostWrite id v s = .refused (.unassignedRegister id)) ∨
    (∃ r, regOfId id = some r ∧ readOnly r = true ∧ hostWrite id v s = .refused (.readOnlyRegister r)) ∨
    (∃ r, regOfId id = some r ∧ readOnly r = false ∧ 2 ^ r.width ≤ v ∧
      hostWrite id v s = .refused (.valueTooWide r v)) ∨
    (∃ r, regOfId id = some r ∧ readOnly r = false ∧ v < 2 ^ r.width ∧ hostWrite id v s = .next (s.writeReg r v)) := by
  unfold hostWrite
  cases h : regOfId id with
  | none => exact .inl ⟨rfl, rfl⟩
  | some r =>
    cases hr : readOnly r with
    | true => exact .inr (.inl ⟨r, rfl, hr, by simp [hr]⟩)
    | false =>
      by_cases hv : 2 ^ r.width ≤ v
      · exact .inr (.inr (.inl ⟨r, rfl, hr, hv, by simp [hr, hv]⟩))
      · exact .inr (.inr (.inr ⟨r, rfl, hr, by omega, by simp [hr, hv]⟩))

/-- Everything `RD` can do (rule R31). -/
theorem hostRead_cases (id : Byte) (s : State) :
    (regOfId id = none ∧ hostRead id s = .refused (.unassignedRegister id)) ∨
    (∃ r, regOfId id = some r ∧ ¬ regsReadable [r] s ∧ hostRead id s = .next s.faulted) ∨
    (∃ r, regOfId id = some r ∧ regsReadable [r] s ∧
      hostRead id s = .next { s with replies := .reg r (s.val r) :: s.replies }) := by
  unfold hostRead
  cases h : regOfId id with
  | none => exact .inl ⟨rfl, rfl⟩
  | some r =>
    rcases reading_cases [r] s (.next { s with replies := .reg r (s.val r) :: s.replies }) with ⟨c, e⟩ | ⟨c, e⟩
    · exact .inr (.inr ⟨r, rfl, c, e⟩)
    · exact .inr (.inl ⟨r, rfl, c, e⟩)

/-- Everything `BW` can do (rule R51). -/
theorem bufWrite_cases (a b : Nat) (s : State) :
    (s.params.bufSize ≤ a ∧ bufWrite a b s = .refused (.addressOutsideBuf a)) ∨
    (a < s.params.bufSize ∧ 256 ≤ b ∧ bufWrite a b s = .refused (.byteTooWide b)) ∨
    (a < s.params.bufSize ∧ b < 256 ∧ bufWrite a b s = .next (s.storeBytes a [BitVec.ofNat 8 b])) := by
  unfold bufWrite
  by_cases ha : s.params.bufSize ≤ a
  · exact .inl ⟨ha, if_pos ha⟩
  · by_cases hb : 256 ≤ b
    · exact .inr (.inl ⟨by omega, hb, by rw [if_neg ha, if_pos hb]⟩)
    · exact .inr (.inr ⟨by omega, by omega, by rw [if_neg ha, if_neg hb]⟩)

/-- Everything `BR` can do (rule R51). -/
theorem bufRead_cases (a : Nat) (s : State) :
    (s.params.bufSize ≤ a ∧ bufRead a s = .refused (.addressOutsideBuf a)) ∨
    (a < s.params.bufSize ∧ s.byte a = none ∧ bufRead a s = .next s.faulted) ∨
    (∃ b, a < s.params.bufSize ∧ s.byte a = some b ∧
      bufRead a s = .next { s with replies := .byte a b :: s.replies }) := by
  unfold bufRead
  by_cases ha : s.params.bufSize ≤ a
  · exact .inl ⟨ha, if_pos ha⟩
  · rw [if_neg ha]
    cases hb : s.byte a with
    | none => exact .inr (.inl ⟨by omega, rfl, rfl⟩)
    | some b => exact .inr (.inr ⟨b, by omega, rfl, rfl⟩)

/-- No host action touches the parameters or the rest of the host's sequence. -/
theorem perform_keeps {a : HostAction} {s t : State} (h : perform a s = .next t) :
    t.params = s.params ∧ t.pending = s.pending ∧ t.done = s.done := by
  cases a with
  | wr id v =>
    have h : hostWrite id v s = .next t := h
    rcases hostWrite_cases id v s with ⟨_, e⟩ | ⟨_, _, _, e⟩ | ⟨_, _, _, _, e⟩ | ⟨_, _, _, _, e⟩ <;>
      cases e.symm.trans h
    exact ⟨rfl, rfl, rfl⟩
  | rd id =>
    have h : hostRead id s = .next t := h
    rcases hostRead_cases id s with ⟨_, e⟩ | ⟨_, _, _, e⟩ | ⟨_, _, _, e⟩ <;> cases e.symm.trans h <;>
      exact ⟨rfl, rfl, rfl⟩
  | bw a b =>
    have h : bufWrite a b s = .next t := h
    rcases bufWrite_cases a b s with ⟨_, e⟩ | ⟨_, _, e⟩ | ⟨_, _, e⟩ <;> cases e.symm.trans h
    exact ⟨rfl, rfl, rfl⟩
  | br a =>
    have h : bufRead a s = .next t := h
    rcases bufRead_cases a s with ⟨_, e⟩ | ⟨_, _, e⟩ | ⟨_, _, _, e⟩ <;> cases e.symm.trans h <;>
      exact ⟨rfl, rfl, rfl⟩
  | cmd op =>
    rcases issue_cases op s with ⟨i, _, e⟩ | ⟨_, _, e⟩
    · have hs := exec_sameHostSide (e.symm.trans h)
      exact ⟨hs.params, hs.pending, hs.done⟩
    · cases e.symm.trans h
      exact ⟨rfl, rfl, rfl⟩
  | reset => cases h; exact ⟨rfl, rfl, rfl⟩

/-- The model's run is the host's run of the core. -/
theorem runFor_eq_core_run (n : Nat) (s : State) : runFor n s = core.run n s := by
  induction n generalizing s with
  | zero => rfl
  | succ n ih =>
    show runFor (n + 1) s = Host.Core.run core n.succ s
    rw [runFor, Host.Core.run.eq_2 core s n]
    cases hs : step s with
    | next t =>
      have hs' : core.step s = .next t := hs
      rw [hs']
      exact ih t
    | fault f =>
      have hs' : core.step s = .fault f := hs
      rw [hs']
      rfl
    | refused r =>
      have hs' : core.step s = .refused r := hs
      rw [hs']
      rfl

/-- A successful HDR_ENCODE: what held before it, and what it left. -/
theorem hdrEncode_success {s t : State} (h : Succeeds .hdrEncode s t) :
    t = (s.storeBytes (s.val .dstOff) (encHdr s.params.reservedOnEncode s.header)).setResult 0x00 34 ∧
      regsReadable [.dstOff, .dstLen] s ∧ dstValid s ∧ 34 ≤ s.val .dstLen ∧
      regsReadable (encodedRegs s.params.reservedOnEncode) s := by
  obtain ⟨h, hf, ht⟩ := h
  rw [exec_hdrEncode] at h
  rcases execHdrEncode_cases s with ⟨e, c⟩ | ⟨e, c⟩ | ⟨e, c⟩ | ⟨e, c1, c2, c3, c4⟩ <;> obtain rfl := next_unique e h
  · simp at hf
  · simp at ht
  · simp at ht
  · exact ⟨rfl, c1, c2, c3, c4⟩

/-- A successful TS_ENCODE. -/
theorem tsEncode_success {s t : State} (h : Succeeds .tsEncode s t) :
    t = (s.storeBytes (s.val .dstOff) (encTs (s.val .tSec) (s.val .tNsec))).setResult 0x00 10 ∧
      regsReadable [.dstOff, .dstLen] s ∧ dstValid s ∧ 10 ≤ s.val .dstLen ∧ s.val .tSec < 2 ^ 48 ∧
      regsReadable [.tSec] s ∧ regsReadable [.tNsec] s := by
  obtain ⟨h, hf, ht⟩ := h
  rw [exec_tsEncode] at h
  rcases tsEncodeWith_cases (Config.errPick s.draws) s with
    ⟨e, c⟩ | ⟨e, c⟩ | ⟨e, c⟩ | ⟨e, c⟩ | ⟨e, c⟩ | ⟨e, c1, c2, c3, c4, c5, c6⟩ <;> obtain rfl := next_unique e h
  · simp at hf
  · simp at ht
  · rw [State.setResult_val_status] at ht
    revert ht
    cases Config.errPick s.draws <;> exact fun c => absurd c (by decide)
  · simp at ht
  · simp at ht
  · exact ⟨rfl, c1, c2, c5, c6, c3, c4⟩

/-- A successful FRAME_BUILD. -/
theorem frameBuild_success {s t : State} (h : Succeeds .frameBuild s t) :
    t = (s.storeBytes (s.val .dstOff) (frameBytes s)).setResult 0x00 58 ∧
      regsReadable [.dstOff, .dstLen] s ∧ dstValid s ∧ 58 ≤ s.val .dstLen ∧ s.val .tSec < 2 ^ 48 ∧
      regsReadable [.tSec] s ∧ regsReadable ([.eDst, .eSrc, .tNsec] ++ encodedRegs s.params.reservedOnEncode) s := by
  obtain ⟨h, hf, ht⟩ := h
  rw [exec_frameBuild] at h
  rcases frameBuildWith_cases (Config.errPick s.draws) (fun i => Config.freeByte (s.draws + i)) s with
    ⟨e, c⟩ | ⟨e, c⟩ | ⟨k, _, e, c⟩ | ⟨e, c1, c2, c3, c4, c5, c6⟩ <;> obtain rfl := next_unique e h
  · simp at hf
  · simp at ht
  · rw [State.setResult_val_status] at ht
    revert ht
    cases k <;> exact fun c => absurd c (by decide)
  · exact ⟨rfl, c1, c2, c5, c6, c3, c4⟩

/-- HDR_ENCODE where its conditions hold. -/
theorem hdrEncode_runs {s : State} (h : regsReadable ([.dstOff, .dstLen] ++ encodedRegs s.params.reservedOnEncode) s)
    (hv : dstValid s) (hl : 34 ≤ s.val .dstLen) : exec .hdrEncode s =
      .next ((s.storeBytes (s.val .dstOff) (encHdr s.params.reservedOnEncode s.header)).setResult 0x00 34) := by
  obtain ⟨h1, h2⟩ := regsReadable_append.mp h
  unfold dstValid at hv
  rw [exec_hdrEncode]
  rcases execHdrEncode_cases s with ⟨e, c⟩ | ⟨e, c⟩ | ⟨e, c⟩ | ⟨e, c⟩
  · rcases c with c | ⟨_, _, c⟩
    · exact absurd h1 c
    · exact absurd h2 c
  · omega
  · omega
  · exact e

/-- TS_ENCODE where its conditions hold. -/
theorem tsEncode_runs {s : State} (h : regsReadable [.dstOff, .dstLen, .tSec, .tNsec] s) (hv : dstValid s)
    (hl : 10 ≤ s.val .dstLen) (hs : s.val .tSec < 2 ^ 48) : exec .tsEncode s =
      .next ((s.storeBytes (s.val .dstOff) (encTs (s.val .tSec) (s.val .tNsec))).setResult 0x00 10) := by
  unfold dstValid at hv
  rw [exec_tsEncode]
  rcases tsEncodeWith_cases (Config.errPick s.draws) s with ⟨e, c⟩ | ⟨e, c⟩ | ⟨e, c⟩ | ⟨e, c⟩ | ⟨e, c⟩ | ⟨e, c⟩
  · exfalso
    rcases c with c | ⟨_, c | ⟨_, _, c⟩⟩ <;> exact c (regsReadable_mono h (by simp))
  · omega
  · omega
  · omega
  · omega
  · exact e

/-- HDR_DECODE where its conditions hold. -/
theorem hdrDecode_runs {s : State} {bs : List Byte} (h : regsReadable [.srcOff, .srcLen] s) (hv : srcValid s)
    (hl : 34 ≤ s.val .srcLen) (hb : s.buf.readBytes (s.val .srcOff) 34 = some bs) :
    exec .hdrDecode s = .next ((s.setHeader (decHdr bs)).setResult 0x00 34) := by
  unfold srcValid at hv
  rw [exec_hdrDecode]
  rcases execHdrDecode_cases s with ⟨e, c⟩ | ⟨e, c⟩ | ⟨e, c⟩ | ⟨bs', e, c, _⟩
  · rcases c with c | ⟨_, _, c⟩
    · exact absurd h c
    · exact absurd (readBytes_isSome_iff.mp ⟨bs, hb⟩) c
  · omega
  · omega
  · rw [hb] at c
    cases c
    exact e

/-- TS_DECODE where its conditions hold. -/
theorem tsDecode_runs {s : State} {bs : List Byte} (h : regsReadable [.srcOff, .srcLen] s) (hv : srcValid s)
    (hl : 10 ≤ s.val .srcLen) (hb : s.buf.readBytes (s.val .srcOff) 10 = some bs) : exec .tsDecode s =
      .next (((s.writeReg .tSec (decSec bs)).writeReg .tNsec (decNsec bs)).setResult 0x00 10) := by
  unfold srcValid at hv
  rw [exec_tsDecode]
  rcases execTsDecode_cases s with ⟨e, c⟩ | ⟨e, c⟩ | ⟨e, c⟩ | ⟨bs', e, c, _⟩
  · rcases c with c | ⟨_, _, c⟩
    · exact absurd h c
    · exact absurd (readBytes_isSome_iff.mp ⟨bs, hb⟩) c
  · omega
  · omega
  · rw [hb] at c
    cases c
    exact e

end Sys2Proof.Machine
end

