-- ==== Sys2Proof/Laws/Codec.lean ====
section
/-! SUPPORT. Where each field stands in the encodings (spec/30_encoding.md rules R78 to R81), as a slice of the bytes, and what MemRead
gives of stored bytes. -/

namespace Sys2Proof.Machine

theorem drop_be_of_le {n k : Nat} (v : Nat) (h : n ≤ k) : (be n v).drop k = [] :=
  List.drop_of_length_le (by simpa using h)

theorem take_be_self (n v : Nat) : (be n v).take n = be n v := List.take_of_length_le (by simp)

theorem fromBE_be_of_lt {n v : Nat} (h : v < 256 ^ n) : fromBE (be n v) = v := by
  rw [fromBE_be, Nat.mod_eq_of_lt h]

set_option linter.unusedSimpArgs false

section Header
variable (p : ReservedOnEncode) (h : Header)

theorem slice_encHdr_msgType : slice 0 1 (encHdr p h) = be 1 h.msgType.toNat := by
  simp [slice, encHdr, List.take_append, take_be_self]
theorem slice_encHdr_version : slice 1 1 (encHdr p h) = be 1 h.version.toNat := by
  simp [slice, encHdr, List.drop_append, List.take_append, drop_be_of_le, take_be_self]
theorem slice_encHdr_msgLen : slice 2 2 (encHdr p h) = be 2 h.msgLen.toNat := by
  simp [slice, encHdr, List.drop_append, List.take_append, drop_be_of_le, take_be_self]
theorem slice_encHdr_domain : slice 4 1 (encHdr p h) = be 1 h.domain.toNat := by
  simp [slice, encHdr, List.drop_append, List.take_append, drop_be_of_le, take_be_self]
theorem slice_encHdr_rsv1 : slice 5 1 (encHdr p h) = be 1 (reservedValue p h.rsv1.toNat) := by
  simp [slice, encHdr, List.drop_append, List.take_append, drop_be_of_le, take_be_self]
theorem slice_encHdr_flags : slice 6 2 (encHdr p h) = be 2 h.flags.toNat := by
  simp [slice, encHdr, List.drop_append, List.take_append, drop_be_of_le, take_be_self]
theorem slice_encHdr_corr : slice 8 8 (encHdr p h) = be 8 h.corr.toNat := by
  simp [slice, encHdr, List.drop_append, List.take_append, drop_be_of_le, take_be_self]
theorem slice_encHdr_rsv2 : slice 16 4 (encHdr p h) = be 4 (reservedValue p h.rsv2.toNat) := by
  simp [slice, encHdr, List.drop_append, List.take_append, drop_be_of_le, take_be_self]
theorem slice_encHdr_spi : slice 20 10 (encHdr p h) = be 10 h.spi.toNat := by
  simp [slice, encHdr, List.drop_append, List.take_append, drop_be_of_le, take_be_self]
theorem slice_encHdr_seqId : slice 30 2 (encHdr p h) = be 2 h.seqId.toNat := by
  simp [slice, encHdr, List.drop_append, List.take_append, drop_be_of_le, take_be_self]
theorem slice_encHdr_ctrl : slice 32 1 (encHdr p h) = be 1 h.ctrl.toNat := by
  simp [slice, encHdr, List.drop_append, List.take_append, drop_be_of_le, take_be_self]
theorem slice_encHdr_logInt : slice 33 1 (encHdr p h) = be 1 h.logInt.toNat := by
  simp [slice, encHdr, List.drop_append, List.take_append, drop_be_of_le, take_be_self]

end Header

theorem slice_encTs_high (sec nsec : Nat) : slice 0 2 (encTs sec nsec) = be 2 (bits 47 32 sec) := by
  simp [slice, encTs, List.take_append, take_be_self]
theorem slice_encTs_low (sec nsec : Nat) : slice 2 4 (encTs sec nsec) = be 4 (bits 31 0 sec) := by
  simp [slice, encTs, List.drop_append, List.take_append, drop_be_of_le, take_be_self]
theorem slice_encTs_nsec (sec nsec : Nat) : slice 6 4 (encTs sec nsec) = be 4 nsec := by
  simp [slice, encTs, List.drop_append, drop_be_of_le, take_be_self]

theorem slice_ethBytes_dst (a b : Nat) : slice 0 6 (ethBytes a b) = be 6 a := by
  simp [slice, ethBytes, List.take_append, take_be_self]
theorem slice_ethBytes_src (a b : Nat) : slice 6 6 (ethBytes a b) = be 6 b := by
  simp [slice, ethBytes, List.drop_append, List.take_append, drop_be_of_le, take_be_self]
theorem slice_ethBytes_type (a b : Nat) : slice 12 2 (ethBytes a b) = be 2 etherType := by
  simp [slice, ethBytes, List.drop_append, drop_be_of_le, take_be_self]

/-- A slice inside the first part of two joined sequences. -/
theorem slice_append_left {xs ys : List Byte} {o n : Nat} (h : o + n ≤ xs.length) :
    slice o n (xs ++ ys) = slice o n xs := by
  rw [slice, slice, List.drop_append_of_le_length (by omega), List.take_append_of_le_length (by simp; omega)]

/-- A slice inside the second part of two joined sequences. -/
theorem slice_append_right {xs ys : List Byte} {o n : Nat} : slice (xs.length + o) n (xs ++ ys) = slice o n ys := by
  rw [slice, slice, List.drop_append, List.drop_of_length_le (by omega)]
  simp

/-- Reading back part of the bytes a command stored. -/
theorem Memory.readBytes_writeBytes_slice (m : Memory) (a : Nat) (bs : List Byte) {o n : Nat} (h : o + n ≤ bs.length) :
    (m.writeBytes a bs).readBytes (a + o) n = some (slice o n bs) := by
  rw [Memory.readBytes_eq_some]
  have hl := slice_length o n bs h
  refine ⟨hl, fun i hi => ?_⟩
  rw [Nat.add_assoc, Memory.read_writeBytes_inside _ _ _ (by omega)]
  simp [slice]

/-- Part of the bytes that were read. -/
theorem Memory.readBytes_slice {m : Memory} {a k : Nat} {bs : List Byte} (e : m.readBytes a k = some bs) {o n : Nat}
    (h : o + n ≤ k) : m.readBytes (a + o) n = some (slice o n bs) := by
  obtain ⟨hk, hr⟩ := Memory.readBytes_eq_some.mp e
  rw [Memory.readBytes_eq_some]
  have hl := slice_length o n bs (by omega)
  refine ⟨hl, fun i hi => ?_⟩
  rw [Nat.add_assoc, hr _ (by omega)]
  simp [slice]

/-- MemRead of part of the bytes a command stored. -/
theorem memRead_stored (s : State) (c : Byte) (k a : Nat) (bs : List Byte) {o n : Nat} (h : o + n ≤ bs.length) :
    ((s.storeBytes a bs).setResult c k).memRead (a + o) n = some (fromBE (slice o n bs)) := by
  rw [State.memRead, State.setResult_buf, State.storeBytes_buf, Memory.readBytes_writeBytes_slice _ _ _ h]
  rfl

/-- MemRead of part of the bytes that were read. -/
theorem memRead_slice {s : State} {a k : Nat} {bs : List Byte} (e : s.buf.readBytes a k = some bs) {o n : Nat}
    (h : o + n ≤ k) : s.memRead (a + o) n = some (fromBE (slice o n bs)) := by
  rw [State.memRead, Memory.readBytes_slice e h]
  rfl

end Sys2Proof.Machine
end

