-- ==== Sys2Proof/Laws/PerInstr.lean ====
section
/-! SUPPORT. Statements made once per command: its code decodes back to it (spec/30_encoding.md rules R70 and R72). -/

namespace Sys2Proof.Laws.RoundTrip

/-- The command's word is well formed and decodes to the command, in the table's numbering too. -/
def Statement (i : Instr) : Prop :=
  i.wellFormed = true ∧ decodeBytes (encodeBytes i) = .ok i ∧ decodeTableWord 8 (encode i).toNat = some i

theorem hdrInit : Statement .hdrInit := ⟨rfl, rfl, rfl⟩
theorem hdrEncode : Statement .hdrEncode := ⟨rfl, rfl, rfl⟩
theorem hdrDecode : Statement .hdrDecode := ⟨rfl, rfl, rfl⟩
theorem tsEncode : Statement .tsEncode := ⟨rfl, rfl, rfl⟩
theorem tsDecode : Statement .tsDecode := ⟨rfl, rfl, rfl⟩
theorem frameBuild : Statement .frameBuild := ⟨rfl, rfl, rfl⟩

end Sys2Proof.Laws.RoundTrip
end

