-- ==== Sys2Proof/Tests/Slice0.lean ====
section
/-! SUPPORT. The author's tests. Expected results are those of spec/95_test_vectors.md (named by their vector) or written out
from the rule named; each is one step. The witnesses show that the hypotheses of the obligations can be met. -/

namespace Sys2Proof.Tests

open Sys2Proof Sys2Proof.Machine

/-! ### Helpers -/

/-- Reset, then these registers written, and these bytes of BUF from `a` on. -/
def placed (regs : List (RegName × Nat)) (a : Nat) (bs : List Byte) : State :=
  (regs.foldl (fun s p => s.writeReg p.1 p.2) State.reset).storeBytes a bs

/-- The same state under Verbatim. -/
def verbatim (s : State) : State := { s with params := { s.params with reservedOnEncode := .verbatim } }

/-- The same state where a read of an unwritten register raises UninitRead, the other reading of rule R35 (log entry 12). -/
def raising (s : State) : State := s.withUnwrittenRead .raises

/-- The outcome is a next state of which `p` holds. -/
def endsIn (x : Host.Outcome State Fault Refusal) (p : State → Bool) : Bool :=
  match x with
  | .next t => p t
  | .fault _ => false
  | .refused _ => false

theorem exists_of_endsIn {x : Host.Outcome State Fault Refusal} {p : State → Bool} (h : endsIn x p = true) :
    ∃ t, x = .next t ∧ p t = true := by
  cases x with
  | next t => exact ⟨t, rfl, h⟩
  | fault f => cases h
  | refused r => cases h

/-- STATUS, RES_LEN and the bytes of BUF. -/
def shows (code len a : Nat) (bs : List Byte) (t : State) : Bool :=
  t.val .status == code && t.val .resLen == len && t.buf.readBytes a bs.length == some bs

/-- UninitRead is raised in `s`, and nothing else happens. -/
def raises (s : State) (x : Host.Outcome State Fault Refusal) : Bool := endsIn x fun t => t == s.faulted

/-- A command that ends without a fault, with this status. -/
def endsWith (code : Nat) (x : Host.Outcome State Fault Refusal) : Bool :=
  endsIn x fun t => !t.faultMark && t.val .status == code

theorem exists_of_endsWith {code : Nat} {x : Host.Outcome State Fault Refusal} (h : endsWith code x = true) :
    ∃ t, x = .next t ∧ t.faultMark = false ∧ t.val .status = code := by
  obtain ⟨t, e, ht⟩ := exists_of_endsIn h
  rw [Bool.and_eq_true, Bool.not_eq_true', beq_iff_eq] at ht
  exact ⟨t, e, ht⟩

theorem succeeds_of_endsWith {i : Instr} {s : State} (h : endsWith 0x00 (exec i s) = true) : ∃ t, Succeeds i s t := by
  obtain ⟨t, e, hf, ht⟩ := exists_of_endsWith h
  exact ⟨t, e, hf, ht⟩

/-- The run has ended as faulted. -/
def isUninit (x : Host.Outcome State Fault Refusal) : Bool :=
  match x with
  | .next _ => false
  | .fault f => f == .uninitRead
  | .refused _ => false

theorem eq_of_isUninit {x : Host.Outcome State Fault Refusal} (h : isUninit x = true) : x = .fault .uninitRead := by
  cases x with
  | next t => cases h
  | fault f => cases f; rfl
  | refused r => cases h

/-- The outcome is a refusal. -/
def isRefused (x : Host.Outcome State Fault Refusal) : Bool :=
  match x with
  | .next _ => false
  | .fault _ => false
  | .refused _ => true

/-- Header H1 of spec/95_test_vectors.md. -/
def h1 : List (RegName × Nat) :=
  [(.hMsgType, 0x10), (.hVersion, 0x02), (.hMsgLen, 44), (.hDomain, 0x7F), (.hRsv1, 0xAA), (.hFlags, 0x0608)] ++
  [(.hCorr, 0x0123456789ABCDEF), (.hRsv2, 0xDEADBEEF), (.hSpi, 0x001B19FFFE0000010001), (.hSeqId, 0xBEEF),
   (.hCtrl, 0x00), (.hLogInt, 0xFD)]

/-- The bytes of vector HE-1. -/
def he1 : List Byte :=
  [0x10, 0x02, 0x00, 0x2C, 0x7F, 0x00, 0x06, 0x08, 0x01, 0x23, 0x45, 0x67, 0x89, 0xAB, 0xCD, 0xEF, 0x00] ++
  [0x00, 0x00, 0x00, 0x00, 0x1B, 0x19, 0xFF, 0xFE, 0x00, 0x00, 0x01, 0x00, 0x01, 0xBE, 0xEF, 0x00, 0xFD]

/-- The bytes of vector HE-2. -/
def he2 : List Byte :=
  [0x10, 0x02, 0x00, 0x2C, 0x7F, 0xAA, 0x06, 0x08, 0x01, 0x23, 0x45, 0x67, 0x89, 0xAB, 0xCD, 0xEF, 0xDE] ++
  [0xAD, 0xBE, 0xEF, 0x00, 0x1B, 0x19, 0xFF, 0xFE, 0x00, 0x00, 0x01, 0x00, 0x01, 0xBE, 0xEF, 0x00, 0xFD]

/-- The bytes of vector TS-E2. -/
def tsE2 : List Byte := [0x12, 0x34, 0x56, 0x78, 0x9A, 0xBC, 0x3B, 0x9A, 0xC9, 0xFF]

/-- A destination region and a time. -/
def dstTime (off len sec nsec : Nat) : List (RegName × Nat) :=
  [(.dstOff, off), (.dstLen, len), (.tSec, sec), (.tNsec, nsec)]

/-- The addresses of vector FB-9. -/
def macs : List (RegName × Nat) := [(.eDst, 0x011B19000000), (.eSrc, 0x020000000001)]

/-- A state with every register and every BUF byte written: H1, FB-9's addresses and TS-E2's time. -/
def full (off len sec : Nat) : State :=
  placed (h1 ++ macs ++ dstTime off len sec 999999999 ++ [(.srcOff, 0), (.srcLen, 34)]) 0
    (he2 ++ tsE2 ++ List.replicate 20 0x5A)

/-! ### Well-formedness: an ill-formed term for each check -/

theorem test_wf_wr_unassigned : HostAction.wellFormed Params.spec (.wr 0x22 0) = false := by decide
theorem test_wf_wr_readonly : HostAction.wellFormed Params.spec (.wr 0x50 0) = false := by decide
theorem test_wf_wr_too_wide : HostAction.wellFormed Params.spec (.wr 0x13 0x100) = false := by decide
theorem test_wf_wr_fits : HostAction.wellFormed Params.spec (.wr 0x13 0xFF) = true := by decide
theorem test_wf_rd_unassigned : HostAction.wellFormed Params.spec (.rd 0x1C) = false := by decide
theorem test_wf_rd_readonly_allowed : HostAction.wellFormed Params.spec (.rd 0x51) = true := by decide
theorem test_wf_bw_address : HostAction.wellFormed Params.spec (.bw 64 0) = false := by decide
theorem test_wf_bw_byte : HostAction.wellFormed Params.spec (.bw 63 256) = false := by decide
theorem test_wf_br_address : HostAction.wellFormed Params.spec (.br 64) = false := by decide
theorem test_wf_params_small : Params.wellFormed { Params.spec with bufSize := 57 } = false := by decide
theorem test_wf_params_large : Params.wellFormed { Params.spec with bufSize := 65536 } = false := by decide
theorem test_wf_params_edges :
    Params.wellFormed { Params.spec with bufSize := 58 } = true ∧
    Params.wellFormed { Params.spec with bufSize := 65535 } = true := by decide

/-! ### Decoding: the words of rule R72, bit by bit, most significant bit first -/

theorem test_decode_hdrInit : decodeTableWord 8 0b00000001 = some .hdrInit := by decide
theorem test_decode_hdrEncode : decodeTableWord 8 0b00000010 = some .hdrEncode := by decide
theorem test_decode_hdrDecode : decodeTableWord 8 0b00000011 = some .hdrDecode := by decide
theorem test_decode_tsEncode : decodeTableWord 8 0b00000100 = some .tsEncode := by decide
theorem test_decode_tsDecode : decodeTableWord 8 0b00000101 = some .tsDecode := by decide
theorem test_decode_frameBuild : decodeTableWord 8 0b00000110 = some .frameBuild := by decide
theorem test_decode_illegal :
    decodeTableWord 8 0b00000000 = none ∧ decodeTableWord 8 0b00000111 = none ∧ decodeTableWord 8 0b11111111 = none := by
  decide
theorem test_decode_length : decodeBytes [] = .error (.wrongLength 0) ∧ decodeBytes [1, 1] = .error (.wrongLength 2) :=
  ⟨rfl, rfl⟩

/-! ### One step of each command -/

/-- HI-1. -/
theorem test_hdrInit : endsIn (exec .hdrInit State.reset) (fun t =>
    t.val .hMsgType == 0x10 && t.val .hVersion == 2 && t.val .hMsgLen == 0x2C && t.val .hFlags == 0x0600 &&
      t.val .status == 0 && t.val .resLen == 0 && t.buf == [] && t.isWritten .hSpi) = true := by decide

/-- HI-2: the defaults overwrite. -/
theorem test_hdrInit_overwrites : endsIn (exec .hdrInit (placed [(.hSeqId, 0x1234), (.hDomain, 9)] 0 [])) (fun t =>
    t.val .hSeqId == 0 && t.val .hDomain == 0) = true := by decide

/-- HE-1. -/
theorem test_hdrEncode : endsIn (exec .hdrEncode (placed (h1 ++ [(.dstOff, 0), (.dstLen, 34)]) 0 []))
    (shows 0 34 0 he1) = true := by decide

/-- HE-2, at the upper end of BUF (HE-5). -/
theorem test_hdrEncode_verbatim : endsIn (exec .hdrEncode (verbatim (placed (h1 ++ [(.dstOff, 30), (.dstLen, 34)]) 0 [])))
    (shows 0 34 30 he2) = true := by decide

/-- HD-2. -/
theorem test_hdrDecode : endsIn (exec .hdrDecode (placed [(.srcOff, 0), (.srcLen, 34)] 0 he2)) (fun t =>
    t.header == (placed h1 0 []).header && shows 0 34 0 he2 t) = true := by decide

/-- HD-7: BUF[33] is unwritten. -/
theorem test_hdrDecode_unwritten : raises (placed [(.srcOff, 0), (.srcLen, 34)] 0 (he2.take 33))
    (exec .hdrDecode (placed [(.srcOff, 0), (.srcLen, 34)] 0 (he2.take 33))) = true := by
  decide

/-- TS-E2. -/
theorem test_tsEncode : endsIn (exec .tsEncode (placed (dstTime 0 10 0x123456789ABC 999999999) 0 []))
    (shows 0 10 0 tsE2) = true := by decide

/-- TS-E4. -/
theorem test_tsEncode_outOfRange : endsIn (exec .tsEncode (placed (dstTime 0 10 (2 ^ 48) 0) 0 []))
    (fun t => shows 3 0 0 [] t && t.buf == []) = true := by decide

/-- TS-D3. -/
theorem test_tsDecode : endsIn (exec .tsDecode (placed [(.srcOff, 0), (.srcLen, 10)] 0 (List.replicate 10 0xFF))) (fun t =>
    t.val .tSec == 0xFFFFFFFFFFFF && t.val .tNsec == 0xFFFFFFFF && t.val .status == 0) = true := by decide

/-- TS-D5: the region is longer than the timestamp. -/
theorem test_tsDecode_long : endsIn (exec .tsDecode (placed [(.srcOff, 0), (.srcLen, 12)] 0 tsE2)) (fun t =>
    t.val .tSec == 0x123456789ABC && t.val .tNsec == 999999999 && t.val .resLen == 10) = true := by decide

/-- FB-9. -/
theorem test_frameBuild : endsIn (exec .frameBuild (full 0 58 0x123456789ABC)) (shows 0 58 0
    ([0x01, 0x1B, 0x19, 0x00, 0x00, 0x00, 0x02, 0x00, 0x00, 0x00, 0x00, 0x01, 0x88, 0xF7] ++ he1 ++ tsE2)) = true := by
  decide

/-- FB-3: BadRegion. -/
theorem test_frameBuild_badRegion : endsIn (exec .frameBuild (full 7 58 1)) (shows 5 0 0 he2) = true := by decide

/-! ### Host actions -/

theorem test_il1 : endsIn (perform (.cmd 0x00) State.reset) (fun t => t.val .status == 6 && t.val .resLen == 0) = true := by
  decide
theorem test_il4 : isRefused (perform (.wr 0x50 0) State.reset) = true := by decide
theorem test_il5 : isRefused (perform (.wr 0x13 0x100) State.reset) = true := by decide
theorem test_il6 : isRefused (perform (.wr 0x22 0) State.reset) = true := by decide
theorem test_il7 : isRefused (perform (.bw 64 0) State.reset) = true := by decide

/-- IL-8, in the machine of the spec. -/
theorem test_il8 : raises State.resetOfSpec (perform (.rd 0x20) State.resetOfSpec) = true := by decide

/-- Behind the host's interface RD of a register that nothing has written returns the value it holds (log entries 1, 12). -/
theorem test_rd_held : endsIn (perform (.rd 0x20) State.reset) (fun t => t.replies == [.reg .tSec 0] && !t.faultMark) = true := by
  decide

/-- IL-8 followed by a reset: no further action has a step (rule R35). -/
theorem test_fault_ends_run : isUninit (runFor 2 (State.resetOfSpec.load [.rd 0x20, .reset])) = true := by decide

/-- BR of an unwritten byte (rule R51). -/
theorem test_br_unwritten : raises State.reset (perform (.br 63) State.reset) = true := by decide
theorem test_il9 : endsIn (perform (.rd 0x50) State.reset) (fun t => t.replies == [.reg .status 0]) = true := by decide

/-- The host interface's placement: the command word runs as the very next step. -/
theorem test_withFetchWord : endsIn (step (State.reset.withFetchWord 8 0x01)) (fun t =>
    t.val .hMsgType == 0x10 && t.done == 1 && t.pending == []) = true := by decide

/-! ### The script syntax: the encoding column of spec/95_test_vectors.md -/

theorem test_script_wrmac : lineActions "wrmac E_DST, AA:BB:CC:DD:EE:FF".toList = some [.wr 0x30 0xAABBCCDDEEFF] := by
  decide
theorem test_script_region : lineActions "region dst, 0, 58".toList = some [.wr 0x40 0, .wr 0x41 58] := by decide
theorem test_script_cmd : lineActions "cmd FRAME_BUILD".toList = some [.cmd 0x06] := by decide
theorem test_script_flags : lineActions "wrflags TWOSTEP|UNICAST|TIME_TRACEABLE".toList = some [.wr 0x15 0x0608] := by decide

/-! ### Witnesses: states that meet the hypotheses of the obligations, at boundary values -/

theorem full_written (off len sec : Nat) (r : RegName) : (full off len sec).isWritten r = true := by cases r <;> rfl

theorem full_ready {off len sec : Nat} {rs : List RegName} : regsReady rs (full off len sec) :=
  fun r _ => full_written off len sec r

theorem full_bytes : bytesReady 0 64 (full 0 58 1) := readBytes_isSome_iff.mp ⟨_, rfl⟩

theorem full_bytes34 : bytesReady 0 34 (full 0 58 1) := readBytes_isSome_iff.mp ⟨_, rfl⟩

theorem full_bytes10 : bytesReady 0 10 (full 0 58 1) := readBytes_isSome_iff.mp ⟨_, rfl⟩

theorem witness_CommandMapIsTotal : ((0x00 : Byte).toNat = 0 ∨ 7 ≤ (0x00 : Byte).toNat) ∧
    ((0x07 : Byte).toNat = 0 ∨ 7 ≤ (0x07 : Byte).toNat) ∧ (1 ≤ (0x01 : Byte).toNat ∧ (0x06 : Byte).toNat ≤ 6) := by decide

/-- Codes 0x00, 0x07 and 0xFF. -/
theorem witness_IllegalCodesOnlyReport : ((0x00 : Byte).toNat = 0 ∨ 7 ≤ (0x00 : Byte).toNat) ∧
    ((0x07 : Byte).toNat = 0 ∨ 7 ≤ (0x07 : Byte).toNat) ∧ ((0xFF : Byte).toNat = 0 ∨ 7 ≤ (0xFF : Byte).toNat) := by decide

theorem witness_EncodeThenDecode : decodeBytes [0x06] = .ok .frameBuild := rfl

/-- Each clause: an action that goes on, one that raises the fault and one that is refused; a command and an illegal code. -/
theorem witness_StepRunsDecodedCommand :
    (endsIn (perform (.wr 0x13 9) State.reset) (fun t => !t.faultMark) = true ∧
      raises State.reset (perform (.br 0) State.reset) = true ∧ isRefused (perform (.bw 64 0) State.reset) = true ∧
      paramsAdmitted State.reset.params = true ∧ State.reset.faultMark = false) ∧
    (paramsAdmitted (full 0 58 1).params = true ∧ (full 0 58 1).faultMark = false ∧
      ((full 0 58 1).nextCommand 0x06).pending = .cmd 0x06 :: [] ∧ decode 0x06 = .ok .frameBuild ∧
      endsWith 0x00 (exec .frameBuild ((full 0 58 1).nextCommand 0x06)) = true) ∧
    decode 0x07 = .error (.illegalCommand 0x07) :=
  ⟨by decide, ⟨by decide, rfl, rfl, rfl, by decide⟩, rfl⟩

theorem witness_CounterAdvancesPerAction :
    2 ≤ [HostAction.reset, .cmd 0x01].length ∧ paramsAdmitted State.reset.params = true ∧
    endsIn (runFor 2 (State.reset.load [.reset, .cmd 0x01])) (fun t =>
      t.done == 2 && t.pending == [] && !t.faultMark) = true := by decide

theorem witness_ResetActionClearsBlock :
    runFor 2 (State.reset.load [.br 0, .reset]) = .fault .uninitRead := eq_of_isUninit (by decide)

theorem witness_IllegalParametersRefused : (57 < 58 ∨ 65535 < 57) ∧ (65536 < 58 ∨ 65535 < 65536) ∧
    (58 ≤ 58 ∧ 58 ≤ 65535) ∧ (58 ≤ 65535 ∧ 65535 ≤ 65535) := by decide

theorem witness_HdrEncodeWritesLayout :
    (regsReady ([.dstOff, .dstLen] ++ encodedRegs (full 30 34 1).params.reservedOnEncode) (full 30 34 1) ∧
      dstValid (full 30 34 1) ∧ 34 ≤ (full 30 34 1).val .dstLen) ∧
    (regsReady ([.dstOff, .dstLen] ++ encodedRegs .verbatim) (verbatim (full 0 64 1)) ∧
      dstValid (verbatim (full 0 64 1)) ∧ 34 ≤ (verbatim (full 0 64 1)).val .dstLen) :=
  ⟨⟨full_ready, by unfold dstValid; decide, by decide⟩,
    ⟨allWritten_iff.mp (by decide), by unfold dstValid; decide, by decide⟩⟩

theorem witness_HdrDecodeReadsLayout : regsReady [.srcOff, .srcLen] (full 0 58 1) ∧ srcValid (full 0 58 1) ∧
    34 ≤ (full 0 58 1).val .srcLen ∧ bytesReady ((full 0 58 1).val .srcOff) 34 (full 0 58 1) :=
  ⟨full_ready, by unfold srcValid; decide, by decide, full_bytes34⟩

theorem witness_TsEncodeWritesLayout : regsReady [.dstOff, .dstLen, .tSec, .tNsec] (full 54 10 (2 ^ 48 - 1)) ∧
    dstValid (full 54 10 (2 ^ 48 - 1)) ∧ 10 ≤ (full 54 10 (2 ^ 48 - 1)).val .dstLen ∧
    (full 54 10 (2 ^ 48 - 1)).val .tSec < 2 ^ 48 :=
  ⟨full_ready, by unfold dstValid; decide, by decide, by decide⟩

theorem witness_TsDecodeReadsLayout : regsReady [.srcOff, .srcLen] (full 0 58 1) ∧ srcValid (full 0 58 1) ∧
    10 ≤ (full 0 58 1).val .srcLen ∧ bytesReady ((full 0 58 1).val .srcOff) 10 (full 0 58 1) :=
  ⟨full_ready, by unfold srcValid; decide, by decide, full_bytes10⟩

theorem witness_FrameBuildWritesLayout :
    regsReady ([.dstOff, .dstLen, .eDst, .eSrc, .tSec, .tNsec] ++ encodedRegs .forceZero) (full 6 58 (2 ^ 48 - 1)) ∧
    dstValid (full 6 58 (2 ^ 48 - 1)) ∧ 58 ≤ (full 6 58 (2 ^ 48 - 1)).val .dstLen ∧
    (full 6 58 (2 ^ 48 - 1)).val .tSec < 2 ^ 48 :=
  ⟨full_ready, by unfold dstValid; decide, by decide, by decide⟩

theorem witness_ReadyCommandsComplete : ∀ i, Ready i (full 0 58 1) := by
  intro i
  cases i with
  | hdrInit => trivial
  | hdrEncode => exact full_ready
  | hdrDecode => exact ⟨full_ready, full_bytes34⟩
  | tsEncode => exact full_ready
  | tsDecode => exact ⟨full_ready, full_bytes10⟩
  | frameBuild => exact full_ready

/-- HE-6 and HD-6, and the converse clause's premise. -/
theorem witness_BadRegionComesFirst :
    (regsReady [.dstOff, .dstLen] (full 31 34 1) ∧
      (full 31 34 1).params.bufSize < (full 31 34 1).val .dstOff + (full 31 34 1).val .dstLen) ∧
    (regsReady [.srcOff, .srcLen] (placed [(.srcOff, 40), (.srcLen, 34)] 0 []) ∧ (64 : Nat) < 40 + 34) ∧
    ∃ t, exec .tsEncode (full 31 34 1) = .next t ∧ t.faultMark = false ∧ t.val .status = 0x05 :=
  ⟨⟨full_ready, by decide⟩, ⟨allWritten_iff.mp (by decide), by decide⟩, exists_of_endsWith (by decide)⟩

/-- HE-4 (33 bytes), TS-E6 (9 bytes), FB-4 and FB-6's lengths (47, 48, 57 bytes), with and without seconds out of range. -/
theorem witness_BufferTooSmallCases :
    (dstValid (full 0 33 1) ∧ (full 0 33 1).val .dstLen < 34) ∧
    (dstValid (full 0 9 (2 ^ 48)) ∧ (full 0 9 (2 ^ 48)).val .dstLen < 10) ∧
    (dstValid (full 0 47 1) ∧ (full 0 47 1).val .dstLen < 58) ∧
    (dstValid (full 7 57 (2 ^ 48)) ∧ (full 7 57 (2 ^ 48)).val .dstLen < 58 ∧ regsReady [.tSec] (full 7 57 (2 ^ 48))) ∧
    (regsReady [.dstOff, .dstLen, .tSec] (full 0 33 1) ∧ regsReady [.dstOff, .dstLen, .tSec] (full 0 9 (2 ^ 48)) ∧
      regsReady [.dstOff, .dstLen, .tSec] (full 0 47 1)) := by
  refine ⟨⟨?_, by decide⟩, ⟨?_, by decide⟩, ⟨?_, by decide⟩, ⟨?_, by decide, full_ready⟩,
    full_ready, full_ready, full_ready⟩ <;> unfold dstValid <;> decide

/-- HD-5 (33 bytes) and TS-D4 (9 bytes). -/
theorem witness_TruncatedInputCases :
    (regsReady [.srcOff, .srcLen] (placed [(.srcOff, 31), (.srcLen, 33)] 0 []) ∧
      srcValid (placed [(.srcOff, 31), (.srcLen, 33)] 0 []) ∧ (placed [(.srcOff, 31), (.srcLen, 33)] 0 []).val .srcLen < 34) ∧
    (regsReady [.srcOff, .srcLen] (placed [(.srcOff, 55), (.srcLen, 9)] 0 []) ∧
      srcValid (placed [(.srcOff, 55), (.srcLen, 9)] 0 []) ∧ (placed [(.srcOff, 55), (.srcLen, 9)] 0 []).val .srcLen < 10) := by
  refine ⟨⟨allWritten_iff.mp (by decide), ?_, by decide⟩, allWritten_iff.mp (by decide), ?_, by decide⟩ <;>
    unfold srcValid <;> decide

/-- TS-E4 and FB-7, and the converse clause's premise. -/
theorem witness_OutOfRangeCases :
    (regsReady [.dstOff, .dstLen, .tSec] (full 0 10 (2 ^ 48)) ∧ dstValid (full 0 10 (2 ^ 48)) ∧
      10 ≤ (full 0 10 (2 ^ 48)).val .dstLen ∧ 2 ^ 48 ≤ (full 0 10 (2 ^ 48)).val .tSec) ∧
    (regsReady [.dstOff, .dstLen, .tSec] (full 6 58 (2 ^ 48)) ∧ dstValid (full 6 58 (2 ^ 48)) ∧
      58 ≤ (full 6 58 (2 ^ 48)).val .dstLen ∧ 2 ^ 48 ≤ (full 6 58 (2 ^ 48)).val .tSec) ∧
    ∃ t, exec .tsEncode (full 0 10 (2 ^ 48)) = .next t ∧ t.faultMark = false ∧ t.val .status = 0x03 := by
  refine ⟨⟨full_ready, ?_, by decide, by decide⟩, ⟨full_ready, ?_, by decide, by decide⟩, exists_of_endsWith (by decide)⟩ <;>
    unfold dstValid <;> decide

/-- TS-E7. -/
theorem witness_TsEncodeAdmitsBothErrors : regsReady [.dstOff, .dstLen, .tSec] (full 0 9 (2 ^ 48)) ∧
    dstValid (full 0 9 (2 ^ 48)) ∧ (full 0 9 (2 ^ 48)).val .dstLen < 10 ∧ 2 ^ 48 ≤ (full 0 9 (2 ^ 48)).val .tSec ∧
    ∃ t, exec .tsEncode (full 0 9 1) = .next t ∧ (fun _ => true) t = true :=
  ⟨full_ready, by unfold dstValid; decide, by decide, by decide, exists_of_endsIn (by decide)⟩

/-- Lengths 47, 48, 57 and 58, seconds 2^48 - 1 and 2^48. -/
theorem witness_FrameBuildErrorByLength :
    (∀ sec, regsReady [.dstOff, .dstLen, .tSec] (full 0 47 sec) ∧ regsReady [.dstOff, .dstLen, .tSec] (full 0 48 sec) ∧
      regsReady [.dstOff, .dstLen, .tSec] (full 0 57 sec) ∧ regsReady [.dstOff, .dstLen, .tSec] (full 0 58 sec)) ∧
    dstValid (full 0 47 (2 ^ 48)) ∧ dstValid (full 0 48 (2 ^ 48 - 1)) ∧ dstValid (full 0 57 (2 ^ 48)) ∧
    dstValid (full 0 58 (2 ^ 48)) ∧ (full 0 48 (2 ^ 48 - 1)).val .tSec < 2 ^ 48 ∧ 2 ^ 48 ≤ (full 0 58 (2 ^ 48)).val .tSec := by
  refine ⟨fun sec => ⟨full_ready, full_ready, full_ready, full_ready⟩, ?_, ?_, ?_, ?_, by decide, by decide⟩ <;>
    unfold dstValid <;> decide

/-- FB-4 (BufferTooSmall), FB-7 (OutOfRange) and FB-3 (BadRegion), and a success, whatever is drawn. -/
theorem witness_FailedFrameBuildLeavesDraws :
    (∃ t, frameBuildWith true (fun _ => 0) (full 0 47 1) = .next t ∧ t.faultMark = false ∧ t.val .status = 0x01) ∧
    (∃ t, frameBuildWith true (fun _ => 0) (full 0 58 (2 ^ 48)) = .next t ∧ t.faultMark = false ∧ t.val .status = 0x03) ∧
    (∃ t, frameBuildWith true (fun _ => 0) (full 7 58 1) = .next t ∧ t.faultMark = false ∧ t.val .status = 0x05) ∧
    ∃ t, frameBuildWith true (fun _ => 0) (full 6 58 1) = .next t ∧ t.faultMark = false ∧ t.val .status = 0x00 :=
  ⟨exists_of_endsWith (by decide), exists_of_endsWith (by decide), exists_of_endsWith (by decide), exists_of_endsWith (by decide)⟩

/-- Each command answers a next state; HE-4 is an error. -/
theorem witness_CommandFrame : (∀ i, ∃ t, exec i (full 0 58 1) = .next t ∧ (fun _ => true) t = true) ∧
    ∃ t, exec .hdrEncode (full 0 33 1) = .next t ∧ (t.val .status != 0x00) = true := by
  refine ⟨fun i => ?_, exists_of_endsIn (by decide)⟩
  cases i <;> exact exists_of_endsIn (by decide)

/-- HE-6: an error other than FRAME_BUILD's. -/
theorem witness_ErrorsArePrecise : Instr.hdrEncode ≠ .frameBuild ∧
    ∃ t, exec .hdrEncode (full 31 34 1) = .next t ∧ (t.val .status != 0x00) = true :=
  ⟨by decide, exists_of_endsIn (by decide)⟩

theorem witness_ResultPairIsLegal : ∃ t, exec .tsDecode (full 0 58 1) = .next t ∧ t.faultMark = false ∧ t.val .status = 0x00 :=
  exists_of_endsWith (by decide)

/-- A clear fault mark. Under the rule's model fault: HE-8, where a header register is unwritten; TS-E10, where T_SEC is
unwritten but not read. Where unwritten registers are read: HE-8 succeeds, and HD-7 raises the fault. -/
theorem witness_UninitReadExactly :
    ((raising State.reset).faultMark = false ∧ (raising State.reset).params.unwrittenRead = .raises ∧
      raises (raising (placed [(.dstOff, 0), (.dstLen, 34)] 0 []))
        (exec .hdrEncode (raising (placed [(.dstOff, 0), (.dstLen, 34)] 0 []))) = true ∧
      endsWith 0x05 (exec .tsEncode (raising (placed [(.dstOff, 0), (.dstLen, 65)] 0 []))) = true) ∧
    (State.reset.faultMark = false ∧ State.reset.params.unwrittenRead = .holds ∧
      endsWith 0x00 (exec .hdrEncode (placed [(.dstOff, 0), (.dstLen, 34)] 0 [])) = true ∧
      raises (placed [(.srcOff, 0), (.srcLen, 34)] 0 (he2.take 33))
        (exec .hdrDecode (placed [(.srcOff, 0), (.srcLen, 34)] 0 (he2.take 33))) = true) := by decide

/-- A state with the mark set, its step, and an action that raises the fault. -/
theorem witness_FaultEndsTheRun : paramsAdmitted State.reset.faulted.params = true ∧ State.reset.faulted.faultMark = true ∧
    isUninit (step (State.reset.faulted.load [.reset])) = true ∧
    endsIn (perform (.br 0) State.reset) (fun t => t.faultMark) = true := by decide

theorem witness_WrittenMachineNeverFaults :
    (full 0 58 1).faultMark = false ∧ (∀ r, (full 0 58 1).isWritten r = true) ∧
      bytesReady 0 (full 0 58 1).params.bufSize (full 0 58 1) :=
  ⟨rfl, full_written 0 58 1, full_bytes⟩

/-- Id 0x22 is unassigned; STATUS is read-only; 2^8 is too wide for H_DOMAIN, 2^8 - 1 fits. -/
theorem witness_HostWriteRule : regOfId 0x22 = none ∧ 2 ^ RegName.hDomain.width ≤ 256 ∧ RegName.hDomain ≠ .status ∧
    RegName.hDomain ≠ .resLen ∧ 255 < 2 ^ RegName.hDomain.width := by decide

/-- T_SEC is unwritten at reset and STATUS is written; both configurations. -/
theorem witness_HostReadRule : regOfId 0x52 = none ∧
    ((raising State.reset).params.unwrittenRead = .raises ∧ (raising State.reset).isWritten .tSec = false) ∧
    (raising State.reset).isWritten .status = true ∧
    State.reset.params.unwrittenRead = .holds := by decide

theorem witness_RegisterIdsAreTheTable : regOfId 0x1B = some .hLogInt ∧ regOfId 0x1C = none := by decide

/-- Addresses 63 and 64, bytes 255 and 256. -/
theorem witness_HostBufferAccessRule : 63 < State.reset.params.bufSize ∧ State.reset.params.bufSize ≤ 64 ∧ (255 : Nat) < 256 ∧
    State.reset.byte 63 = none ∧ (full 0 58 1).byte 63 = some 0x5A := by decide

/-- Two states that agree on what HDR_ENCODE and the decodes read and differ elsewhere. -/
theorem witness_ResultDependsOnOperandsOnly :
    (full 0 34 1).params = (full 0 34 2).params ∧ (full 0 34 1).draws = (full 0 34 2).draws ∧
    (full 0 34 1).faultMark = (full 0 34 2).faultMark ∧
    (∀ r ∈ operandRegs .forceZero .hdrEncode, (full 0 34 1).reg r = (full 0 34 2).reg r) ∧
    (∀ j, (full 0 34 1).byte ((full 0 34 1).val .srcOff + j) = (full 0 34 2).byte ((full 0 34 1).val .srcOff + j)) ∧
    full 0 34 1 ≠ full 0 34 2 := by
  refine ⟨rfl, rfl, rfl, ?_, fun j => rfl, by decide⟩
  intro r hr
  cases r <;> first | rfl | exact absurd hr (by decide)

/-- Unwritten reserved registers in place of H1's: the success path of both commands, with a clear fault mark. -/
theorem witness_ForceZeroIgnoresReserved : (full 0 58 1).params.reservedOnEncode = .forceZero ∧
    (∃ t, exec .hdrEncode ((full 0 58 1).withReserved ⟨3, false⟩ ⟨5, false⟩) = .next t ∧
      (t.val .status == 0x00 && !t.faultMark) = true) ∧
    ∃ t, exec .frameBuild ((full 0 58 1).withReserved ⟨3, false⟩ ⟨5, false⟩) = .next t ∧
      (t.val .status == 0x00 && !t.faultMark) = true :=
  ⟨rfl, exists_of_endsIn (by decide), exists_of_endsIn (by decide)⟩

/-- Reset, and the same with another value behind T_SEC's clear mark. -/
theorem witness_UnwrittenValuesUnseen :
    (raising State.reset).params.unwrittenRead = .raises ∧
    SameButUnwritten (raising State.reset)
      { raising State.reset with regs := { State.reset.regs with tSec := ⟨7, false⟩ } } where
  left := rfl
  right := {
    marks := fun r => by cases r <;> rfl
    vals := fun r h => by cases r <;> first | rfl | cases h
    buf := rfl
    faultMark := rfl
    params := rfl
    draws := rfl
    pending := rfl
    done := rfl
    replies := rfl }

/-- Reset, and the same with T_SEC's mark set. -/
theorem witness_HeldValuesAreRead :
    State.reset.params.unwrittenRead = .holds ∧
    SameButMarks State.reset { State.reset with regs := { State.reset.regs with tSec := ⟨0, true⟩ } } where
  left := rfl
  right := {
    vals := fun r => by cases r <;> rfl
    buf := rfl
    faultMark := rfl
    params := rfl
    draws := rfl
    pending := rfl
    done := rfl
    replies := rfl }

/-- The spec's parameters, and a register on each side of the case. -/
theorem witness_UnwrittenReadEndsRunFromReset : paramsAdmitted Params.spec = true ∧ Params.spec.unwrittenRead = .raises ∧
    RegName.hRsv1 ≠ .status ∧ RegName.hRsv1 ≠ .resLen ∧ 255 < 2 ^ RegName.hRsv1.width ∧ Instr.tsDecode ≠ .hdrInit ∧
    isUninit (runFor 2 ((State.resetWith Params.spec).load [.cmd 0x05, .reset])) = true := by decide

theorem witness_HostMachineGoesOnFromReset : paramsAdmitted Params.host = true ∧ Params.host.unwrittenRead = .holds ∧
    endsWith 0x02 (runFor 1 ((State.resetWith Params.host).load [.cmd 0x05])) = true := by decide

/-- The smallest and the largest legal BUF_SIZE. -/
theorem witness_InvariantAtReset : paramsAdmitted { Params.spec with bufSize := 58 } = true ∧
    paramsAdmitted { Params.spec with bufSize := 65535 } = true := by decide

/-- A command that reads written operands only, and a refused action. -/
theorem witness_ReadingsAgreeWithoutFault :
    endsIn (step ((raising (full 0 58 1)).nextCommand 0x06)) (fun t => !t.faultMark) = true ∧
    isRefused (step ((raising State.reset).load [.wr 0x22 0])) = true := by decide

theorem witness_BigEndianInverse : 0xFFFF < 256 ^ 2 ∧ 1 < (be 2 0xFFFF).length := by decide

theorem witness_MemReadAfterMemWrite : 0xFFFFFFFF < 256 ^ 4 ∧ (3 < 4) ∧ (9 < 10 ∨ 10 + 4 ≤ 9) ∧ (14 < 10 ∨ 10 + 4 ≤ 14) := by
  decide

theorem witness_MixedWidthViews : 2 ^ 48 - 1 < 2 ^ 48 ∧ 2 ^ 64 - 1 < 2 ^ 64 := by decide

theorem witness_RawArraysKeepTheirOrder : (List.replicate 6 (0xFF : Byte)).length = 6 ∧
    (List.replicate 10 (0xFF : Byte)).length = 10 := by decide

theorem witness_FlagBitsOnTheWire :
    ∃ t, Succeeds .hdrEncode (full 0 34 1) t := succeeds_of_endsWith (by decide)

/-- A valid header under ForceZero, one under Verbatim, and 34 bytes. -/
theorem witness_HeaderRoundTrip : (defaultHeader.rsv1 = 0 ∧ defaultHeader.rsv2 = 0) ∧ he2.length = 34 ∧ he1.length = 34 := by
  decide

theorem witness_HeaderLengthAndIdempotence : (full 0 34 1).buf.wf = true ∧
    ∃ t, Succeeds .hdrEncode (full 0 34 1) t :=
  ⟨by decide, succeeds_of_endsWith (by decide)⟩

theorem witness_TimestampRoundTrip : 2 ^ 48 - 1 < 2 ^ 48 ∧ 2 ^ 32 - 1 < 2 ^ 32 ∧ tsE2.length = 10 ∧
    (full 0 10 1).buf.wf = true ∧ ∃ t, Succeeds .tsEncode (full 0 10 1) t :=
  ⟨by decide, by decide, by decide, by decide, succeeds_of_endsWith (by decide)⟩

/-- Under Verbatim with reserved fields set (H1), and under ForceZero with them zero. -/
theorem witness_EncodeThenDecodeRestoresHeader :
    ((verbatim (full 30 34 1)).params.reservedOnEncode = .verbatim ∧
      ∃ t, Succeeds .hdrEncode (verbatim (full 30 34 1)) t) ∧
    ((((full 0 34 1).writeReg .hRsv1 0).writeReg .hRsv2 0).val .hRsv2 = 0 ∧
      ∃ t, Succeeds .hdrEncode (((full 0 34 1).writeReg .hRsv1 0).writeReg .hRsv2 0) t) :=
  ⟨⟨rfl, succeeds_of_endsWith (by decide)⟩, by decide, succeeds_of_endsWith (by decide)⟩

theorem witness_EncodeThenDecodeRestoresTimestamp :
    ∃ t, Succeeds .tsEncode (full 54 10 (2 ^ 48 - 1)) t := succeeds_of_endsWith (by decide)

/-- The frame at the upper end of BUF (FB-2's region). -/
theorem witness_FrameIsItsThreeSteps : paramsAdmitted (full 6 58 1).params = true ∧
    ∃ t, Succeeds .frameBuild (full 6 58 1) t :=
  ⟨by decide, succeeds_of_endsWith (by decide)⟩

theorem witness_TimestampPatchesFrame : paramsAdmitted (full 6 58 1).params = true ∧ 2 ^ 48 - 1 < 2 ^ 48 ∧
    2 ^ 32 - 1 < 2 ^ 32 ∧ ∃ t, Succeeds .frameBuild (full 6 58 1) t :=
  ⟨by decide, by decide, by decide, succeeds_of_endsWith (by decide)⟩

/-- A state with the invariant in which the next step builds a frame. -/
theorem witness_StepKeepsInvariant : Inv ((full 0 58 1).nextCommand 0x06) ∧
    ∃ t, step ((full 0 58 1).nextCommand 0x06) = .next t ∧ (t.val .resLen == 58) = true :=
  ⟨⟨by decide, by decide, by decide, by decide, by decide, by decide, by decide, by decide⟩, exists_of_endsIn (by decide)⟩

/-- A step, and a reset with the fault mark set. -/
theorem witness_StepKeepsParametersAndDraws : endsIn (step (State.reset.load [.reset])) (fun _ => true) = true ∧
    State.reset.faulted.faultMark = true ∧ endsIn (perform .reset State.reset.faulted) (fun t => t.faultMark) = true := by decide

/-- The host's duties of rule R235 can be met. -/
theorem witness_conformantSync :
    conformantSync (placed [(.tNsec, 999999999), (.hMsgLen, 44), (.hMsgType, 0x10), (.hVersion, 2)] 0 []) := by
  unfold conformantSync
  decide

end Sys2Proof.Tests
end

/-! # Proofs: what every step keeps (spec/00_scope.md rules R5 and R8)

The parameters and the big-endian byte order, then one inversion of every command (`exec_ends`) and of every host action
(`perform_keepsBlock`, `perform_holdsLegalResult`), from which the invariant and the step's frame follow. -/

namespace Sys2Proof.Machine

/-! ### The legal parameters (rule R5) -/

theorem paramsAdmitted_iff {p : Params} : paramsAdmitted p = true ↔ 58 ≤ p.bufSize ∧ p.bufSize ≤ 65535 := by
  simp [paramsAdmitted]

theorem step_of_not_admitted {s : State} (h : ¬ paramsAdmitted s.params = true) : step s = .refused .illegalParameters :=
  if_neg h

/-- An action is refused for itself (rules R30, R31, R51), never for the parameters. -/
theorem perform_ne_illegalParameters (a : HostAction) (s : State) : perform a s ≠ .refused .illegalParameters := by
  cases a with
  | wr id v =>
    change hostWrite id v s ≠ _
    rcases hostWrite_cases id v s with ⟨_, e⟩ | ⟨_, _, _, e⟩ | ⟨_, _, _, _, e⟩ | ⟨_, _, _, _, e⟩ <;> simp [e]
  | rd id =>
    change hostRead id s ≠ _
    rcases hostRead_cases id s with ⟨_, e⟩ | ⟨_, _, _, e⟩ | ⟨_, _, _, e⟩ <;> simp [e]
  | bw a b =>
    change bufWrite a b s ≠ _
    rcases bufWrite_cases a b s with ⟨_, e⟩ | ⟨_, _, e⟩ | ⟨_, _, e⟩ <;> simp [e]
  | br a =>
    change bufRead a s ≠ _
    rcases bufRead_cases a s with ⟨_, e⟩ | ⟨_, _, e⟩ | ⟨_, _, _, e⟩ <;> simp [e]
  | cmd op =>
    change issue op s ≠ _
    rcases issue_cases op s with ⟨i, _, e⟩ | ⟨_, _, e⟩ <;> rw [e]
    · exact exec_not_refused i s _
    · simp
  | reset => simp [perform, resetBlock]

theorem nextStep_ne_illegalParameters (s : State) : nextStep s ≠ .refused .illegalParameters := by
  rcases nextStep_cases s with ⟨_, e⟩ | ⟨_, _, e⟩ | ⟨a, rest, _, _, e⟩ <;> rw [e]
  · simp
  · simp
  · rcases performNext_cases a rest s with ⟨_, _, e⟩ | ⟨_, _, e⟩ | ⟨r, hr, e⟩ <;> rw [e]
    · simp
    · simp
    · exact hr ▸ perform_ne_illegalParameters a s

/-- Settles O7: the step tests the parameters first, and nothing after that test refuses for them. -/
theorem illegalParametersRefused : Obligations.IllegalParametersRefused := by
  refine ⟨fun s h => step_of_not_admitted ?_, fun s hlo hhi => ?_, fun p => paramsAdmitted_iff⟩
  · rw [paramsAdmitted_iff]
    omega
  · rw [step_eq_nextStep (paramsAdmitted_iff.mpr ⟨hlo, hhi⟩)]
    exact nextStep_ne_illegalParameters s

/-! ### Byte order (rule R8) -/

/-- Byte `i` of `BE_n(v)` is the bit field rule R8 names. -/
theorem be_getElem_toNat {n v i : Nat} (h : i < (be n v).length) :
    (be n v)[i].toNat = bits (8 * (n - 1 - i) + 7) (8 * (n - 1 - i)) v := by
  induction n generalizing i with
  | zero => simp at h
  | succ n ih =>
    cases i with
    | zero =>
      have hpow : 256 ^ n = 2 ^ (8 * n) := by rw [pow_mul]; norm_num
      simp [be, bits, hpow]
    | succ i =>
      have hi : i < (be n v).length := by simpa [be] using h
      have hfield : n + 1 - 1 - (i + 1) = n - 1 - i := by omega
      rw [hfield]
      exact ih hi

/-- Settles O36: the inverse laws of Laws/Bytes.lean, and each byte's field by induction on the width. -/
theorem bigEndianInverse : Obligations.BigEndianInverse :=
  ⟨fun n v h => ⟨be_length n v, fromBE_be_of_lt h⟩, be_fromBE, fun _ _ _ h => be_getElem_toNat h⟩

/-! ### What every update of the block keeps -/

/-- From `s` to `t` the parameters stay, no draw is given back, a set fault mark stays set, and BUF stays canonical and inside
BUF_SIZE. The registers may change. -/
structure KeepsBlock (s t : State) : Prop where
  params : t.params = s.params
  draws : s.draws ≤ t.draws
  faultMark : s.faultMark = true → t.faultMark = true
  bufCanonical : s.buf.wf = true → t.buf.wf = true
  bufInside : s.buf.below s.params.bufSize = true → t.buf.below s.params.bufSize = true

theorem KeepsBlock.refl (s : State) : KeepsBlock s s := ⟨rfl, le_rfl, id, id, id⟩

theorem KeepsBlock.trans {s t u : State} (h : KeepsBlock s t) (h' : KeepsBlock t u) : KeepsBlock s u where
  params := h'.params.trans h.params
  draws := h.draws.trans h'.draws
  faultMark := h'.faultMark ∘ h.faultMark
  bufCanonical := h'.bufCanonical ∘ h.bufCanonical
  bufInside hb := h.params ▸ h'.bufInside (h.params.symm ▸ h.bufInside hb)

theorem keepsBlock_faulted (s : State) : KeepsBlock s s.faulted := ⟨rfl, le_rfl, fun _ => rfl, id, id⟩

theorem keepsBlock_writeReg (s : State) (r : RegName) (v : Nat) : KeepsBlock s (s.writeReg r v) :=
  ⟨rfl, le_rfl, id, id, id⟩

theorem keepsBlock_setHeader (s : State) (h : Header) : KeepsBlock s (s.setHeader h) := ⟨rfl, le_rfl, id, id, id⟩

theorem keepsBlock_setResult (s : State) (c : Byte) (n : Nat) : KeepsBlock s (s.setResult c n) :=
  ⟨rfl, le_rfl, id, id, id⟩

theorem keepsBlock_advance (s : State) (rest : List HostAction) : KeepsBlock s (s.advance rest) :=
  ⟨rfl, le_rfl, id, id, id⟩

theorem keepsBlock_useDraws (s : State) (n : Nat) : KeepsBlock s (s.useDraws n) :=
  ⟨rfl, Nat.le_add_right _ _, id, id, id⟩

/-- What a read returns to the host (rules R31, R51). -/
theorem keepsBlock_replies (s : State) (l : List Reply) : KeepsBlock s { s with replies := l } :=
  ⟨rfl, le_rfl, id, id, id⟩

/-- What the host action reset clears (rule R230). -/
theorem keepsBlock_reset (s : State) : KeepsBlock s { s with regs := Regs.reset, buf := [] } :=
  ⟨rfl, le_rfl, id, fun _ => rfl, fun _ => rfl⟩

/-- Bytes stored inside BUF_SIZE (rule R50). -/
theorem keepsBlock_storeBytes {s : State} {a : Nat} {bs : List Byte} (h : a + bs.length ≤ s.params.bufSize) :
    KeepsBlock s (s.storeBytes a bs) :=
  ⟨rfl, le_rfl, id, Memory.writeBytes_wf a bs, fun hb => Memory.writeBytes_below bs hb h⟩

/-! ### The results of rules R27 and R28 -/

/-- A result a command may leave: success with its command's length, or an error other than TransportError with length 0. -/
inductive LegalResult : Byte → Nat → Prop
  | ok (i : Instr) : LegalResult okCode (successLength i)
  | error (e : ErrorKind) (h : e ≠ .transportError) : LegalResult e.code 0

/-- The part of the invariant `Inv` that speaks of STATUS and RES_LEN. -/
structure HoldsLegalResult (s : State) : Prop where
  statusWritten : s.isWritten .status = true
  resLenWritten : s.isWritten .resLen = true
  statusLegal : s.val .status ∈ statusCodes
  resLenLegal : s.val .resLen ∈ [0, 10, 34, 58]
  errorLength : s.val .status ≠ 0 → s.val .resLen = 0

theorem Inv.holdsLegalResult {s : State} (h : Inv s) : HoldsLegalResult s :=
  ⟨h.statusWritten, h.resLenWritten, h.statusLegal, h.resLenLegal, h.errorLength⟩

/-- The invariant passes along what `KeepsBlock` keeps, once the result pair is legal. -/
theorem Inv.of_keepsBlock {s t : State} (h : Inv s) (hk : KeepsBlock s t) (hr : HoldsLegalResult t) : Inv t where
  params := hk.params ▸ h.params
  bufCanonical := hk.bufCanonical h.bufCanonical
  bufInside := hk.params.symm ▸ hk.bufInside h.bufInside
  statusWritten := hr.statusWritten
  resLenWritten := hr.resLenWritten
  statusLegal := hr.statusLegal
  resLenLegal := hr.resLenLegal
  errorLength := hr.errorLength

/-- Only STATUS and RES_LEN matter to the result pair. -/
theorem HoldsLegalResult.of_reg_eq {s t : State} (h : HoldsLegalResult s) (hs : t.reg .status = s.reg .status)
    (hl : t.reg .resLen = s.reg .resLen) : HoldsLegalResult t := by
  obtain ⟨h1, h2, h3, h4, h5⟩ := h
  constructor <;> simpa only [State.isWritten, State.val, hs, hl]

theorem HoldsLegalResult.of_regs_reset {s : State} (h : s.regs = Regs.reset) : HoldsLegalResult s := by
  constructor <;> simp only [State.isWritten, State.val, State.reg, h] <;> decide

theorem errorCode_mem_statusCodes {e : ErrorKind} (h : e ≠ .transportError) : e.code.toNat ∈ statusCodes := by
  cases e with
  | transportError => exact absurd rfl h
  | _ => decide

theorem successLength_mem (i : Instr) : successLength i ∈ [0, 10, 34, 58] := by
  cases i <;> decide

theorem successLength_lt (i : Instr) : successLength i < 2 ^ 16 := by
  cases i <;> decide

theorem holdsLegalResult_setResult (s : State) {c : Byte} {n : Nat} (h : LegalResult c n) :
    HoldsLegalResult (s.setResult c n) := by
  cases h with
  | ok i =>
    have hlen : (s.setResult okCode (successLength i)).val .resLen = successLength i :=
      (State.setResult_val_resLen ..).trans (Nat.mod_eq_of_lt (successLength_lt i))
    exact ⟨by simp, by simp, by simp [okCode, statusCodes], by rw [hlen]; exact successLength_mem i, by simp [okCode]⟩
  | error e he =>
    exact ⟨by simp, by simp, by simpa using errorCode_mem_statusCodes he, by simp, by simp⟩

/-! ### How a command ends -/

/-- The two ends of a command that starts in `s`: the fault with no other effect, or a legal result set after updates that
keep the block. -/
inductive Ends (s : State) : State → Prop
  | faulted : Ends s s.faulted
  | result {u : State} {c : Byte} {n : Nat} (hk : KeepsBlock s u) (hr : LegalResult c n) : Ends s (u.setResult c n)

/-- An error that changes nothing else. -/
theorem Ends.error (s : State) (e : ErrorKind) (h : e ≠ .transportError) : Ends s (s.setResult e.code 0) :=
  .result (.refl s) (.error e h)

theorem Ends.keepsBlock {s t : State} (h : Ends s t) : KeepsBlock s t := by
  cases h with
  | faulted => exact keepsBlock_faulted s
  | result hk _ => exact hk.trans (keepsBlock_setResult ..)

theorem Ends.holdsLegalResult {s t : State} (h : Ends s t) (hs : HoldsLegalResult s) : HoldsLegalResult t := by
  cases h with
  | faulted => exact hs.of_reg_eq rfl rfl
  | result _ hr => exact holdsLegalResult_setResult _ hr

theorem pickedError_ne_transportError (pick : Bool) : pickedError pick ≠ .transportError := by
  cases pick <;> decide

/-- Bytes stored at the start of a destination region that has room for them. -/
theorem keepsBlock_storeBytes_dst {s : State} {bs : List Byte} (hv : dstValid s) (hl : bs.length ≤ s.val .dstLen) :
    KeepsBlock s (s.storeBytes (s.val .dstOff) bs) :=
  keepsBlock_storeBytes (le_trans (Nat.add_le_add_left hl _) hv)

theorem hdrEncode_ends {s t : State} (h : exec .hdrEncode s = .next t) : Ends s t := by
  rw [exec_hdrEncode] at h
  rcases execHdrEncode_cases s with ⟨e, _⟩ | ⟨e, _⟩ | ⟨e, _⟩ | ⟨e, _, hv, hl, _⟩ <;> obtain rfl := next_unique e h
  · exact .faulted
  · exact .error s .badRegion (by decide)
  · exact .error s .bufferTooSmall (by decide)
  · exact .result (keepsBlock_storeBytes_dst hv (by simpa using hl)) (.ok .hdrEncode)

theorem hdrDecode_ends {s t : State} (h : exec .hdrDecode s = .next t) : Ends s t := by
  rw [exec_hdrDecode] at h
  rcases execHdrDecode_cases s with ⟨e, _⟩ | ⟨e, _⟩ | ⟨e, _⟩ | ⟨bs, e, _⟩ <;> obtain rfl := next_unique e h
  · exact .faulted
  · exact .error s .badRegion (by decide)
  · exact .error s .truncatedInput (by decide)
  · exact .result (keepsBlock_setHeader s _) (.ok .hdrDecode)

theorem tsEncode_ends {s t : State} (h : exec .tsEncode s = .next t) : Ends s t := by
  rw [exec_tsEncode] at h
  rcases tsEncodeWith_cases (Config.errPick s.draws) s with
    ⟨e, _⟩ | ⟨e, _⟩ | ⟨e, _⟩ | ⟨e, _⟩ | ⟨e, _⟩ | ⟨e, _, hv, _, _, hl, _⟩ <;> obtain rfl := next_unique e h
  · exact .faulted
  · exact .error s .badRegion (by decide)
  · exact .result (keepsBlock_useDraws s 1) (.error _ (pickedError_ne_transportError _))
  · exact .error s .bufferTooSmall (by decide)
  · exact .error s .outOfRange (by decide)
  · exact .result (keepsBlock_storeBytes_dst hv (by simpa using hl)) (.ok .tsEncode)

theorem tsDecode_ends {s t : State} (h : exec .tsDecode s = .next t) : Ends s t := by
  rw [exec_tsDecode] at h
  rcases execTsDecode_cases s with ⟨e, _⟩ | ⟨e, _⟩ | ⟨e, _⟩ | ⟨bs, e, _⟩ <;> obtain rfl := next_unique e h
  · exact .faulted
  · exact .error s .badRegion (by decide)
  · exact .error s .truncatedInput (by decide)
  · exact .result ((keepsBlock_writeReg s _ _).trans (keepsBlock_writeReg _ _ _)) (.ok .tsDecode)

/-- A failed FRAME_BUILD stores at most DST_LEN drawn bytes (rule R152), so it too stays inside the region. -/
theorem frameBuild_ends {s t : State} (h : exec .frameBuild s = .next t) : Ends s t := by
  rw [exec_frameBuild] at h
  rcases frameBuildWith_cases (Config.errPick s.draws) (fun i => Config.freeByte (s.draws + i)) s with
    ⟨e, _⟩ | ⟨e, _⟩ | ⟨k, n, e, _, hv, _, hk⟩ | ⟨e, _, hv, _, _, hl, _⟩ <;> obtain rfl := next_unique e h
  · exact .faulted
  · exact .error s .badRegion (by decide)
  · have hne : k ≠ .transportError := by
      rcases hk with ⟨_, rfl, _⟩ | ⟨_, _, _, rfl, _⟩ | ⟨_, _, _, rfl, _⟩ | ⟨_, _, rfl, _⟩
      · decide
      · exact pickedError_ne_transportError _
      · decide
      · decide
    exact .result ((keepsBlock_storeBytes_dst hv (by simp)).trans (keepsBlock_useDraws _ _)) (.error k hne)
  · exact .result (keepsBlock_storeBytes_dst hv (by simpa using hl)) (.ok .frameBuild)

/-- Every command, in every state, ends in one of the two ways. -/
theorem exec_ends {i : Instr} {s t : State} (h : exec i s = .next t) : Ends s t := by
  cases i with
  | hdrInit =>
    obtain rfl := next_unique (execHdrInit_eq s) h
    exact .result (keepsBlock_setHeader s _) (.ok .hdrInit)
  | hdrEncode => exact hdrEncode_ends h
  | hdrDecode => exact hdrDecode_ends h
  | tsEncode => exact tsEncode_ends h
  | tsDecode => exact tsDecode_ends h
  | frameBuild => exact frameBuild_ends h

/-- So does every command word, legal or not (rule R207). -/
theorem issue_ends {op : Byte} {s t : State} (h : issue op s = .next t) : Ends s t := by
  rcases issue_cases op s with ⟨i, _, e⟩ | ⟨_, _, e⟩
  · exact exec_ends (e.symm.trans h)
  · obtain rfl := next_unique e h
    exact .error s .illegalCommand (by decide)

/-! ### What every host action and every step keeps -/

theorem perform_keepsBlock {a : HostAction} {s t : State} (h : perform a s = .next t) : KeepsBlock s t := by
  cases a with
  | wr id v =>
    rcases hostWrite_cases id v s with ⟨_, e⟩ | ⟨_, _, _, e⟩ | ⟨_, _, _, _, e⟩ | ⟨_, _, _, _, e⟩ <;> cases e.symm.trans h
    exact keepsBlock_writeReg ..
  | rd id =>
    rcases hostRead_cases id s with ⟨_, e⟩ | ⟨_, _, _, e⟩ | ⟨_, _, _, e⟩ <;> cases e.symm.trans h
    · exact keepsBlock_faulted s
    · exact keepsBlock_replies s _
  | bw a b =>
    rcases bufWrite_cases a b s with ⟨_, e⟩ | ⟨_, _, e⟩ | ⟨ha, _, e⟩ <;> cases e.symm.trans h
    exact keepsBlock_storeBytes ha
  | br a =>
    rcases bufRead_cases a s with ⟨_, e⟩ | ⟨_, _, e⟩ | ⟨_, _, _, e⟩ <;> cases e.symm.trans h
    · exact keepsBlock_faulted s
    · exact keepsBlock_replies s _
  | cmd op => exact (issue_ends h).keepsBlock
  | reset => cases h; exact keepsBlock_reset s

/-- The host cannot write STATUS or RES_LEN (rule R30), so a legal result pair stays one. -/
theorem perform_holdsLegalResult {a : HostAction} {s t : State} (h : perform a s = .next t) (hs : HoldsLegalResult s) :
    HoldsLegalResult t := by
  cases a with
  | wr id v =>
    rcases hostWrite_cases id v s with ⟨_, e⟩ | ⟨_, _, _, e⟩ | ⟨_, _, _, _, e⟩ | ⟨r, _, hro, _, e⟩ <;>
      cases e.symm.trans h
    have hstatus : RegName.status ≠ r := by rintro rfl; cases hro
    have hresLen : RegName.resLen ≠ r := by rintro rfl; cases hro
    exact hs.of_reg_eq (State.reg_writeReg_ne s v hstatus) (State.reg_writeReg_ne s v hresLen)
  | rd id =>
    rcases hostRead_cases id s with ⟨_, e⟩ | ⟨_, _, _, e⟩ | ⟨_, _, _, e⟩ <;> cases e.symm.trans h <;>
      exact hs.of_reg_eq rfl rfl
  | bw a b =>
    rcases bufWrite_cases a b s with ⟨_, e⟩ | ⟨_, _, e⟩ | ⟨_, _, e⟩ <;> cases e.symm.trans h
    exact hs.of_reg_eq rfl rfl
  | br a =>
    rcases bufRead_cases a s with ⟨_, e⟩ | ⟨_, _, e⟩ | ⟨_, _, _, e⟩ <;> cases e.symm.trans h <;>
      exact hs.of_reg_eq rfl rfl
  | cmd op => exact (issue_ends h).holdsLegalResult hs
  | reset => cases h; exact .of_regs_reset rfl

theorem step_keepsBlock {s t : State} (h : step s = .next t) : KeepsBlock s t := by
  obtain ⟨_, _, ⟨_, rfl⟩ | ⟨a, rest, u, _, hu, rfl⟩⟩ := step_next_cases h
  · exact .refl _
  · exact (perform_keepsBlock hu).trans (keepsBlock_advance u rest)

theorem step_holdsLegalResult {s t : State} (h : step s = .next t) (hs : HoldsLegalResult s) : HoldsLegalResult t := by
  obtain ⟨_, _, ⟨_, rfl⟩ | ⟨a, rest, u, _, hu, rfl⟩⟩ := step_next_cases h
  · exact hs
  · exact (perform_holdsLegalResult hu hs).of_reg_eq rfl rfl

/-- Settles O51: the parameters and BUF by `step_keepsBlock`, the result pair by `step_holdsLegalResult`. -/
theorem stepKeepsInvariant : Obligations.StepKeepsInvariant :=
  fun _ _ hs h => hs.of_keepsBlock (step_keepsBlock h) (step_holdsLegalResult h hs.holdsLegalResult)

/-- Settles O52: a step starts with a clear mark (`step_next_cases`), and every action keeps the block's side of the state. -/
theorem stepKeepsParametersAndDraws : Obligations.StepKeepsParametersAndDraws := by
  refine ⟨fun s t h => ?_, fun a s t h => (perform_keepsBlock h).faultMark⟩
  have hk := step_keepsBlock h
  obtain ⟨_, hmark, _⟩ := step_next_cases h
  exact ⟨hk.params, hk.draws, hmark⟩

/-! ### The invariant at reset -/

theorem inv_resetWith {p : Params} (h : paramsAdmitted p = true) : Inv (State.resetWith p) :=
  have hr : HoldsLegalResult (State.resetWith p) := .of_regs_reset rfl
  ⟨h, rfl, rfl, hr.statusWritten, hr.resLenWritten, hr.statusLegal, hr.resLenLegal, hr.errorLength⟩

/-- Settles O50: State.reset is one of the reset states, with the legal BUF_SIZE 64. -/
theorem invariantAtReset : Obligations.InvariantAtReset :=
  ⟨State.reset_eq ▸ inv_resetWith (by decide), fun _ => inv_resetWith⟩

end Sys2Proof.Machine

/-! # Proofs: the state (spec/10_state.md)

Two states are compared by running the same action on both. `exec_parallel` and `perform_alike` say it once: where the second
state lets be read whatever the first does, with the same values, both end by one and the same update, unless the first raises
UninitRead. What a command leaves, what its result depends on, and how the two readings of rule R35 differ all follow. -/

namespace Sys2Proof.Machine

/-! ### Readable registers, one by one -/

theorem regsReadable_iff {rs : List RegName} {s : State} : regsReadable rs s ↔ ∀ r ∈ rs, regsReadable [r] s := by
  constructor
  · exact fun h r hr => regsReadable_mono h (by simpa using hr)
  · intro h
    by_cases hc : s.params.unwrittenRead = .holds
    · exact .inl hc
    · exact .inr fun r hr => (h r hr).resolve_left hc r (List.mem_singleton_self r)

theorem regsReadable_singleton {r : RegName} {s : State} :
    regsReadable [r] s ↔ s.params.unwrittenRead = .holds ∨ s.isWritten r = true := by
  simp [regsReadable, regsReady]

theorem regsReadable_of_holds {rs : List RegName} {s : State} (h : s.params.unwrittenRead = .holds) :
    regsReadable rs s := .inl h

/-- Under rule R35's fault a register is readable exactly if it is written. -/
theorem regsReadable_of_raises {rs : List RegName} {s : State} (h : s.params.unwrittenRead = .raises) :
    regsReadable rs s ↔ regsReady rs s := by
  simp [regsReadable, h]

/-! ### What the bytes of a command are made of -/

theorem Memory.readBytes_congr {m m' : Memory} {a n : Nat} (h : ∀ j, j < n → m.read (a + j) = m'.read (a + j)) :
    m.readBytes a n = m'.readBytes a n := by
  induction n generalizing a with
  | zero => rfl
  | succ n ih =>
    have hhead : m.read a = m'.read a := h 0 (Nat.succ_pos n)
    have htail : m.readBytes (a + 1) n = m'.readBytes (a + 1) n := ih fun j hj => by
      have := h (j + 1) (by omega)
      rwa [Nat.add_comm j 1, ← Nat.add_assoc] at this
    simp only [Memory.readBytes, hhead, htail]

/-- The header's bytes are those of the registers `enc_hdr` reads, and 0 where it reads none (rule R106). -/
theorem encHdr_header (p : ReservedOnEncode) (s : State) : encHdr p s.header =
    headerRegs.flatMap fun r => be (r.width / 8) (if r ∈ encodedRegs p then s.val r else 0) := by
  cases p <;> rfl

theorem encHdr_header_congr {p : ReservedOnEncode} {s u : State} (h : ∀ r ∈ encodedRegs p, s.val r = u.val r) :
    encHdr p s.header = encHdr p u.header := by
  rw [encHdr_header, encHdr_header]
  refine List.flatMap_congr fun r _ => ?_
  split
  · next hr => rw [h r hr]
  · rfl

theorem frameBytes_congr {s u : State} (hp : s.params.reservedOnEncode = u.params.reservedOnEncode)
    (h : ∀ r ∈ [.eDst, .eSrc, .tSec, .tNsec] ++ encodedRegs s.params.reservedOnEncode, s.val r = u.val r) :
    frameBytes s = frameBytes u := by
  obtain ⟨⟨hd, hs, hsec, hnsec⟩, hh⟩ : (_ ∧ _ ∧ _ ∧ _) ∧ _ := by
    simpa only [List.forall_mem_append, List.forall_mem_cons, List.not_mem_nil, false_imp_iff, implies_true,
      and_true] using h
  rw [frameBytes, frameBytes, hd, hs, hsec, hnsec, encHdr_header_congr hh, hp]

/-! ### How a command that raises no fault ends, as an update that fits other states too -/

/-- The destination region as the registers give it (rule R29). -/
def State.dst (s : State) : Region := { off := s.val .dstOff, len := s.val .dstLen }

/-- How many bytes a command reads from SRC_OFF on (rules R105, R133). -/
def readSize : Instr → Nat
  | .hdrDecode => 34
  | .tsDecode => 10
  | _ => 0

/-- The ends of command `i` with destination region `g` that raise no fault: an error (rules R202 to R206), which FRAME_BUILD
alone may leave drawn bytes with (rule R152), or a success, which stores the encoding or writes the decoded registers. -/
inductive CommandUpdate (i : Instr) (g : Region) : (State → State) → Prop
  | failed {e : ErrorKind} (n : Nat) (bs : List Byte) (he : e ≠ .transportError ∧ e ≠ .illegalCommand)
      (hle : bs.length ≤ min g.len (storedSize i)) :
      CommandUpdate i g fun s => ((s.storeBytes g.off bs).useDraws n).setResult e.code 0
  | stored {bs : List Byte} (hlen : bs.length = storedSize i) (hle : bs.length ≤ g.len)
      (hw : writtenRegs i = [.status, .resLen]) :
      CommandUpdate i g fun s => (s.storeBytes g.off bs).setResult okCode (successLength i)
  | header (h : Header) (hlen : storedSize i = 0) (hw : writtenRegs i = headerRegs ++ [.status, .resLen]) :
      CommandUpdate i g fun s => (s.setHeader h).setResult okCode (successLength i)
  | timestamp (sec nsec : Nat) (hlen : storedSize i = 0) (hw : writtenRegs i = [.tSec, .tNsec, .status, .resLen]) :
      CommandUpdate i g fun s =>
        ((s.writeReg .tSec sec).writeReg .tNsec nsec).setResult okCode (successLength i)

/-- An error that changes nothing but the result pair. -/
theorem CommandUpdate.error (i : Instr) (g : Region) {e : ErrorKind} (he : e ≠ .transportError ∧ e ≠ .illegalCommand) :
    CommandUpdate i g fun s => s.setResult e.code 0 :=
  .failed 0 [] he (Nat.zero_le _)

/-- Whatever of the registers `rs` may be read in `s` may be read in `u`, with the same value; and the two agree on the
parameters of rule R5 and on the draws to come. -/
structure Follows (rs : List RegName) (s u : State) : Prop where
  bufSize : s.params.bufSize = u.params.bufSize
  reserved : s.params.reservedOnEncode = u.params.reservedOnEncode
  draws : s.draws = u.draws
  regs : ∀ r ∈ rs, regsReadable [r] s → regsReadable [r] u ∧ s.val r = u.val r

/-- The same of the registers `rs` may be read in both states. -/
def SameReadable (rs : List RegName) (s u : State) : Prop := ∀ r ∈ rs, regsReadable [r] s ↔ regsReadable [r] u

theorem Follows.refl (rs : List RegName) (s : State) : Follows rs s s := ⟨rfl, rfl, rfl, fun _ _ h => ⟨h, rfl⟩⟩

theorem Follows.readable {rs qs : List RegName} {s u : State} (h : Follows rs s u) (hq : qs ⊆ rs)
    (hr : regsReadable qs s) : regsReadable qs u ∧ ∀ r ∈ qs, s.val r = u.val r := by
  rw [regsReadable_iff] at hr ⊢
  exact ⟨fun r hm => (h.regs r (hq hm) (hr r hm)).1, fun r hm => (h.regs r (hq hm) (hr r hm)).2⟩

theorem SameReadable.regsReadable_iff {rs qs : List RegName} {s u : State} (h : SameReadable rs s u) (hq : qs ⊆ rs) :
    regsReadable qs s ↔ regsReadable qs u := by
  rw [Machine.regsReadable_iff, Machine.regsReadable_iff (s := u)]
  exact forall₂_congr fun r hr => h r (hq hr)

/-- The outcomes `x` in `s` and `y` in `u` of command `i` are parallel: `x` raises the fault, and then so does `y` where the
same registers may be read; or both are one update. -/
def Parallel (i : Instr) (rs : List RegName) (s u : State) (x y : Host.Outcome State Fault Refusal) : Prop :=
  (x = .next s.faulted ∧ (SameReadable rs s u → y = .next u.faulted)) ∨
  ∃ f, CommandUpdate i s.dst f ∧ x = .next (f s) ∧ y = .next (f u)

section Parallel
variable {i : Instr} {rs qs : List RegName} {s u : State} {x y : Host.Outcome State Fault Refusal}

theorem Parallel.update {f : State → State} (hf : CommandUpdate i s.dst f) :
    Parallel i rs s u (.next (f s)) (.next (f u)) := .inr ⟨f, hf, rfl, rfl⟩

theorem Parallel.raiseError {e : ErrorKind} (he : e ≠ .transportError ∧ e ≠ .illegalCommand) :
    Parallel i rs s u (raiseError e s) (raiseError e u) := .update (.error i s.dst he)

theorem Parallel.reading (h : Follows rs s u) (hq : qs ⊆ rs) (hk : (∀ r ∈ qs, s.val r = u.val r) → Parallel i rs s u x y) :
    Parallel i rs s u (reading qs s x) (reading qs u y) := by
  rcases reading_cases qs s x with ⟨hr, e⟩ | ⟨hr, e⟩ <;> rw [e]
  · obtain ⟨hu, hv⟩ := h.readable hq hr
    rw [reading_of_readable hu]
    exact hk hv
  · exact .inl ⟨rfl, fun hs => reading_of_not_readable (mt (hs.regsReadable_iff hq).mpr hr)⟩

theorem Parallel.readingBytes {a n : Nat} {k k' : List Byte → Host.Outcome State Fault Refusal}
    (hb : ∀ j, j < n → s.byte (a + j) = u.byte (a + j)) (hk : ∀ bs, Parallel i rs s u (k bs) (k' bs)) :
    Parallel i rs s u (readingBytes a n s k) (readingBytes a n u k') := by
  rw [Machine.readingBytes, Machine.readingBytes, Memory.readBytes_congr hb]
  cases u.buf.readBytes a n with
  | some bs => exact hk bs
  | none => exact .inl ⟨rfl, fun _ => rfl⟩

theorem Parallel.withRegion {off len : RegName} {k k' : Region → Host.Outcome State Fault Refusal} (h : Follows rs s u)
    (hq : [off, len] ⊆ rs)
    (hk : s.val off = u.val off →
      Parallel i rs s u (k { off := s.val off, len := s.val len }) (k' { off := s.val off, len := s.val len })) :
    Parallel i rs s u (withRegion off len s k) (withRegion off len u k') := by
  refine .reading h hq fun hv => ?_
  have hoff := hv off (by simp)
  rw [← hoff, ← hv len (by simp), Region.valid, Region.valid, ← h.bufSize]
  split
  · exact hk hoff
  · exact .raiseError (by decide)

theorem hdrEncode_parallel (h : Follows (operandRegs s.params.reservedOnEncode .hdrEncode) s u) :
    Parallel .hdrEncode (operandRegs s.params.reservedOnEncode .hdrEncode) s u (execHdrEncode s) (execHdrEncode u) := by
  refine .withRegion h (by simp [operandRegs]) fun _ => ?_
  by_cases hl : s.val .dstLen < hdrSize
  · simp only [hl, if_true]
    exact .raiseError (by decide)
  · simp only [hl, if_false, ← h.reserved]
    refine .reading h (by simp [operandRegs]) fun hv => ?_
    rw [← encHdr_header_congr hv]
    exact .update (.stored (encHdr_length ..) (by simpa [State.dst, hdrSize] using hl) rfl)

theorem hdrDecode_parallel (h : Follows [.srcOff, .srcLen] s u)
    (hb : ∀ j, j < 34 → s.byte (s.val .srcOff + j) = u.byte (s.val .srcOff + j)) :
    Parallel .hdrDecode [.srcOff, .srcLen] s u (execHdrDecode s) (execHdrDecode u) := by
  refine .withRegion h (List.Subset.refl _) fun _ => ?_
  by_cases hl : s.val .srcLen < hdrSize
  · simp only [hl, if_true]
    exact .raiseError (by decide)
  · simp only [hl, if_false]
    exact .readingBytes hb fun bs => .update (.header (decHdr bs) rfl rfl)

theorem tsDecode_parallel (h : Follows [.srcOff, .srcLen] s u)
    (hb : ∀ j, j < 10 → s.byte (s.val .srcOff + j) = u.byte (s.val .srcOff + j)) :
    Parallel .tsDecode [.srcOff, .srcLen] s u (execTsDecode s) (execTsDecode u) := by
  refine .withRegion h (List.Subset.refl _) fun _ => ?_
  by_cases hl : s.val .srcLen < tsSize
  · simp only [hl, if_true]
    exact .raiseError (by decide)
  · simp only [hl, if_false]
    exact .readingBytes hb fun bs => .update (.timestamp (decSec bs) (decNsec bs) rfl rfl)

theorem pickedError_ne (pick : Bool) : pickedError pick ≠ .transportError ∧ pickedError pick ≠ .illegalCommand := by
  cases pick <;> decide

theorem tsEncodeWith_parallel (pick : Bool) (h : Follows [.dstOff, .dstLen, .tSec, .tNsec] s u) :
    Parallel .tsEncode [.dstOff, .dstLen, .tSec, .tNsec] s u (tsEncodeWith pick s) (tsEncodeWith pick u) := by
  refine .withRegion h (by simp) fun _ => .reading h (by simp) fun hv => ?_
  have hsec : s.val .tSec = u.val .tSec := hv .tSec (by simp)
  rw [← hsec]
  by_cases hl : s.val .dstLen < tsSize <;> by_cases hx : secondsLimit ≤ s.val .tSec <;>
    simp only [hl, hx, and_true, and_false, if_true, if_false]
  · exact .update (.failed 1 [] (pickedError_ne pick) (Nat.zero_le _))
  · exact .raiseError (by decide)
  · exact .raiseError (by decide)
  · refine .reading h (by simp) fun hn => ?_
    rw [← hn .tNsec (by simp)]
    exact .update (.stored (encTs_length ..) (by simpa [State.dst, tsSize] using hl) rfl)

/-- The first bytes of the region that a failed FRAME_BUILD leaves (rule R152). -/
theorem Parallel.frameFail {e : ErrorKind} (he : e ≠ .transportError ∧ e ≠ .illegalCommand) (free : Nat → Byte) (k : Nat) :
    Parallel .frameBuild rs s u (frameFail e free s.dst (s.useDraws k)) (frameFail e free s.dst (u.useDraws k)) := by
  rw [frameFail_useDraws, frameFail_useDraws]
  exact .update (.failed _ _ he (by simp [storedSize]))

theorem frameBuildWith_parallel (pick : Bool) (free : Nat → Byte)
    (h : Follows (operandRegs s.params.reservedOnEncode .frameBuild) s u) :
    Parallel .frameBuild (operandRegs s.params.reservedOnEncode .frameBuild) s u (frameBuildWith pick free s)
      (frameBuildWith pick free u) := by
  refine .withRegion h (by simp [operandRegs]) fun _ => ?_
  by_cases h48 : s.val .dstLen < frameTsOffset
  · simp only [h48, if_true]
    exact .frameFail (by decide) free 0
  simp only [h48, if_false]
  refine .reading h (by simp [operandRegs]) fun hv => ?_
  have hsec : s.val .tSec = u.val .tSec := hv .tSec (by simp)
  rw [← hsec]
  by_cases hl : s.val .dstLen < frameSize <;> by_cases hx : secondsLimit ≤ s.val .tSec <;>
    simp only [hl, hx, and_true, and_false, if_true, if_false]
  · exact .frameFail (pickedError_ne pick) free 1
  · exact .frameFail (by decide) free 0
  · exact .frameFail (by decide) free 0
  · rw [← h.reserved]
    refine .reading h (by intro r hr; simp [operandRegs] at hr ⊢; tauto) fun hn => ?_
    rw [← frameBytes_congr h.reserved (by simpa [hsec] using hn)]
    exact .update (.stored (frameBytes_length s) (by simpa [State.dst, frameSize] using hl) rfl)

end Parallel

/-- A command run in two states of which the second lets be read what the first does: one update of both, or the fault. -/
theorem exec_parallel {i : Instr} {s u : State} (h : Follows (operandRegs s.params.reservedOnEncode i) s u)
    (hb : ∀ j, j < readSize i → s.byte (s.val .srcOff + j) = u.byte (s.val .srcOff + j)) :
    Parallel i (operandRegs s.params.reservedOnEncode i) s u (exec i s) (exec i u) := by
  cases i with
  | hdrInit => exact .update (.header defaultHeader rfl rfl)
  | hdrEncode => exact hdrEncode_parallel h
  | hdrDecode => exact hdrDecode_parallel h hb
  | tsEncode =>
    rw [exec_tsEncode, exec_tsEncode, h.draws]
    exact tsEncodeWith_parallel _ h
  | tsDecode => exact tsDecode_parallel h hb
  | frameBuild =>
    rw [exec_frameBuild, exec_frameBuild, h.draws]
    exact frameBuildWith_parallel _ _ h

/-! ### What a command leaves (rules R27, R28, R33) -/

theorem CommandUpdate.frame {i : Instr} {g : Region} {f : State → State} (h : CommandUpdate i g f) (s : State) :
    Frame s (f s) (writtenRegs i) g.off (min g.len (storedSize i)) := by
  cases h with
  | failed n bs _ hle =>
    have hresult : [.status, .resLen] ⊆ writtenRegs i := by cases i <;> simp [writtenRegs]
    exact (frame_store_setResult s _ 0 g.off n bs).mono hresult (.inr ⟨le_rfl, by omega⟩)
  | stored hlen hle hw =>
    rw [hw]
    exact (frame_storeBytes_setResult s _ _ g.off _).mono (List.Subset.refl _) (.inr ⟨le_rfl, by omega⟩)
  | header h _ hw =>
    rw [hw]
    exact frame_setHeader_setResult ..
  | timestamp sec nsec _ hw =>
    rw [hw]
    refine ⟨fun r hr => ?_, by simp, by simp, by simp, by simp, by simp⟩
    simp only [List.mem_cons, List.not_mem_nil, or_false, not_or] at hr
    obtain ⟨hsec, hnsec, hstatus, hresLen⟩ := hr
    rw [State.setResult_reg_ne _ _ _ hstatus hresLen, State.reg_writeReg_ne _ _ hnsec, State.reg_writeReg_ne _ _ hsec]

theorem CommandUpdate.faultMark {i : Instr} {g : Region} {f : State → State} (h : CommandUpdate i g f) (s : State) :
    (f s).faultMark = s.faultMark := by
  cases h <;> simp

/-- Everything a command can do: raise the fault with no other effect, or one of its updates. -/
theorem exec_update_cases {i : Instr} {s t : State} (h : exec i s = .next t) :
    t = s.faulted ∨ ∃ f, CommandUpdate i s.dst f ∧ t = f s := by
  rcases exec_parallel (Follows.refl (operandRegs s.params.reservedOnEncode i) s) fun _ _ => rfl with
    ⟨e, _⟩ | ⟨f, hf, e, _⟩
  · exact .inl (next_unique h e)
  · exact .inr ⟨f, hf, next_unique h e⟩

/-- Settles O31: by the two ends of a command, the fault and an update. -/
theorem commandFrame : Obligations.CommandFrame := by
  refine ⟨fun i s t h => ?_, fun i => by cases i <;> decide⟩
  rcases exec_update_cases h with rfl | ⟨f, hf, rfl⟩
  · exact frame_faulted ..
  · exact hf.frame s

theorem errorCode_mem {e : ErrorKind} (h : e ≠ .transportError ∧ e ≠ .illegalCommand) :
    e.code.toNat ∈ [0x01, 0x02, 0x03, 0x05] := by
  cases e with
  | transportError => exact absurd rfl h.1
  | illegalCommand => exact absurd rfl h.2
  | _ => decide

theorem CommandUpdate.result {i : Instr} {g : Region} {f : State → State} (h : CommandUpdate i g f) (s : State) :
    Result (f s) 0x00 (successLength i) ∨ ∃ code, code ∈ [0x01, 0x02, 0x03, 0x05] ∧ Result (f s) code 0 := by
  cases h with
  | failed n bs he => exact .inr ⟨_, errorCode_mem he, State.setResult_result _ _ _ (by decide)⟩
  | stored | header | timestamp => exact .inl (State.setResult_result _ okCode _ (successLength_lt i))

/-- Settles O23: a command that raises no fault ends by one of its updates, and each of them sets a legal pair last. -/
theorem resultPairIsLegal : Obligations.ResultPairIsLegal := by
  intro i s t h hm
  rcases exec_update_cases h with rfl | ⟨f, hf, rfl⟩
  · cases hm
  · exact hf.result s

/-! ### What a command's result depends on (rule R32) -/

theorem Memory.read_writeBytes_inside_congr (m m' : Memory) (a : Nat) (bs : List Byte) {j : Nat} (h : j < bs.length) :
    (m.writeBytes a bs).read (a + j) = (m'.writeBytes a bs).read (a + j) := by
  rw [Memory.read_writeBytes_inside _ _ _ h, Memory.read_writeBytes_inside _ _ _ h]

theorem State.setHeader_reg_mem (s u : State) (h : Header) {r : RegName} (hr : r ∈ headerRegs) :
    (s.setHeader h).reg r = (u.setHeader h).reg r := by
  fin_cases hr <;> rfl

/-- A write of one register leaves a register alike in both states if it is that register or was alike before. -/
theorem State.writeReg_reg_congr {s u : State} (q : RegName) (v : Nat) {r : RegName} (h : r ≠ q → s.reg r = u.reg r) :
    (s.writeReg q v).reg r = (u.writeReg q v).reg r := by
  by_cases hq : r = q
  · subst hq
    simp
  · rw [State.reg_writeReg_ne _ _ hq, State.reg_writeReg_ne _ _ hq, h hq]

theorem State.setResult_reg_congr {s u : State} (c : Byte) (n : Nat) {r : RegName}
    (h : r ≠ .status → r ≠ .resLen → s.reg r = u.reg r) : (s.setResult c n).reg r = (u.setResult c n).reg r :=
  State.writeReg_reg_congr _ _ fun hs => State.writeReg_reg_congr _ _ fun hl => h hs hl

/-- One update of two states gives the same result pair, and where it is a success the same written registers and the same
stored bytes. -/
theorem CommandUpdate.sameResult {i : Instr} {g : Region} {f : State → State} (hf : CommandUpdate i g f) (s u : State) :
    (f s).reg .status = (f u).reg .status ∧ (f s).reg .resLen = (f u).reg .resLen ∧ ((f s).val .status = 0x00 →
      (∀ r ∈ writtenRegs i, (f s).reg r = (f u).reg r) ∧
      ∀ j, j < storedSize i → (f s).byte (g.off + j) = (f u).byte (g.off + j)) := by
  cases hf with
  | failed n bs he =>
    refine ⟨by simp, by simp, fun h0 => ?_⟩
    have hcode := errorCode_mem he
    rw [← State.setResult_val_status _ _ 0, h0] at hcode
    exact absurd hcode (by decide)
  | stored hlen _ hw =>
    refine ⟨by simp, by simp, fun _ => ⟨fun r hr => State.setResult_reg_congr _ _ fun hs hl => ?_, fun j hj => ?_⟩⟩
    · simp [hw, hs, hl] at hr
    · exact Memory.read_writeBytes_inside_congr _ _ _ _ (hlen ▸ hj)
  | header h hlen hw =>
    refine ⟨by simp, by simp, fun _ => ⟨fun r hr => State.setResult_reg_congr _ _ fun hs hl => ?_, fun j hj => ?_⟩⟩
    · exact State.setHeader_reg_mem s u h (by simpa [hw, hs, hl] using hr)
    · omega
  | timestamp sec nsec hlen hw =>
    refine ⟨by simp, by simp, fun _ => ⟨fun r hr => State.setResult_reg_congr _ _ fun hs hl => ?_, fun j hj => ?_⟩⟩
    · refine State.writeReg_reg_congr _ _ fun hn => State.writeReg_reg_congr _ _ fun ht => ?_
      simp [hw, hs, hl, hn, ht] at hr
    · omega

/-- One update uses up equally many draws of two states. -/
theorem CommandUpdate.sameDraws {i : Instr} {g : Region} {f : State → State} (hf : CommandUpdate i g f) {s u : State}
    (h : s.draws = u.draws) : (f s).draws = (f u).draws := by
  cases hf <;> simp [h]

/-- States that agree on the registers `rs` may read the same of them. -/
theorem regsReadable_congr {r : RegName} {s u : State} (hp : s.params = u.params) (hr : s.reg r = u.reg r) :
    regsReadable [r] s ↔ regsReadable [r] u := by
  rw [regsReadable_singleton, regsReadable_singleton, State.isWritten, State.isWritten, hp, hr]

/-- Settles O33: the operand registers agree, so the command is one update of both states or raises the fault in both. -/
theorem resultDependsOnOperandsOnly : Obligations.ResultDependsOnOperandsOnly := by
  intro i s u hp hd hm hr hbh hbt
  have hsame : SameReadable (operandRegs s.params.reservedOnEncode i) s u := fun r h => regsReadable_congr hp (hr r h)
  have hfollows : Follows (operandRegs s.params.reservedOnEncode i) s u :=
    { bufSize := by rw [hp]
      reserved := by rw [hp]
      draws := hd
      regs := fun r h hread => ⟨(hsame r h).mp hread, by rw [State.val, State.val, hr r h]⟩ }
  have hbytes : ∀ j, j < readSize i → s.byte (s.val .srcOff + j) = u.byte (s.val .srcOff + j) := by
    cases i with
    | hdrDecode => exact hbh rfl
    | tsDecode => exact hbt rfl
    | _ => exact fun j hj => absurd hj (Nat.not_lt_zero j)
  rcases exec_parallel hfollows hbytes with ⟨es, eu⟩ | ⟨f, hf, es, eu⟩
  · rw [es, eu hsame]
    exact ⟨hd, rfl, nofun⟩
  · rw [es, eu]
    exact ⟨hf.sameDraws hd, by rw [hf.faultMark, hf.faultMark, hm], fun _ => hf.sameResult s u⟩

/-! ### A host action and a step, run in two states -/

theorem mem_allRegs (r : RegName) : r ∈ allRegs := by
  cases r <;> decide

theorem Follows.mono {rs qs : List RegName} {s u : State} (h : Follows rs s u) (hq : qs ⊆ rs) : Follows qs s u :=
  ⟨h.bufSize, h.reserved, h.draws, fun r hr => h.regs r (hq hr)⟩

/-- The updates every action and step is made of. What they write is fixed: they read nothing of the state they are given. -/
inductive BlockUpdate : (State → State) → Prop
  | idle : BlockUpdate fun s => s
  | raise : BlockUpdate State.faulted
  | writeReg (r : RegName) (v : Nat) : BlockUpdate fun s => s.writeReg r v
  | setHeader (h : Header) : BlockUpdate fun s => s.setHeader h
  | storeBytes (a : Nat) (bs : List Byte) : BlockUpdate fun s => s.storeBytes a bs
  | useDraws (n : Nat) : BlockUpdate fun s => s.useDraws n
  | reply (x : Reply) : BlockUpdate fun s => { s with replies := x :: s.replies }
  | reset : BlockUpdate fun s => { s with regs := Regs.reset, buf := [] }
  | advance (rest : List HostAction) : BlockUpdate fun s => s.advance rest
  | andThen {f g : State → State} (hf : BlockUpdate f) (hg : BlockUpdate g) : BlockUpdate fun s => g (f s)

theorem BlockUpdate.setResult (c : Byte) (n : Nat) : BlockUpdate fun s => s.setResult c n :=
  .andThen (.writeReg .resLen n) (.writeReg .status c.toNat)

theorem CommandUpdate.blockUpdate {i : Instr} {g : Region} {f : State → State} (h : CommandUpdate i g f) : BlockUpdate f := by
  cases h with
  | failed n bs => exact .andThen (.andThen (.storeBytes g.off bs) (.useDraws n)) (.setResult _ 0)
  | stored => exact .andThen (.storeBytes g.off _) (.setResult _ _)
  | header h => exact .andThen (.setHeader h) (.setResult _ _)
  | timestamp sec nsec => exact .andThen (.andThen (.writeReg .tSec sec) (.writeReg .tNsec nsec)) (.setResult _ _)

/-- The outcomes `x` in `s` and `y` in `u` of one action: both are one update, or both are refused for one reason; or `x`
raises the fault, and then `y` answers a state, by the same update where the same registers may be read. -/
inductive ActsAlike (s u : State) : Host.Outcome State Fault Refusal → Host.Outcome State Fault Refusal → Prop
  | update {f : State → State} (hf : BlockUpdate f) : ActsAlike s u (.next (f s)) (.next (f u))
  | raised {v w : State} (hm : v.faultMark = true)
      (hsame : SameReadable allRegs s u → ∃ f, BlockUpdate f ∧ v = f s ∧ w = f u) : ActsAlike s u (.next v) (.next w)
  | refused (r : Refusal) : ActsAlike s u (.refused r) (.refused r)

section Pair
variable {s u : State}

theorem hostWrite_alike (id : Byte) (v : Nat) : ActsAlike s u (hostWrite id v s) (hostWrite id v u) := by
  unfold hostWrite
  cases regOfId id with
  | none => exact .refused _
  | some r =>
    dsimp only
    split
    · exact .refused _
    · split
      · exact .refused _
      · exact .update (.writeReg r v)

theorem hostRead_alike (h : Follows allRegs s u) (id : Byte) : ActsAlike s u (hostRead id s) (hostRead id u) := by
  unfold hostRead
  cases regOfId id with
  | none => exact .refused _
  | some r =>
    have hsub : [r] ⊆ allRegs := by simpa using mem_allRegs r
    by_cases hr : regsReadable [r] s
    · obtain ⟨hu, hv⟩ := h.readable hsub hr
      simp only [reading_of_readable hr, reading_of_readable hu, ← hv r (by simp)]
      exact .update (.reply _)
    · simp only [reading_of_not_readable hr]
      rcases reading_cases [r] u (.next { u with replies := .reg r (u.val r) :: u.replies }) with ⟨hu, e⟩ | ⟨_, e⟩ <;>
        rw [e]
      · exact .raised rfl fun hs => absurd ((hs.regsReadable_iff hsub).mpr hu) hr
      · exact .update .raise

theorem bufWrite_alike (h : s.params.bufSize = u.params.bufSize) (a b : Nat) :
    ActsAlike s u (bufWrite a b s) (bufWrite a b u) := by
  unfold bufWrite
  rw [h]
  split
  · exact .refused _
  · split
    · exact .refused _
    · exact .update (.storeBytes a _)

theorem bufRead_alike (h : s.params.bufSize = u.params.bufSize) (hbuf : s.buf = u.buf) (a : Nat) :
    ActsAlike s u (bufRead a s) (bufRead a u) := by
  have hbyte : s.byte a = u.byte a := by rw [State.byte, State.byte, hbuf]
  unfold bufRead
  rw [h, hbyte]
  split
  · exact .refused _
  · cases u.byte a with
    | none => exact .update .raise
    | some b => exact .update (.reply (.byte a b))

theorem issue_alike (h : Follows allRegs s u) (hbuf : s.buf = u.buf) (op : Byte) :
    ActsAlike s u (issue op s) (issue op u) := by
  unfold issue
  cases decode op with
  | error _ => exact .update (.setResult _ 0)
  | ok i =>
    dsimp only
    have hsub : operandRegs s.params.reservedOnEncode i ⊆ allRegs := fun r _ => mem_allRegs r
    rcases exec_parallel (h.mono hsub) (fun _ _ => by rw [State.byte, State.byte, hbuf]) with ⟨es, eu⟩ | ⟨f, hf, es, eu⟩
    · obtain ⟨w, ew⟩ := exec_answers i u
      rw [es, ew]
      exact .raised rfl fun hs => ⟨_, .raise, rfl, next_unique ew (eu fun r hr => hs r (hsub hr))⟩
    · rw [es, eu]
      exact .update hf.blockUpdate

/-- One host action in two states that agree on BUF, of which the second lets be read what the first does. -/
theorem perform_alike (h : Follows allRegs s u) (hbuf : s.buf = u.buf) (a : HostAction) :
    ActsAlike s u (perform a s) (perform a u) := by
  cases a with
  | wr id v => exact hostWrite_alike id v
  | rd id => exact hostRead_alike h id
  | bw a b => exact bufWrite_alike h.bufSize a b
  | br a => exact bufRead_alike h.bufSize hbuf a
  | cmd op => exact issue_alike h hbuf op
  | reset => exact .update .reset

theorem performNext_alike {a : HostAction} (rest : List HostAction) (h : ActsAlike s u (perform a s) (perform a u)) :
    ActsAlike s u (performNext a rest s) (performNext a rest u) := by
  unfold performNext
  generalize perform a s = x, perform a u = y at h
  cases h with
  | update hf => exact .update (hf.andThen (.advance rest))
  | raised hm hsame =>
    refine .raised hm fun hs => ?_
    obtain ⟨f, hf, rfl, rfl⟩ := hsame hs
    exact ⟨_, hf.andThen (.advance rest), rfl, rfl⟩
  | refused r => exact .refused r

/-- One step of two states that agree on all but what registers hold and their marks, and on those as `Follows` says: both runs
have ended, or the step is one action in both. -/
theorem step_alike (h : Follows allRegs s u) (hbuf : s.buf = u.buf) (hmark : s.faultMark = u.faultMark)
    (hpending : s.pending = u.pending) :
    (step s = .fault .uninitRead ∧ step u = .fault .uninitRead) ∨ ActsAlike s u (step s) (step u) := by
  unfold step paramsAdmitted nextStep
  rw [h.bufSize, hmark, hpending]
  split
  · split
    · exact .inl ⟨rfl, rfl⟩
    · cases u.pending with
      | nil => exact .inr (.update .idle)
      | cons a rest => exact .inr (performNext_alike rest (perform_alike h hbuf a))
  · exact .inr (.refused _)

end Pair

/-- Where the same registers may be read, alike outcomes are related by whatever every update keeps. -/
theorem ActsAlike.sameOutcome {R : State → State → Prop} {s u : State} {x y : Host.Outcome State Fault Refusal}
    (h : ActsAlike s u x y) (hs : SameReadable allRegs s u) (hR : ∀ f, BlockUpdate f → R (f s) (f u)) :
    SameOutcome R x y := by
  cases h with
  | update hf => exact hR _ hf
  | raised _ hsame =>
    obtain ⟨f, hf, rfl, rfl⟩ := hsame hs
    exact hR f hf
  | refused r => rfl

/-! ### States that differ in their registers alone -/

/-- The two states are equal but for their registers, which are related by `E`. -/
def SameButRegs (E : (w : Nat) → Reg w → Reg w → Prop) (s t : State) : Prop :=
  ∃ g : Regs, (∀ r, E r.width (s.reg r) (g.get r)) ∧ t = { s with regs := g }

/-- Every update keeps a relation of registers in which each register is related to itself: it writes the same in both. -/
theorem BlockUpdate.sameButRegs {E : (w : Nat) → Reg w → Reg w → Prop} (hE : ∀ w x, E w x x) {f : State → State}
    (hf : BlockUpdate f) {s t : State} (h : SameButRegs E s t) : SameButRegs E (f s) (f t) := by
  induction hf generalizing s t with
  | andThen _ _ ihf ihg => exact ihg (ihf h)
  | writeReg r v =>
    obtain ⟨g, hg, rfl⟩ := h
    refine ⟨g.set r (Reg.holding (BitVec.ofNat r.width v)), fun q => ?_, rfl⟩
    by_cases hq : q = r
    · subst hq
      rw [State.reg_writeReg_same, Regs.get_set_same]
      exact hE ..
    · rw [State.reg_writeReg_ne _ _ hq, Regs.get_set_ne _ _ hq]
      exact hg q
  | setHeader h =>
    obtain ⟨g, hg, rfl⟩ := h
    refine ⟨(State.setHeader { s with regs := g } h).regs, fun q => ?_, rfl⟩
    change E _ _ ((State.setHeader { s with regs := g } h).reg q)
    by_cases hq : q ∈ headerRegs
    · rw [State.setHeader_reg_mem s { s with regs := g } h hq]
      exact hE ..
    · rw [State.setHeader_reg_ne _ _ hq, State.setHeader_reg_ne _ _ hq]
      exact hg q
  | reset =>
    obtain ⟨g, _, rfl⟩ := h
    exact ⟨Regs.reset, fun _ => hE .., rfl⟩
  | idle | raise | storeBytes | useDraws | reply | advance =>
    obtain ⟨g, hg, rfl⟩ := h
    exact ⟨g, hg, rfl⟩

/-- A step keeps such a relation if it lets the same registers be read, with the same values. -/
theorem step_sameButRegs {E : (w : Nat) → Reg w → Reg w → Prop} (hE : ∀ w x, E w x x) {s t : State}
    (h : SameButRegs E s t) (hs : SameReadable allRegs s t)
    (hv : ∀ r, regsReadable [r] s → s.val r = t.val r) : SameOutcome (SameButRegs E) (step s) (step t) := by
  have halike : (step s = .fault .uninitRead ∧ step t = .fault .uninitRead) ∨ ActsAlike s t (step s) (step t) := by
    obtain ⟨g, _, rfl⟩ := h
    exact step_alike ⟨rfl, rfl, rfl, fun r hr hread => ⟨(hs r hr).mp hread, hv r hread⟩⟩ rfl rfl rfl
  rcases halike with ⟨es, et⟩ | halike
  · rw [es, et]
    rfl
  · exact halike.sameOutcome hs fun f hf => hf.sameButRegs hE h

theorem eq_with_regs {s t : State} (hbuf : s.buf = t.buf) (hmark : s.faultMark = t.faultMark) (hparams : s.params = t.params)
    (hdraws : s.draws = t.draws) (hpending : s.pending = t.pending) (hdone : s.done = t.done)
    (hreplies : s.replies = t.replies) : t = { s with regs := t.regs } := by
  cases t
  simp only [hbuf, hmark, hparams, hdraws, hpending, hdone, hreplies]

/-- Equal marks, and equal values behind a set mark. -/
def Reg.SameIfWritten (w : Nat) (x y : Reg w) : Prop := x.written = y.written ∧ (x.written = true → x.val = y.val)

/-- Equal values, whatever the marks. -/
def Reg.SameVal (w : Nat) (x y : Reg w) : Prop := x.val = y.val

theorem sameButUnwritten_iff {s t : State} : SameButUnwritten s t ↔ SameButRegs Reg.SameIfWritten s t := by
  constructor
  · intro h
    exact ⟨t.regs, fun r => ⟨h.marks r, fun hw => BitVec.eq_of_toNat_eq (h.vals r hw)⟩,
      eq_with_regs h.buf h.faultMark h.params h.draws h.pending h.done h.replies⟩
  · rintro ⟨g, hg, rfl⟩
    exact ⟨fun r => (hg r).1, fun r hw => congrArg BitVec.toNat ((hg r).2 hw), rfl, rfl, rfl, rfl, rfl, rfl, rfl⟩

theorem sameButMarks_iff {s t : State} : SameButMarks s t ↔ SameButRegs Reg.SameVal s t := by
  constructor
  · intro h
    exact ⟨t.regs, fun r => BitVec.eq_of_toNat_eq (h.vals r),
      eq_with_regs h.buf h.faultMark h.params h.draws h.pending h.done h.replies⟩
  · rintro ⟨g, hg, rfl⟩
    exact ⟨fun r => congrArg BitVec.toNat (hg r), rfl, rfl, rfl, rfl, rfl, rfl, rfl⟩

/-- Settles O35: under the fault a register is read only where it is written, and there the two states agree. -/
theorem unwrittenValuesUnseen : Obligations.UnwrittenValuesUnseen := by
  intro s t hp h
  have hreadable : SameReadable allRegs s t := fun r _ => by
    rw [regsReadable_singleton, regsReadable_singleton, h.marks r, h.params]
  have hvals : ∀ r, regsReadable [r] s → s.val r = t.val r := fun r hr =>
    h.vals r ((regsReadable_of_raises hp).mp hr r (by simp))
  rw [show SameButUnwritten = SameButRegs Reg.SameIfWritten from funext₂ fun _ _ => propext sameButUnwritten_iff]
  exact step_sameButRegs (fun _ _ => ⟨rfl, fun _ => rfl⟩) (sameButUnwritten_iff.mp h) hreadable hvals

/-- Settles O54: where every register may be read, equal values are all that is seen of it. -/
theorem heldValuesAreRead : Obligations.HeldValuesAreRead := by
  intro s t hp h
  have hpt : t.params.unwrittenRead = .holds := h.params ▸ hp
  have hreadable : SameReadable allRegs s t := fun r _ => iff_of_true (.inl hp) (.inl hpt)
  rw [show SameButMarks = SameButRegs Reg.SameVal from funext₂ fun _ _ => propext sameButMarks_iff]
  exact step_sameButRegs (E := Reg.SameVal) (fun _ _ => rfl) (sameButMarks_iff.mp h) hreadable fun r _ => h.vals r

/-! ### The two readings of rule R35 -/

theorem BlockUpdate.withUnwrittenRead {f : State → State} (hf : BlockUpdate f) (s : State) (v : UnwrittenRead) :
    f (s.withUnwrittenRead v) = (f s).withUnwrittenRead v := by
  induction hf generalizing s with
  | andThen _ _ ihf ihg => simp only [ihf, ihg]
  | writeReg r n => exact State.writeReg_withUnwrittenRead ..
  | setHeader h => exact State.setHeader_withUnwrittenRead ..
  | idle | raise | storeBytes | useDraws | reply | reset | advance => rfl

theorem ActsAlike.refused_iff {s u : State} {x y : Host.Outcome State Fault Refusal} (h : ActsAlike s u x y) (r : Refusal) :
    x = .refused r ↔ y = .refused r := by
  cases h <;> simp

/-- Settles O55: the machine that reads an unwritten register as it stands follows the machine that raises the fault there. -/
theorem readingsAgreeWithoutFault : Obligations.ReadingsAgreeWithoutFault := by
  intro s
  have hfollows : Follows allRegs (s.withUnwrittenRead .raises) (s.withUnwrittenRead .holds) :=
    ⟨rfl, rfl, rfl, fun _ _ _ => ⟨.inl rfl, rfl⟩⟩
  rcases step_alike hfollows rfl rfl rfl with ⟨er, eh⟩ | halike
  · refine ⟨fun t ht => ?_, fun r => ?_⟩
    · rw [er] at ht
      cases ht
    · rw [er, eh]
  refine ⟨fun t ht hm => ?_, halike.refused_iff⟩
  rw [ht] at halike
  generalize step (s.withUnwrittenRead .holds) = y at halike
  cases halike with
  | update hf => rw [← hf.withUnwrittenRead, State.withUnwrittenRead_withUnwrittenRead]
  | raised hset => rw [hset] at hm; cases hm

/-! ### The register table (rule R22) -/

/-- An id is unassigned if it is none of the 22 of rule R22, which lie in five ranges. -/
theorem regOfId_eq_none_iff {id : Byte} : regOfId id = none ↔
    ¬ ((0x10 ≤ id.toNat ∧ id.toNat ≤ 0x1B) ∨ (0x20 ≤ id.toNat ∧ id.toNat ≤ 0x21) ∨
      (0x30 ≤ id.toNat ∧ id.toNat ≤ 0x31) ∨ (0x40 ≤ id.toNat ∧ id.toNat ≤ 0x43) ∨
      (0x50 ≤ id.toNat ∧ id.toNat ≤ 0x51)) := by
  simp only [regOfId, allRegs, List.find?_eq_none, beq_iff_eq, List.forall_mem_append, List.forall_mem_cons, regId,
    ← BitVec.toNat_inj, BitVec.reduceToNat, List.not_mem_nil, false_imp_iff, implies_true, and_true]
  omega

@[simp] theorem regOfId_regId (r : RegName) : regOfId (regId r) = some r := by
  cases r <;> rfl

theorem regOfId_eq_some_iff {id : Byte} {r : RegName} : regOfId id = some r ↔ id = regId r := by
  constructor
  · intro h
    unfold regOfId at h
    exact (beq_iff_eq.mp (List.find?_some (p := fun r => regId r == id) h)).symm
  · rintro rfl
    exact regOfId_regId r

theorem readOnly_iff (r : RegName) : readOnly r = true ↔ r = .status ∨ r = .resLen := by
  cases r <;> simp [readOnly]

/-- Settles O28: the 22 ids and the 22 widths by evaluation, then what holds of every register and of every id. -/
theorem registerIdsAreTheTable : Obligations.RegisterIdsAreTheTable := by
  unfold Obligations.RegisterIdsAreTheTable
  iterate 44 refine ⟨rfl, ?_⟩
  exact ⟨readOnly_iff, fun _ _ => regOfId_eq_some_iff, fun _ => regOfId_eq_none_iff⟩

/-! ### WR and RD (rules R30, R31, R24) -/

/-- WR of a register the host may write, with a value that fits it. -/
theorem perform_wr_regId {r : RegName} (hr : ¬ (r = .status ∨ r = .resLen)) {v : Nat} (hv : v < 2 ^ r.width) (s : State) :
    perform (.wr (regId r) v) s = .next (s.writeReg r v) := by
  have hro : readOnly r = false := by rw [← Bool.not_eq_true, readOnly_iff]; exact hr
  show hostWrite (regId r) v s = _
  simp [hostWrite, hro, hv]

theorem perform_rd_regId (r : RegName) (s : State) : perform (.rd (regId r)) s =
    reading [r] s (.next { s with replies := .reg r (s.val r) :: s.replies }) := by
  show hostRead (regId r) s = _
  simp [hostRead]

theorem frame_writeReg (s : State) (r : RegName) (v : Nat) : Frame s (s.writeReg r v) [r] 0 0 where
  regs _ hq := State.reg_writeReg_ne s v (by simpa using hq)
  bytes _ _ := rfl
  params := rfl
  pending := rfl
  done := rfl
  replies := rfl

/-- Settles O26: the checks of rule R30 one after another, then the write. -/
theorem hostWriteRule : Obligations.HostWriteRule := by
  refine ⟨fun s id v h => ⟨.unassignedRegister id, ?_⟩, fun s r v h => ?_, fun s r v hs hl hv => ?_⟩
  · show hostWrite id v s = _
    simp [hostWrite, h]
  · show ∃ e, hostWrite (regId r) v s = .refused e
    rcases hostWrite_cases (regId r) v s with ⟨_, e⟩ | ⟨_, _, _, e⟩ | ⟨_, _, _, _, e⟩ | ⟨q, hq, hro, hv, _⟩
    · exact ⟨_, e⟩
    · exact ⟨_, e⟩
    · exact ⟨_, e⟩
    · obtain rfl : r = q := by simpa using hq
      rw [← Bool.not_eq_true, readOnly_iff] at hro
      rcases h with h | h | h
      · exact absurd (.inl h) hro
      · exact absurd (.inr h) hro
      · omega
  · refine ⟨_, perform_wr_regId (by tauto) hv s, by simp, ?_, frame_writeReg s r v, rfl, rfl⟩
    rw [State.val_writeReg_same, Nat.mod_eq_of_lt hv]

/-- Settles O27: RD reads one register, so `reading` decides between the fault and the reply. -/
theorem hostReadRule : Obligations.HostReadRule := by
  refine ⟨fun s id h => ⟨.unassignedRegister id, ?_⟩, fun s r hp hw => ?_, fun s r h => ?_⟩
  · show hostRead id s = _
    simp [hostRead, h]
  · rw [perform_rd_regId, reading_of_not_readable]
    simp [regsReadable_singleton, hp, hw]
  · rw [perform_rd_regId, reading_of_readable (regsReadable_singleton.mpr h)]
    exact ⟨_, rfl, rfl, rfl, rfl, rfl, rfl, rfl⟩

/-- A register of `n` bytes holds an array of `n` bytes so that its bytes are the array's, first byte most significant. -/
theorem perform_wr_fromBE {r : RegName} (hr : ¬ (r = .status ∨ r = .resLen)) (s : State) {n : Nat} {bs : List Byte}
    (hn : bs.length = n) (hw : r.width = 8 * n) : ∃ t, perform (.wr (regId r) (fromBE bs)) s = .next t ∧
      be n (t.val r) = bs ∧
      ∀ i (h : i < bs.length), bs[i].toNat = bits (8 * (n - 1 - i) + 7) (8 * (n - 1 - i)) (t.val r) := by
  subst hn
  have hlt : fromBE bs < 2 ^ r.width := by
    rw [hw, pow_mul]
    exact fromBE_lt bs
  refine ⟨_, perform_wr_regId hr hlt s, ?_⟩
  rw [State.val_writeReg_same, Nat.mod_eq_of_lt hlt]
  refine ⟨be_fromBE bs, fun i h => ?_⟩
  have hbyte := be_getElem_toNat (n := bs.length) (v := fromBE bs) (i := i) (by simpa using h)
  simpa only [be_fromBE] using hbyte

/-- Settles O39: both pseudo-instructions write the array's big-endian value to a register of its size. -/
theorem rawArraysKeepTheirOrder : Obligations.RawArraysKeepTheirOrder := by
  refine ⟨fun s r mac hr hl => ?_, fun s spi hl => ?_⟩
  · have hro : ¬ (r = .status ∨ r = .resLen) := by rcases hr with rfl | rfl <;> decide
    obtain ⟨t, ht⟩ := perform_wr_fromBE hro s hl (by rcases hr with rfl | rfl <;> rfl)
    exact ⟨_, t, if_pos ⟨hr, hl⟩, ht⟩
  · obtain ⟨t, ht⟩ := perform_wr_fromBE (r := .hSpi) (by decide) s hl rfl
    exact ⟨_, t, if_pos hl, ht⟩

/-! ### Reset (rules R22, R230) -/

theorem resetWith_isWritten {r : RegName} (hr : ¬ (r = .status ∨ r = .resLen)) (p : Params) :
    (State.resetWith p).isWritten r = false := by
  cases r with
  | status => exact absurd (.inl rfl) hr
  | resLen => exact absurd (.inr rfl) hr
  | _ => rfl

theorem resetWith_isWritten_result {r : RegName} (hr : r = .status ∨ r = .resLen) (p : Params) :
    (State.resetWith p).isWritten r = true := by
  rcases hr with rfl | rfl <;> rfl

/-- Every register holds 0 after reset: STATUS and RES_LEN by rule R22, the others by log entry 1. -/
theorem resetWith_val (r : RegName) (p : Params) : (State.resetWith p).val r = 0 := by
  cases r <;> rfl

/-- Settles O4: the registers by their reset column, the rest as `State.resetWith` gives it. -/
theorem resetStateIsAsGiven : Obligations.ResetStateIsAsGiven := by
  refine ⟨fun p => ⟨⟨?_, resetWith_val _ p, ?_, resetWith_val _ p⟩, fun r hs hl => ?_, ?_, rfl, rfl, rfl⟩, rfl, rfl⟩
  · exact resetWith_isWritten_result (.inl rfl) p
  · exact resetWith_isWritten_result (.inr rfl) p
  · exact resetWith_isWritten (by tauto) p
  · exact State.resetWith_byte p

/-! ### Where the fault is raised (rules R35, R208, R211) -/

section FaultedIff
variable {s : State} (hm : s.faultMark = false)
include hm

/-- An action that leaves a clear mark clear has not raised the fault. -/
theorem ne_faulted_of_next {x : Host.Outcome State Fault Refusal} {t : State} (e : x = .next t)
    (h : t.faultMark = s.faultMark) : x ≠ .next s.faulted := by
  intro e'
  rw [next_unique e e', State.faulted_faultMark, hm] at h
  cases h

theorem execHdrInit_ne_faulted : execHdrInit s ≠ .next s.faulted :=
  ne_faulted_of_next hm (execHdrInit_eq s) (by simp)

theorem execHdrEncode_faulted_iff : execHdrEncode s = .next s.faulted ↔
    ¬ regsReadable [.dstOff, .dstLen] s ∨
      dstValid s ∧ 34 ≤ s.val .dstLen ∧ ¬ regsReadable (encodedRegs s.params.reservedOnEncode) s := by
  rcases execHdrEncode_cases s with ⟨e, c⟩ | ⟨e, hr, hv⟩ | ⟨e, hr, _, hl⟩ | ⟨e, hr, _, _, hh⟩
  · exact iff_of_true e c
  · exact iff_of_false (ne_faulted_of_next hm e (by simp)) (by simp [hr, dstValid, hv.not_ge])
  · exact iff_of_false (ne_faulted_of_next hm e (by simp)) (by simp [hr, hl.not_ge])
  · exact iff_of_false (ne_faulted_of_next hm e (by simp)) (by simp [hr, hh])

theorem execHdrDecode_faulted_iff : execHdrDecode s = .next s.faulted ↔
    ¬ regsReadable [.srcOff, .srcLen] s ∨
      srcValid s ∧ 34 ≤ s.val .srcLen ∧ ¬ bytesReady (s.val .srcOff) 34 s := by
  rcases execHdrDecode_cases s with ⟨e, c⟩ | ⟨e, hr, hv⟩ | ⟨e, hr, _, hl⟩ | ⟨bs, e, _, hr, _, _, hb⟩
  · exact iff_of_true e c
  · exact iff_of_false (ne_faulted_of_next hm e (by simp)) (by simp [hr, srcValid, hv.not_ge])
  · exact iff_of_false (ne_faulted_of_next hm e (by simp)) (by simp [hr, hl.not_ge])
  · exact iff_of_false (ne_faulted_of_next hm e (by simp)) (by simp [hr, hb])

theorem tsEncodeWith_faulted_iff (pick : Bool) : tsEncodeWith pick s = .next s.faulted ↔
    ¬ regsReadable [.dstOff, .dstLen] s ∨
      dstValid s ∧ (¬ regsReadable [.tSec] s ∨
        10 ≤ s.val .dstLen ∧ s.val .tSec < 2 ^ 48 ∧ ¬ regsReadable [.tNsec] s) := by
  rcases tsEncodeWith_cases pick s with ⟨e, c⟩ | ⟨e, hr, hv⟩ | ⟨e, hr, _, hs, hl, _⟩ | ⟨e, hr, _, hs, hl, _⟩ |
    ⟨e, hr, _, hs, _, hx⟩ | ⟨e, hr, _, hs, hn, _, _⟩
  · exact iff_of_true e c
  · exact iff_of_false (ne_faulted_of_next hm e (by simp)) (by simp [hr, dstValid, hv.not_ge])
  · exact iff_of_false (ne_faulted_of_next hm e (by simp)) (by simp [hr, hs, hl.not_ge])
  · exact iff_of_false (ne_faulted_of_next hm e (by simp)) (by simp [hr, hs, hl.not_ge])
  · refine iff_of_false (ne_faulted_of_next hm e (by simp)) ?_
    rintro (c | ⟨_, c | ⟨_, c, _⟩⟩)
    · exact c hr
    · exact c hs
    · omega
  · exact iff_of_false (ne_faulted_of_next hm e (by simp)) (by simp [hr, hs, hn])

theorem execTsDecode_faulted_iff : execTsDecode s = .next s.faulted ↔
    ¬ regsReadable [.srcOff, .srcLen] s ∨
      srcValid s ∧ 10 ≤ s.val .srcLen ∧ ¬ bytesReady (s.val .srcOff) 10 s := by
  rcases execTsDecode_cases s with ⟨e, c⟩ | ⟨e, hr, hv⟩ | ⟨e, hr, _, hl⟩ | ⟨bs, e, _, hr, _, _, hb⟩
  · exact iff_of_true e c
  · exact iff_of_false (ne_faulted_of_next hm e (by simp)) (by simp [hr, srcValid, hv.not_ge])
  · exact iff_of_false (ne_faulted_of_next hm e (by simp)) (by simp [hr, hl.not_ge])
  · exact iff_of_false (ne_faulted_of_next hm e (by simp)) (by simp [hr, hb])

theorem frameBuildWith_faulted_iff (pick : Bool) (free : Nat → Byte) : frameBuildWith pick free s = .next s.faulted ↔
    ¬ regsReadable [.dstOff, .dstLen] s ∨
      dstValid s ∧ 48 ≤ s.val .dstLen ∧ (¬ regsReadable [.tSec] s ∨
        58 ≤ s.val .dstLen ∧ s.val .tSec < 2 ^ 48 ∧
          ¬ regsReadable ([.eDst, .eSrc, .tNsec] ++ encodedRegs s.params.reservedOnEncode) s) := by
  rcases frameBuildWith_cases pick free s with ⟨e, c⟩ | ⟨e, hr, hv⟩ | ⟨k, n, e, hr, _, hs, hk⟩ | ⟨e, hr, _, hs, hn, _⟩
  · exact iff_of_true e c
  · exact iff_of_false (ne_faulted_of_next hm e (by simp)) (by simp [hr, dstValid, hv.not_ge])
  · refine iff_of_false (ne_faulted_of_next hm e (by simp)) ?_
    rintro (c | ⟨_, h48, c | ⟨h58, hx, _⟩⟩)
    · exact c hr
    · exact c (hs h48)
    · omega
  · exact iff_of_false (ne_faulted_of_next hm e (by simp)) (by simp only [hr, hs, hn]; simp)

/-- Where every register may be read, only a decode raises the fault, and only by the bytes it reads. -/
theorem exec_faulted_iff_of_readable (hread : ∀ rs, regsReadable rs s) (i : Instr) : exec i s = .next s.faulted ↔
    srcValid s ∧ readSize i ≤ s.val .srcLen ∧ ¬ bytesReady (s.val .srcOff) (readSize i) s := by
  have hnone : bytesReady (s.val .srcOff) 0 s := fun j hj => absurd hj (Nat.not_lt_zero j)
  cases i with
  | hdrInit => exact iff_of_false (execHdrInit_ne_faulted hm) fun c => c.2.2 hnone
  | hdrEncode => simp [execHdrEncode_faulted_iff hm, hread, readSize, hnone]
  | hdrDecode => simp [execHdrDecode_faulted_iff hm, hread, readSize]
  | tsEncode => simp [tsEncodeWith_faulted_iff hm, hread, readSize, hnone]
  | tsDecode => simp [execTsDecode_faulted_iff hm, hread, readSize]
  | frameBuild => simp only [exec_frameBuild, frameBuildWith_faulted_iff hm, hread, readSize, hnone]; simp

end FaultedIff

/-- Settles O24: in each configuration the registers that may be read are the written ones, or all. -/
theorem uninitReadExactly : Obligations.UninitReadExactly := by
  intro s hm
  refine ⟨execHdrInit_ne_faulted hm, fun hp => ?_, fun hp => ?_⟩
  · simp only [← regsReadable_of_raises hp]
    exact ⟨execHdrEncode_faulted_iff hm, execHdrDecode_faulted_iff hm, tsEncodeWith_faulted_iff hm _,
      execTsDecode_faulted_iff hm, frameBuildWith_faulted_iff hm _ _⟩
  · have hiff := exec_faulted_iff_of_readable hm fun _ => regsReadable_of_holds hp
    refine ⟨fun i hhdr hts => ?_, hiff .hdrDecode, hiff .tsDecode⟩
    have hnone : readSize i = 0 := by
      cases i with
      | hdrDecode => exact absurd rfl hhdr
      | tsDecode => exact absurd rfl hts
      | _ => rfl
    rw [Ne, hiff, hnone]
    exact fun c => c.2.2 fun j hj => absurd hj (Nat.not_lt_zero j)

/-! ### What follows a raised fault -/

/-- No action stops with a fault by itself. -/
theorem perform_ne_fault (a : HostAction) (s : State) (f : Fault) : perform a s ≠ .fault f := by
  intro e
  have h := perform_alike (Follows.refl allRegs s) rfl a
  rw [e] at h
  cases h

/-- An action raises UninitRead, with no other effect, or leaves the fault mark as it was. -/
theorem perform_fault_cases {a : HostAction} {s t : State} (h : perform a s = .next t) :
    t = s.faulted ∨ t.faultMark = s.faultMark := by
  cases a with
  | wr id v =>
    rcases hostWrite_cases id v s with ⟨_, e⟩ | ⟨_, _, _, e⟩ | ⟨_, _, _, _, e⟩ | ⟨_, _, _, _, e⟩ <;> cases e.symm.trans h
    exact .inr rfl
  | rd id =>
    rcases hostRead_cases id s with ⟨_, e⟩ | ⟨_, _, _, e⟩ | ⟨_, _, _, e⟩ <;> cases e.symm.trans h
    · exact .inl rfl
    · exact .inr rfl
  | bw a b =>
    rcases bufWrite_cases a b s with ⟨_, e⟩ | ⟨_, _, e⟩ | ⟨_, _, e⟩ <;> cases e.symm.trans h
    exact .inr rfl
  | br a =>
    rcases bufRead_cases a s with ⟨_, e⟩ | ⟨_, _, e⟩ | ⟨_, _, _, e⟩ <;> cases e.symm.trans h
    · exact .inl rfl
    · exact .inr rfl
  | cmd op =>
    rcases issue_cases op s with ⟨i, _, e⟩ | ⟨_, _, e⟩
    · exact exec_fault_cases (e.symm.trans h)
    · cases e.symm.trans h
      exact .inr rfl
  | reset => cases h; exact .inr rfl

/-- A step stops with a fault only in a state whose mark is set. -/
theorem faultMark_of_step_fault {s : State} {f : Fault} (h : step s = .fault f) : s.faultMark = true := by
  unfold step at h
  split at h
  · rcases nextStep_cases s with ⟨hm, _⟩ | ⟨_, _, e⟩ | ⟨a, rest, _, _, e⟩
    · exact hm
    · cases e.symm.trans h
    · rcases performNext_cases a rest s with ⟨_, _, e'⟩ | ⟨g, hg, _⟩ | ⟨_, _, e'⟩
      · cases (e.trans e').symm.trans h
      · exact absurd hg (perform_ne_fault a s g)
      · cases (e.trans e').symm.trans h
  · cases h

theorem runFor_of_faultMark {s : State} (hp : paramsAdmitted s.params = true) (hm : s.faultMark = true) (n : Nat) :
    runFor (n + 1) s = .fault .uninitRead := by
  have hstep : step s = .fault .uninitRead := (step_eq_nextStep hp).trans (if_pos hm)
  rw [runFor, hstep]

/-- Settles O53: the mark stops the step, nothing else does, and an action that sets it does nothing else. -/
theorem faultEndsTheRun : Obligations.FaultEndsTheRun := by
  refine ⟨fun s n hp hm => runFor_of_faultMark hp hm n, fun s f => faultMark_of_step_fault, fun a s t h hm ht => ?_⟩
  rcases perform_fault_cases h with e | e
  · exact e
  · rw [e, hm] at ht
    cases ht

/-- With every register and byte written, no action raises the fault. -/
theorem perform_ne_faulted_of_written {s : State} (hm : s.faultMark = false) (hw : ∀ r, s.isWritten r = true)
    (hb : bytesReady 0 s.params.bufSize s) (a : HostAction) : perform a s ≠ .next s.faulted := by
  have hbyte : ∀ c, c < s.params.bufSize → s.byte c ≠ none := fun c hc => by
    obtain ⟨b, e⟩ := hb c hc
    rw [Nat.zero_add] at e
    simp [e]
  have hread : ∀ rs, regsReadable rs s := fun rs => .inr fun r _ => hw r
  intro h
  cases a with
  | wr id v =>
    rcases hostWrite_cases id v s with ⟨_, e⟩ | ⟨_, _, _, e⟩ | ⟨_, _, _, _, e⟩ | ⟨_, _, _, _, e⟩
    · cases e.symm.trans h
    · cases e.symm.trans h
    · cases e.symm.trans h
    · exact ne_faulted_of_next hm e rfl h
  | rd id =>
    rcases hostRead_cases id s with ⟨_, e⟩ | ⟨r, _, hr, _⟩ | ⟨_, _, _, e⟩
    · cases e.symm.trans h
    · exact hr (hread [r])
    · exact ne_faulted_of_next hm e rfl h
  | bw a b =>
    rcases bufWrite_cases a b s with ⟨_, e⟩ | ⟨_, _, e⟩ | ⟨_, _, e⟩
    · cases e.symm.trans h
    · cases e.symm.trans h
    · exact ne_faulted_of_next hm e rfl h
  | br a =>
    rcases bufRead_cases a s with ⟨_, e⟩ | ⟨ha, hnone, _⟩ | ⟨_, _, _, e⟩
    · cases e.symm.trans h
    · exact hbyte a ha hnone
    · exact ne_faulted_of_next hm e rfl h
  | cmd op =>
    rcases issue_cases op s with ⟨i, _, e⟩ | ⟨_, _, e⟩
    · obtain ⟨hv, hl, hn⟩ := (exec_faulted_iff_of_readable hm hread i).mp (e.symm.trans h)
      unfold srcValid at hv
      exact hn fun j hj => Option.ne_none_iff_exists'.mp (hbyte _ (by omega))
    · exact ne_faulted_of_next hm e rfl h
  | reset => exact ne_faulted_of_next hm (rfl : resetBlock s = _) rfl h

/-- Settles O25: a step is one action, and none raises the fault here. -/
theorem writtenMachineNeverFaults : Obligations.WrittenMachineNeverFaults := by
  refine fun s hm hw hb => ⟨fun f h => ?_, fun t h => ?_⟩
  · rw [faultMark_of_step_fault h] at hm
    cases hm
  · obtain ⟨_, _, ⟨_, rfl⟩ | ⟨a, rest, u, _, hu, rfl⟩⟩ := step_next_cases h
    · exact hm
    · rcases perform_fault_cases hu with rfl | e
      · exact absurd hu (perform_ne_faulted_of_written hm hw hb a)
      · exact e.trans hm

/-! ### Steps and runs (rules R26, R56, R70) -/

/-- With an action pending and nothing to stop it, a step performs it. -/
theorem step_of_pending {s : State} (hp : paramsAdmitted s.params = true) (hm : s.faultMark = false) {a : HostAction}
    {rest : List HostAction} (ha : s.pending = a :: rest) : step s = performNext a rest s := by
  rw [step_eq_nextStep hp]
  simp [nextStep, hm, ha]

theorem performNext_of_next {s t : State} {a : HostAction} (h : perform a s = .next t) (rest : List HostAction) :
    performNext a rest s = .next (t.advance rest) := by
  rw [performNext, h]

/-- With nothing pending and no fault raised, a step leaves the state (log entry 7). -/
theorem step_idle {s : State} (hp : paramsAdmitted s.params = true) (hm : s.faultMark = false) (ha : s.pending = []) :
    step s = .next s := by
  rw [step_eq_nextStep hp]
  simp [nextStep, hm, ha]

theorem perform_cmd_of_ok {op : Byte} {i : Instr} (h : decode op = .ok i) (s : State) : perform (.cmd op) s = exec i s := by
  show issue op s = exec i s
  rw [issue, h]

theorem perform_cmd_of_error {op : Byte} {e : DecodeError} (h : decode op = .error e) (s : State) :
    perform (.cmd op) s = .next (s.setResult 0x06 0) := by
  show issue op s = _
  rw [issue, h]
  rfl

/-- Settles O3: a step performs the pending action, which for CMD is `exec` of the decoded word or the error of rule R73. -/
theorem stepRunsDecodedCommand : Obligations.StepRunsDecodedCommand := by
  refine ⟨fun s a rest hp hm ha => ⟨fun t h => ?_, perform_ne_fault a s, fun r h => ?_⟩, fun s op rest hp hm ha =>
    ⟨fun i hi => ?_, fun e he => ?_⟩⟩ <;> rw [step_of_pending hp hm ha]
  · exact performNext_of_next h rest
  · rw [performNext, h]
  · obtain ⟨t, ht⟩ := exec_answers i s
    exact ⟨t, ht, performNext_of_next ((perform_cmd_of_ok hi s).trans ht) rest⟩
  · exact performNext_of_next (perform_cmd_of_error he s) rest

theorem runFor_succ_of_next {s t : State} (h : step s = .next t) (n : Nat) : runFor (n + 1) s = runFor n t := by
  rw [runFor, h]

/-- A run of one step and more that answers a state has made a first step. -/
theorem runFor_succ_next {n : Nat} {s t : State} (h : runFor (n + 1) s = .next t) :
    ∃ u, step s = .next u ∧ runFor n u = .next t := by
  unfold runFor at h
  split at h
  · exact ⟨_, ‹_›, h⟩
  · cases h
  · cases h

theorem runFor_keepsBlock {n : Nat} {s t : State} (h : runFor n s = .next t) : KeepsBlock s t := by
  induction n generalizing s with
  | zero => cases h; exact .refl _
  | succ n ih =>
    obtain ⟨u, hu, hrun⟩ := runFor_succ_next h
    exact (step_keepsBlock hu).trans (ih hrun)

/-- A run of no more steps than there are actions counts them and takes them off the sequence. -/
theorem runFor_counts {n : Nat} {s t : State} (hn : n ≤ s.pending.length) (h : runFor n s = .next t) :
    t.done = s.done + n ∧ t.pending = s.pending.drop n := by
  induction n generalizing s with
  | zero => cases h; exact ⟨rfl, rfl⟩
  | succ n ih =>
    obtain ⟨u, hu, hrun⟩ := runFor_succ_next h
    obtain ⟨_, _, ⟨hnil, _⟩ | ⟨a, rest, v, ha, hv, rfl⟩⟩ := step_next_cases hu
    · simp [hnil] at hn
    · obtain ⟨_, _, hdone⟩ := perform_keeps hv
      rw [ha] at hn ⊢
      obtain ⟨hd, hrest⟩ := ih (by simpa using hn) hrun
      exact ⟨by rw [hd, State.advance_done, hdone]; omega, hrest⟩

theorem runFor_add {n : Nat} (m : Nat) {s t : State} (h : runFor n s = .next t) : runFor (n + m) s = runFor m t := by
  induction n generalizing s with
  | zero => cases h; rw [Nat.zero_add]
  | succ n ih =>
    obtain ⟨u, hu, hrun⟩ := runFor_succ_next h
    rw [Nat.succ_add, runFor_succ_of_next hu, ih hrun]

theorem runFor_idle {s : State} (h : step s = .next s) (n : Nat) : runFor n s = .next s := by
  induction n with
  | zero => rfl
  | succ n ih => rw [runFor_succ_of_next h, ih]

/-- Settles O6: the count by induction on the run, and after the last action every step is idle. -/
theorem counterAdvancesPerAction : Obligations.CounterAdvancesPerAction := by
  refine ⟨fun s prog m t hm h => ?_, fun s prog m t hp h hmark => ?_⟩
  · obtain ⟨hd, hrest⟩ := runFor_counts (s := s.load prog) hm h
    exact ⟨hd.trans (Nat.zero_add m), hrest⟩
  · obtain ⟨_, hrest⟩ := runFor_counts (s := s.load prog) le_rfl h
    have hnil : t.pending = [] := hrest.trans (List.drop_length (l := prog))
    have hparams : t.params = s.params := (runFor_keepsBlock h).params
    rw [runFor_add m h, runFor_idle (step_idle (hparams ▸ hp) hmark hnil)]

/-! ### Runs from reset (rules R31, R35, R211, R230) -/

@[simp] theorem State.load_params (s : State) (prog : List HostAction) : (s.load prog).params = s.params := rfl
@[simp] theorem State.load_faultMark (s : State) (prog : List HostAction) : (s.load prog).faultMark = s.faultMark := rfl
@[simp] theorem State.load_replies (s : State) (prog : List HostAction) : (s.load prog).replies = s.replies := rfl
@[simp] theorem State.load_val (s : State) (prog : List HostAction) (r : RegName) : (s.load prog).val r = s.val r := rfl
@[simp] theorem State.load_isWritten (s : State) (prog : List HostAction) (r : RegName) :
    (s.load prog).isWritten r = s.isWritten r := rfl

/-- The last action RD of a register that may be read returns its value, without a fault. -/
theorem runFor_last_rd {s : State} (hp : paramsAdmitted s.params = true) (hm : s.faultMark = false) {r : RegName}
    (hpending : s.pending = [.rd (regId r)]) (hr : regsReadable [r] s) :
    ∃ t, runFor 1 s = .next t ∧ t.faultMark = false ∧ t.replies = .reg r (s.val r) :: s.replies := by
  have hread := (perform_rd_regId r s).trans (reading_of_readable hr)
  have hstep := (step_of_pending hp hm hpending).trans (performNext_of_next hread [])
  exact ⟨_, runFor_succ_of_next hstep 0, hm, rfl⟩

section FromReset
variable {p : Params} (hp : paramsAdmitted p = true)
include hp

/-- The first step from reset performs the program's first action. -/
theorem step_load_reset {a : HostAction} {rest : List HostAction} {t : State}
    (h : perform a ((State.resetWith p).load (a :: rest)) = .next t) :
    step ((State.resetWith p).load (a :: rest)) = .next (t.advance rest) :=
  (step_of_pending hp rfl rfl).trans (performNext_of_next h rest)

/-- A first action that raises the fault has ended the run. -/
theorem runFor_load_reset_faulted {a : HostAction} {rest : List HostAction}
    (h : perform a ((State.resetWith p).load (a :: rest)) = .next ((State.resetWith p).load (a :: rest)).faulted) (n : Nat) :
    runFor (n + 2) ((State.resetWith p).load (a :: rest)) = .fault .uninitRead := by
  rw [runFor_succ_of_next (step_load_reset hp h)]
  exact runFor_of_faultMark hp rfl n

end FromReset

theorem decode_encode (i : Instr) : decode (encode i) = .ok i := by
  cases i <;> rfl

/-- After reset, no list of registers with a region register in it may be read under rule R35's fault. -/
theorem not_regsReadable_load_reset {p : Params} (hu : p.unwrittenRead = .raises) {r : RegName}
    (hr : ¬ (r = .status ∨ r = .resLen)) {rs : List RegName} (hm : r ∈ rs) (prog : List HostAction) :
    ¬ regsReadable rs ((State.resetWith p).load prog) := by
  rw [regsReadable_of_raises hu]
  intro h
  have := h r hm
  rw [State.load_isWritten, resetWith_isWritten hr] at this
  cases this

/-- After reset, every command but HDR_INIT reads an unwritten region register. -/
theorem exec_load_reset_faulted {p : Params} (hu : p.unwrittenRead = .raises) {i : Instr} (hi : i ≠ .hdrInit)
    (prog : List HostAction) :
    exec i ((State.resetWith p).load prog) = .next ((State.resetWith p).load prog).faulted := by
  have hdst := not_regsReadable_load_reset hu (r := .dstOff) (rs := [.dstOff, .dstLen]) (by decide) (by simp) prog
  have hsrc := not_regsReadable_load_reset hu (r := .srcOff) (rs := [.srcOff, .srcLen]) (by decide) (by simp) prog
  cases i with
  | hdrInit => exact absurd rfl hi
  | hdrEncode => exact (execHdrEncode_faulted_iff rfl).mpr (.inl hdst)
  | hdrDecode => exact (execHdrDecode_faulted_iff rfl).mpr (.inl hsrc)
  | tsEncode => exact (tsEncodeWith_faulted_iff rfl _).mpr (.inl hdst)
  | tsDecode => exact (execTsDecode_faulted_iff rfl).mpr (.inl hsrc)
  | frameBuild => exact (frameBuildWith_faulted_iff rfl _ _).mpr (.inl hdst)

/-- Settles O56: from reset only STATUS and RES_LEN are written, so the first action raises the fault or reads 0; a written
register may be read. -/
theorem unwrittenReadEndsRunFromReset : Obligations.UnwrittenReadEndsRunFromReset := by
  intro p hp hu
  refine ⟨fun r rest n hs hl => ?_, fun i rest n hi => ?_, fun r hr => ?_, fun r v hs hl hv => ?_⟩
  · refine runFor_load_reset_faulted hp ?_ n
    rw [perform_rd_regId, reading_of_not_readable]
    exact not_regsReadable_load_reset hu (by tauto) (List.mem_singleton_self r) _
  · refine runFor_load_reset_faulted hp ?_ n
    rw [perform_cmd_of_ok (decode_encode i), exec_load_reset_faulted hu hi]
  · have hread := runFor_last_rd (s := (State.resetWith p).load [.rd (regId r)]) hp rfl rfl
      (regsReadable_singleton.mpr (.inr (resetWith_isWritten_result hr p)))
    simpa [resetWith_val] using hread
  · have hwrite := step_load_reset (rest := [.rd (regId r)]) hp (perform_wr_regId (by tauto) hv _)
    have hread := runFor_last_rd
      (s := (((State.resetWith p).load [.wr (regId r) v, .rd (regId r)]).writeReg r v).advance [.rd (regId r)]) hp rfl rfl
      (regsReadable_singleton.mpr (.inr (by simp)))
    rw [runFor_succ_of_next hwrite]
    simpa [Nat.mod_eq_of_lt hv] using hread

/-- Where every register may be read, no command word raises the fault as the first action from reset: SRC_LEN holds 0, so no
decode reads a byte. -/
theorem perform_cmd_load_reset {p : Params} (hu : p.unwrittenRead = .holds) (op : Byte) (prog : List HostAction) :
    ∃ t, perform (.cmd op) ((State.resetWith p).load prog) = .next t ∧ t.faultMark = false := by
  cases hd : decode op with
  | error e => exact ⟨_, perform_cmd_of_error hd _, rfl⟩
  | ok i =>
    obtain ⟨t, ht⟩ := exec_answers i ((State.resetWith p).load prog)
    refine ⟨t, (perform_cmd_of_ok hd _).trans ht, ?_⟩
    rcases exec_fault_cases ht with rfl | hm
    · obtain ⟨_, hl, hn⟩ := (exec_faulted_iff_of_readable rfl (fun _ => regsReadable_of_holds hu) i).mp ht
      rw [State.load_val, resetWith_val] at hl
      exact absurd (fun j hj => absurd hj (by omega)) hn
    · exact hm

/-- Settles O57: every register may be read and holds 0, and no command word raises the fault. -/
theorem hostMachineGoesOnFromReset : Obligations.HostMachineGoesOnFromReset := by
  refine fun p hp hu => ⟨fun r => ?_, fun op => ?_⟩
  · have hread := runFor_last_rd (s := (State.resetWith p).load [.rd (regId r)]) hp rfl rfl (regsReadable_of_holds hu)
    simpa [resetWith_val] using hread
  · obtain ⟨t, ht, hm⟩ := perform_cmd_load_reset hu op [.cmd op]
    exact ⟨_, runFor_succ_of_next (step_load_reset hp ht) 0, hm⟩

end Sys2Proof.Machine

/-! # Proofs: BUF (spec/20_memory.md)

MemRead and MemWrite over the big-endian bytes, the host's BW and BR, and the check of a command's region. -/

namespace Sys2Proof.Machine

/-! ### Mixed-width views (rule R54) -/

/-- A field of `m + n` bytes is its high `m` bytes followed by its low `n` bytes. -/
theorem be_add (m n v : Nat) : be (m + n) v = be m (v / 256 ^ n) ++ be n (v % 256 ^ n) := by
  have hlow : v % 256 ^ n < 256 ^ n := Nat.mod_lt _ (by positivity)
  rw [← be_append m n _ _ hlow, Nat.div_add_mod']

/-- Settles O38: both fields are cut before their low four bytes. -/
theorem mixedWidthViews : Obligations.MixedWidthViews := by
  have hpow : 256 ^ 4 = 2 ^ 32 := by norm_num
  refine ⟨fun s n h => ?_, fun v _ => ?_⟩
  · have hhigh : bits 47 32 s = s / 2 ^ 32 := Nat.mod_eq_of_lt (by omega)
    have hlow : bits 31 0 s = s % 2 ^ 32 := by simp [bits]
    rw [encTs, hhigh, hlow, be_add 2 4 s, hpow]
  · rw [be_add 4 4 v, hpow]

/-! ### MemRead and MemWrite (rules R9, R53) -/

theorem State.byte_storeBytes_inside (s : State) (a : Nat) (bs : List Byte) {i : Nat} (h : i < bs.length) :
    (s.storeBytes a bs).byte (a + i) = some bs[i] :=
  Memory.read_writeBytes_inside s.buf a bs h

theorem State.byte_storeBytes_outside (s : State) {a c : Nat} (bs : List Byte) (h : c < a ∨ a + bs.length ≤ c) :
    (s.storeBytes a bs).byte c = s.byte c :=
  Memory.read_writeBytes_outside s.buf bs h

theorem State.memRead_storeBytes (s : State) (a : Nat) (bs : List Byte) :
    (s.storeBytes a bs).memRead a bs.length = some (fromBE bs) := by
  rw [State.memRead, State.storeBytes_buf, Memory.readBytes_writeBytes, Option.map_some]

theorem State.memRead_eq_none_iff {s : State} {a n : Nat} : s.memRead a n = none ↔ ¬ bytesReady a n s := by
  rw [← readBytes_isSome_iff, State.memRead, Option.map_eq_none_iff, Option.eq_none_iff_forall_ne_some, not_exists]

theorem not_bytesReady_iff {s : State} {a n : Nat} : ¬ bytesReady a n s ↔ ∃ i, i < n ∧ s.byte (a + i) = none := by
  simp only [bytesReady, ← Option.ne_none_iff_exists', not_forall, not_not, exists_prop]

/-- Settles O37: MemWrite stores the bytes of `be`, so each clause is a law of storing bytes with a law of `be`. -/
theorem memReadAfterMemWrite : Obligations.MemReadAfterMemWrite := by
  refine ⟨fun s a n v h => ?_, fun s a n v i hi => ?_, fun s a n v c hc => ?_, fun s a n => ?_⟩
  · have hread := s.memRead_storeBytes a (be n v)
    rwa [be_length, fromBE_be_of_lt h] at hread
  · have hi' : i < (be n v).length := by rwa [be_length]
    rw [State.memWrite, State.byte_storeBytes_inside s a _ hi', ← be_getElem_toNat hi', BitVec.ofNat_toNat,
      BitVec.setWidth_eq]
  · exact State.byte_storeBytes_outside s _ (by rwa [be_length])
  · rw [State.memRead_eq_none_iff, not_bytesReady_iff]

/-! ### BW and BR (rule R51) -/

theorem frame_storeBytes (s : State) (a : Nat) (bs : List Byte) : Frame s (s.storeBytes a bs) [] a bs.length where
  regs _ _ := rfl
  bytes _ h := State.byte_storeBytes_outside s bs h
  params := rfl
  pending := rfl
  done := rfl
  replies := rfl

section HostBuffer
variable {s : State} {a : Nat}

theorem perform_bw_of_lt {b : Nat} (ha : a < s.params.bufSize) (hb : b < 256) :
    perform (.bw a b) s = .next (s.storeBytes a [BitVec.ofNat 8 b]) := by
  change bufWrite a b s = _
  rw [bufWrite, if_neg ha.not_ge, if_neg hb.not_ge]

theorem perform_bw_refused {b : Nat} (h : s.params.bufSize ≤ a ∨ 256 ≤ b) : ∃ r, perform (.bw a b) s = .refused r := by
  rcases bufWrite_cases a b s with ⟨_, e⟩ | ⟨_, _, e⟩ | ⟨ha, hb, _⟩
  · exact ⟨_, e⟩
  · exact ⟨_, e⟩
  · omega

theorem perform_br_of_some {b : Byte} (ha : a < s.params.bufSize) (hb : s.byte a = some b) :
    perform (.br a) s = .next { s with replies := .byte a b :: s.replies } := by
  change bufRead a s = _
  rw [bufRead, if_neg ha.not_ge, hb]

theorem perform_br_of_none (ha : a < s.params.bufSize) (hb : s.byte a = none) :
    perform (.br a) s = .next s.faulted := by
  change bufRead a s = _
  rw [bufRead, if_neg ha.not_ge, hb]
  rfl

theorem perform_br_outside (ha : s.params.bufSize ≤ a) : perform (.br a) s = .refused (.addressOutsideBuf a) :=
  if_pos ha

end HostBuffer

/-- Settles O29: one equation per case of the two accesses, and the frame of the one byte that BW stores. -/
theorem hostBufferAccessRule : Obligations.HostBufferAccessRule := by
  refine ⟨fun s a b ha hb => ?_, fun s a b ha hb => ?_, fun s a => perform_br_of_none,
    fun s a b ha => ⟨perform_bw_refused (.inl ha), _, perform_br_outside ha⟩, fun s a b hb => perform_bw_refused (.inr hb)⟩
  · have hbyte := State.byte_storeBytes_inside s a [BitVec.ofNat 8 b] Nat.zero_lt_one
    exact ⟨_, perform_bw_of_lt ha hb, hbyte, frame_storeBytes s a _, rfl, rfl⟩
  · exact ⟨_, perform_br_of_some ha hb, rfl, rfl, rfl, rfl, rfl, rfl⟩

/-! ### The check of a region (rules R52, R206) -/

theorem withRegion_of_bad {off len : RegName} {s : State} {k : Region → Host.Outcome State Fault Refusal}
    (hr : regsReady [off, len] s) (hv : s.params.bufSize < s.val off + s.val len) :
    withRegion off len s k = .next (s.setResult 0x05 0) := by
  rcases withRegion_cases off len s k with ⟨hn, _⟩ | ⟨_, _, e⟩ | ⟨_, hle, _⟩
  · exact absurd (regsReadable_of_ready hr) hn
  · exact e
  · omega

theorem exec_of_bad_dst {i : Instr} (hi : i = .hdrEncode ∨ i = .tsEncode ∨ i = .frameBuild) {s : State}
    (hr : regsReady [.dstOff, .dstLen] s) (hv : s.params.bufSize < s.val .dstOff + s.val .dstLen) :
    exec i s = .next (s.setResult 0x05 0) := by
  rcases hi with rfl | rfl | rfl
  · rw [exec_hdrEncode, execHdrEncode, withRegion_of_bad hr hv]
  · rw [exec_tsEncode, tsEncodeWith, withRegion_of_bad hr hv]
  · rw [exec_frameBuild, frameBuildWith, withRegion_of_bad hr hv]

theorem exec_of_bad_src {i : Instr} (hi : i = .hdrDecode ∨ i = .tsDecode) {s : State}
    (hr : regsReady [.srcOff, .srcLen] s) (hv : s.params.bufSize < s.val .srcOff + s.val .srcLen) :
    exec i s = .next (s.setResult 0x05 0) := by
  rcases hi with rfl | rfl
  · rw [exec_hdrDecode, execHdrDecode, withRegion_of_bad hr hv]
  · rw [exec_tsDecode, execTsDecode, withRegion_of_bad hr hv]

/-- An error set on the unchanged state, as the result of a command. -/
theorem error_result_and_frame {x : Host.Outcome State Fault Refusal} {s : State} {c : Byte}
    (e : x = .next (s.setResult c 0)) :
    ∃ t, x = .next t ∧ Result t c.toNat 0 ∧ Frame s t [.status, .resLen] 0 0 ∧ t.draws = s.draws ∧
      t.faultMark = s.faultMark :=
  ⟨_, e, State.setResult_result s c 0 (by decide), frame_setResult s c 0 0 0, rfl, rfl⟩

/-- The code that is set last is the STATUS of the state answered. -/
theorem code_eq_status {x : Host.Outcome State Fault Refusal} {u t : State} {c : Byte} {n : Nat}
    (e : x = .next (u.setResult c n)) (h : x = .next t) : c.toNat = t.val .status := by
  rw [← next_unique e h, State.setResult_val_status]

theorem ne_next_faulted {x : Host.Outcome State Fault Refusal} {s t : State} (h : x = .next t)
    (hm : t.faultMark = false) : x ≠ .next s.faulted := by
  intro e
  rw [next_unique h e] at hm
  cases hm

theorem pickedError_code_ne_badRegion (pick : Bool) : (pickedError pick).code.toNat ≠ 0x05 := by
  cases pick <;> decide

section BadRegion
variable {s t : State} (hm : t.faultMark = false) (h5 : t.val .status = 0x05)
include hm h5

theorem hdrEncode_badRegion (h : execHdrEncode s = .next t) : s.params.bufSize < s.val .dstOff + s.val .dstLen := by
  rcases execHdrEncode_cases s with ⟨e, _⟩ | ⟨_, _, hv⟩ | ⟨e, _⟩ | ⟨e, _⟩
  · exact absurd e (ne_next_faulted h hm)
  · exact hv
  · exact absurd ((code_eq_status e h).trans h5) (by decide)
  · exact absurd ((code_eq_status e h).trans h5) (by decide)

theorem hdrDecode_badRegion (h : execHdrDecode s = .next t) : s.params.bufSize < s.val .srcOff + s.val .srcLen := by
  rcases execHdrDecode_cases s with ⟨e, _⟩ | ⟨_, _, hv⟩ | ⟨e, _⟩ | ⟨_, e, _⟩
  · exact absurd e (ne_next_faulted h hm)
  · exact hv
  · exact absurd ((code_eq_status e h).trans h5) (by decide)
  · exact absurd ((code_eq_status e h).trans h5) (by decide)

theorem tsEncodeWith_badRegion (pick : Bool) (h : tsEncodeWith pick s = .next t) :
    s.params.bufSize < s.val .dstOff + s.val .dstLen := by
  rcases tsEncodeWith_cases pick s with ⟨e, _⟩ | ⟨_, _, hv⟩ | ⟨e, _⟩ | ⟨e, _⟩ | ⟨e, _⟩ | ⟨e, _⟩
  · exact absurd e (ne_next_faulted h hm)
  · exact hv
  · exact absurd ((code_eq_status e h).trans h5) (pickedError_code_ne_badRegion pick)
  · exact absurd ((code_eq_status e h).trans h5) (by decide)
  · exact absurd ((code_eq_status e h).trans h5) (by decide)
  · exact absurd ((code_eq_status e h).trans h5) (by decide)

theorem tsDecode_badRegion (h : execTsDecode s = .next t) : s.params.bufSize < s.val .srcOff + s.val .srcLen := by
  rcases execTsDecode_cases s with ⟨e, _⟩ | ⟨_, _, hv⟩ | ⟨e, _⟩ | ⟨_, e, _⟩
  · exact absurd e (ne_next_faulted h hm)
  · exact hv
  · exact absurd ((code_eq_status e h).trans h5) (by decide)
  · exact absurd ((code_eq_status e h).trans h5) (by decide)

theorem frameBuildWith_badRegion (pick : Bool) (free : Nat → Byte) (h : frameBuildWith pick free s = .next t) :
    s.params.bufSize < s.val .dstOff + s.val .dstLen := by
  rcases frameBuildWith_cases pick free s with ⟨e, _⟩ | ⟨_, _, hv⟩ | ⟨k, n, e, _, _, _, hk⟩ | ⟨e, _⟩
  · exact absurd e (ne_next_faulted h hm)
  · exact hv
  · have hcode := (code_eq_status e h).trans h5
    rcases hk with ⟨_, rfl, _⟩ | ⟨_, _, _, rfl, _⟩ | ⟨_, _, _, rfl, _⟩ | ⟨_, _, rfl, _⟩
    · exact absurd hcode (by decide)
    · exact absurd hcode (pickedError_code_ne_badRegion pick)
    · exact absurd hcode (by decide)
    · exact absurd hcode (by decide)
  · exact absurd ((code_eq_status e h).trans h5) (by decide)

/-- Only a command that uses a region reports BadRegion, and only for that region. -/
theorem exec_badRegion {i : Instr} (h : exec i s = .next t) :
    ((i = .hdrEncode ∨ i = .tsEncode ∨ i = .frameBuild) ∧ s.params.bufSize < s.val .dstOff + s.val .dstLen) ∨
      ((i = .hdrDecode ∨ i = .tsDecode) ∧ s.params.bufSize < s.val .srcOff + s.val .srcLen) := by
  cases i with
  | hdrInit => exact absurd ((code_eq_status (execHdrInit_eq s) h).trans h5) (by decide)
  | hdrEncode => exact .inl ⟨.inl rfl, hdrEncode_badRegion hm h5 h⟩
  | hdrDecode => exact .inr ⟨.inl rfl, hdrDecode_badRegion hm h5 h⟩
  | tsEncode => exact .inl ⟨.inr (.inl rfl), tsEncodeWith_badRegion hm h5 _ h⟩
  | tsDecode => exact .inr ⟨.inr rfl, tsDecode_badRegion hm h5 h⟩
  | frameBuild => exact .inl ⟨.inr (.inr rfl), frameBuildWith_badRegion hm h5 _ _ h⟩

end BadRegion

/-- Settles O16: an overrunning region is all that `withRegion` looks at, and no other path of a command sets 0x05. -/
theorem badRegionComesFirst : Obligations.BadRegionComesFirst :=
  ⟨fun _ _ hi hr hv => error_result_and_frame (exec_of_bad_dst hi hr hv),
    fun _ _ hi hr hv => error_result_and_frame (exec_of_bad_src hi hr hv), fun _ _ _ h hm h5 => exec_badRegion hm h5 h⟩

end Sys2Proof.Machine

/-! # Proofs: the encoding (spec/30_encoding.md)

The command map and its inverse, then the encodings. A command that encodes stores a list of big-endian fields one after another;
`fieldsAt_of_readBytes` reads each field back from its offset, once for the header, the timestamp and the frame. -/

namespace Sys2Proof.Machine

/-! ### The command map (rules R70 to R74) -/

/-- The command codes are 0x01 to 0x06 (rule R72). -/
theorem exists_encode_eq_iff {op : Byte} : (∃ i, encode i = op) ↔ 1 ≤ op.toNat ∧ op.toNat ≤ 6 := by
  constructor
  · rintro ⟨i, rfl⟩
    cases i <;> decide
  · rintro ⟨hlo, hhi⟩
    have hcode : ∀ i, op.toNat = (encode i).toNat → ∃ i, encode i = op := fun i h => ⟨i, (BitVec.eq_of_toNat_eq h).symm⟩
    interval_cases h : op.toNat
    · exact hcode .hdrInit rfl
    · exact hcode .hdrEncode rfl
    · exact hcode .hdrDecode rfl
    · exact hcode .tsEncode rfl
    · exact hcode .tsDecode rfl
    · exact hcode .frameBuild rfl

/-- Everything `decode` can do: the command whose code it is, or the illegal command. -/
theorem decode_cases (op : Byte) :
    (∃ i, decode op = .ok i ∧ encode i = op) ∨ decode op = .error (.illegalCommand op) := by
  unfold decode
  split_ifs with h1 h2 h3 h4 h5 h6
  · exact .inl ⟨_, rfl, h1.symm⟩
  · exact .inl ⟨_, rfl, h2.symm⟩
  · exact .inl ⟨_, rfl, h3.symm⟩
  · exact .inl ⟨_, rfl, h4.symm⟩
  · exact .inl ⟨_, rfl, h5.symm⟩
  · exact .inl ⟨_, rfl, h6.symm⟩
  · exact .inr rfl

theorem encode_of_decode {op : Byte} {i : Instr} (h : decode op = .ok i) : encode i = op := by
  rcases decode_cases op with ⟨k, hk, rfl⟩ | he
  · cases hk.symm.trans h
    rfl
  · cases he.symm.trans h

/-- Every code outside the command map is illegal (rule R73). -/
theorem decode_of_illegal {op : Byte} (h : op.toNat = 0 ∨ 7 ≤ op.toNat) : decode op = .error (.illegalCommand op) := by
  rcases decode_cases op with ⟨i, _, hi⟩ | he
  · have := exists_encode_eq_iff.mp ⟨i, hi⟩
    omega
  · exact he

theorem decodeBytes_eq_ok_iff {bytes : List Byte} {i : Instr} : decodeBytes bytes = .ok i ↔ bytes = encodeBytes i := by
  constructor
  · intro h
    match bytes with
    | [op] => rw [encodeBytes, encode_of_decode h]
    | [] | _ :: _ :: _ => cases h
  · rintro rfl
    exact decode_encode i

/-- Settles O8: such a code decodes to no command, and IllegalCommand is raised on the unchanged state. -/
theorem illegalCodesOnlyReport : Obligations.IllegalCodesOnlyReport :=
  fun s _ h => error_result_and_frame (perform_cmd_of_error (decode_of_illegal h) s)

/-- Settles O1: the six rows by evaluation, the other codes because they encode no command. -/
theorem commandMapIsTotal : Obligations.CommandMapIsTotal := by
  refine ⟨rfl, rfl, rfl, rfl, rfl, rfl, fun op => ⟨decode_of_illegal, fun h => ?_⟩⟩
  obtain ⟨i, rfl⟩ := exists_encode_eq_iff.mpr h
  exact ⟨i, decode_encode i, rfl⟩

/-- Settles O2: `decodeBytes` and `encodeBytes` are inverse to each other. -/
theorem encodeThenDecode : Obligations.EncodeThenDecode :=
  fun _ => ⟨rfl, decodeBytes_eq_ok_iff.mpr rfl, fun _ => decodeBytes_eq_ok_iff.mp⟩

/-! ### A layout as a list of fields -/

/-- Big-endian fields, each a size in bytes and a value, one after another. -/
def fieldBytes (fs : List (Nat × Nat)) : List Byte := fs.flatMap fun f => be f.1 f.2

/-- From address `a` on, BUF holds these fields, one after another. -/
def FieldsAt (t : State) : Nat → List (Nat × Nat) → Prop
  | _, [] => True
  | a, (n, v) :: fs => t.memRead a n = some v ∧ FieldsAt t (a + n) fs

theorem fieldBytes_append (fs gs : List (Nat × Nat)) : fieldBytes (fs ++ gs) = fieldBytes fs ++ fieldBytes gs :=
  List.flatMap_append

theorem fieldsAt_of_readBytes {t : State} {fs : List (Nat × Nat)} (hfit : ∀ f ∈ fs, f.2 < 256 ^ f.1) {a : Nat}
    (h : t.buf.readBytes a (fieldBytes fs).length = some (fieldBytes fs)) : FieldsAt t a fs := by
  induction fs generalizing a with
  | nil => trivial
  | cons f fs ih =>
    obtain ⟨n, v⟩ := f
    obtain ⟨hv, hfit⟩ := List.forall_mem_cons.mp hfit
    have hbytes : fieldBytes ((n, v) :: fs) = be n v ++ fieldBytes fs := rfl
    have hsize : (fieldBytes ((n, v) :: fs)).length = n + (fieldBytes fs).length := by simp [hbytes]
    have hhead := memRead_slice h (o := 0) (n := n) (by omega)
    have htail := Memory.readBytes_slice h (o := n) (n := (fieldBytes fs).length) (by omega)
    constructor
    · have hfirst : slice 0 n (be n v ++ fieldBytes fs) = be n v := by simp [slice]
      rwa [hbytes, hfirst, fromBE_be_of_lt hv] at hhead
    · have hrest : slice n (fieldBytes fs).length (be n v ++ fieldBytes fs) = fieldBytes fs := by simp [slice]
      rw [hbytes, hrest] at htail
      exact ih hfit htail

/-- What a command that stores a layout and ends with success leaves. -/
theorem stored_layout {x : Host.Outcome State Fault Refusal} {s : State} {a n : Nat} {fs : List (Nat × Nat)}
    (e : x = .next ((s.storeBytes a (fieldBytes fs)).setResult 0x00 n)) (hlen : (fieldBytes fs).length = n)
    (hn : n < 2 ^ 16) (hfit : ∀ f ∈ fs, f.2 < 256 ^ f.1) :
    ∃ t, x = .next t ∧ Result t 0x00 n ∧ Frame s t [.status, .resLen] a n ∧ t.draws = s.draws ∧
      t.faultMark = s.faultMark ∧ FieldsAt t a fs := by
  have hframe := frame_storeBytes_setResult s 0x00 n a (fieldBytes fs)
  rw [hlen] at hframe
  exact ⟨_, e, State.setResult_result _ _ _ hn, hframe, rfl, rfl,
    fieldsAt_of_readBytes hfit (Memory.readBytes_writeBytes s.buf a _)⟩

/-! ### The layouts of rules R78 to R81 -/

theorem State.val_lt (s : State) (r : RegName) : s.val r < 256 ^ (r.width / 8) := by
  have hwidth : 2 ^ r.width = 256 ^ (r.width / 8) := by cases r <;> norm_num
  exact hwidth ▸ (s.reg r).val.isLt

/-- The header's fields (rule R78), a reserved one 0 where the encoding does not read its register (rule R106). -/
def headerFields (s : State) : List (Nat × Nat) :=
  headerRegs.map fun r => (r.width / 8, if r ∈ encodedRegs s.params.reservedOnEncode then s.val r else 0)

theorem fieldBytes_headerFields (s : State) :
    fieldBytes (headerFields s) = encHdr s.params.reservedOnEncode s.header := by
  rw [encHdr_header, fieldBytes, headerFields, List.flatMap_map]

theorem headerFields_fit (s : State) : ∀ f ∈ headerFields s, f.2 < 256 ^ f.1 := by
  intro f hf
  obtain ⟨r, _, rfl⟩ := List.mem_map.mp hf
  dsimp only
  split
  · exact s.val_lt r
  · positivity

/-- The timestamp's fields (rule R79). -/
def tsFields (sec nsec : Nat) : List (Nat × Nat) := [(2, sec / 2 ^ 32), (4, sec % 2 ^ 32), (4, nsec)]

theorem fieldBytes_tsFields {sec : Nat} (nsec : Nat) (h : sec < 2 ^ 48) :
    fieldBytes (tsFields sec nsec) = encTs sec nsec := by
  rw [mixedWidthViews.1 sec nsec h, be_add 2 4]
  simp [fieldBytes, tsFields]

theorem tsFields_fit {sec nsec : Nat} (hs : sec < 2 ^ 48) (hn : nsec < 2 ^ 32) :
    ∀ f ∈ tsFields sec nsec, f.2 < 256 ^ f.1 := by
  simp only [tsFields, List.forall_mem_cons, List.not_mem_nil, false_imp_iff, implies_true, and_true]
  omega

/-- The frame's fields (rule R81): the Ethernet header of rule R80, the header and the timestamp. -/
def frameFields (s : State) : List (Nat × Nat) :=
  [(6, s.val .eDst), (6, s.val .eSrc), (2, etherType)] ++ headerFields s ++ tsFields (s.val .tSec) (s.val .tNsec)

theorem fieldBytes_frameFields {s : State} (h : s.val .tSec < 2 ^ 48) : fieldBytes (frameFields s) = frameBytes s := by
  have heth : fieldBytes [(6, s.val .eDst), (6, s.val .eSrc), (2, etherType)] =
      ethBytes (s.val .eDst) (s.val .eSrc) := by
    simp [fieldBytes, ethBytes]
  rw [frameFields, fieldBytes_append, fieldBytes_append, heth, fieldBytes_headerFields, fieldBytes_tsFields _ h,
    frameBytes]

theorem frameFields_fit {s : State} (h : s.val .tSec < 2 ^ 48) : ∀ f ∈ frameFields s, f.2 < 256 ^ f.1 := by
  rw [frameFields, List.forall_mem_append, List.forall_mem_append]
  refine ⟨⟨?_, headerFields_fit s⟩, tsFields_fit h (s.val_lt .tNsec)⟩
  simp only [List.forall_mem_cons, List.not_mem_nil, false_imp_iff, implies_true, and_true]
  exact ⟨s.val_lt .eDst, s.val_lt .eSrc, by decide⟩

/-- Settles O10: HDR_ENCODE stores the header's fields. -/
theorem hdrEncodeWritesLayout : Obligations.HdrEncodeWritesLayout := by
  intro s hr hv hl
  have hrun := hdrEncode_runs (regsReadable_of_ready hr) hv hl
  rw [← fieldBytes_headerFields] at hrun
  obtain ⟨t, ht, hres, hframe, hd, hm, hfields⟩ :=
    stored_layout hrun (by rw [fieldBytes_headerFields, encHdr_length]) (by decide) (headerFields_fit s)
  refine ⟨t, ht, hres, hframe, hd, hm, ?_⟩
  cases hp : s.params.reservedOnEncode <;>
    simpa [FieldsAt, headerFields, headerRegs, encodedRegs, RegName.width, hp, Nat.add_assoc] using hfields

/-- Settles O12: TS_ENCODE stores the timestamp's fields. -/
theorem tsEncodeWritesLayout : Obligations.TsEncodeWritesLayout := by
  intro s hr hv hl hs
  have hrun := tsEncode_runs (regsReadable_of_ready hr) hv hl hs
  rw [← fieldBytes_tsFields _ hs] at hrun
  obtain ⟨t, ht, hres, hframe, hd, hm, hhigh, hlow, hnsec, _⟩ :=
    stored_layout hrun (by rw [fieldBytes_tsFields _ hs, encTs_length]) (by decide) (tsFields_fit hs (s.val_lt .tNsec))
  exact ⟨t, ht, hres, hframe, hd, hm, hhigh, hlow, hnsec⟩

/-- FRAME_BUILD where its conditions hold. -/
theorem frameBuild_runs {s : State}
    (h : regsReadable ([.dstOff, .dstLen, .eDst, .eSrc, .tSec, .tNsec] ++ encodedRegs s.params.reservedOnEncode) s)
    (hv : dstValid s) (hl : 58 ≤ s.val .dstLen) (hs : s.val .tSec < 2 ^ 48) : exec .frameBuild s =
      .next ((s.storeBytes (s.val .dstOff) (frameBytes s)).setResult 0x00 58) := by
  have hregion : regsReadable [.dstOff, .dstLen] s := regsReadable_mono h (by simp)
  have hsec : regsReadable [.tSec] s := regsReadable_mono h (by simp)
  have hrest : regsReadable ([.eDst, .eSrc, .tNsec] ++ encodedRegs s.params.reservedOnEncode) s :=
    regsReadable_mono h (List.append_subset.mpr ⟨by simp, List.subset_append_right ..⟩)
  unfold dstValid at hv
  rw [exec_frameBuild]
  rcases frameBuildWith_cases (Config.errPick s.draws) (fun i => Config.freeByte (s.draws + i)) s with
    ⟨_, c⟩ | ⟨_, c⟩ | ⟨_, _, _, c⟩ | ⟨e, _⟩
  · rcases c with c | ⟨_, _, c | ⟨_, _, c⟩⟩
    · exact absurd hregion c
    · exact absurd hsec c
    · exact absurd hrest c
  · omega
  · omega
  · exact e

/-- Settles O14: FRAME_BUILD stores the frame's fields. -/
theorem frameBuildWritesLayout : Obligations.FrameBuildWritesLayout := by
  intro s hr hv hl hs
  have hrun := frameBuild_runs (regsReadable_of_ready hr) hv hl hs
  rw [← fieldBytes_frameFields hs] at hrun
  obtain ⟨t, ht, hres, hframe, hd, hm, hfields⟩ :=
    stored_layout hrun (by rw [fieldBytes_frameFields hs, frameBytes_length]) (by decide) (frameFields_fit hs)
  refine ⟨t, ht, hres, hframe, hd, hm, ?_⟩
  cases hp : s.params.reservedOnEncode <;>
    simpa [FieldsAt, frameFields, etherType, headerFields, headerRegs, encodedRegs, RegName.width, tsFields, hp, Nat.add_assoc]
      using hfields

/-! ### Flags and pseudo-instructions (rules R76, R82) -/

theorem Flag.mask_toNat (f : Flag) : f.mask.toNat = 2 ^ f.bit := by
  cases f <;> rfl

/-- `flagsOr` sets the bits of its flags and no other (rule R101). -/
theorem flagsOr_testBit (fs : List Flag) (i : Nat) : (flagsOr fs).toNat.testBit i = true ↔ ∃ f ∈ fs, f.bit = i := by
  induction fs with
  | nil => simp [flagsOr]
  | cons f fs ih => simp [flagsOr, Nat.testBit_or, Flag.mask_toNat, Nat.testBit_two_pow, ih]

theorem byteWrites_length (a : Nat) (bs : List Nat) : (byteWrites a bs).length = bs.length := by
  induction bs generalizing a with
  | nil => rfl
  | cons b bs ih => simp [byteWrites, ih]

theorem byteWrites_getElem? (a : Nat) (bs : List Nat) {i : Nat} (h : i < bs.length) :
    (byteWrites a bs)[i]? = some (.bw (a + i) bs[i]) := by
  induction bs generalizing a i with
  | nil => simp at h
  | cons b bs ih =>
    cases i with
    | zero => rfl
    | succ i =>
      have hi : i < bs.length := Nat.lt_of_succ_lt_succ h
      rw [byteWrites, List.getElem?_cons_succ, ih (a + 1) hi, Nat.add_right_comm, List.getElem_cons_succ, Nat.add_assoc]

/-- Settles O40: the writes of bws by induction on the bytes, the bits of wrflags by induction on the flags. -/
theorem pseudoInstructionsExpand : Obligations.PseudoInstructionsExpand :=
  ⟨fun a bs => ⟨_, rfl, byteWrites_length a bs, fun _ h => byteWrites_getElem? a bs h⟩, fun _ _ => ⟨rfl, rfl⟩,
    fun fs => ⟨_, rfl, (flagsOr fs).isLt, flagsOr_testBit fs⟩⟩

/-- A byte of a field that MemRead gives (rule R8). -/
theorem State.byte_of_memRead {s : State} {a n v i : Nat} (h : s.memRead a n = some v) (hi : i < n) :
    s.byte (a + i) = some (BitVec.ofNat 8 (bits (8 * (n - 1 - i) + 7) (8 * (n - 1 - i)) v)) := by
  obtain ⟨bs, hbs, rfl⟩ := Option.map_eq_some_iff.mp h
  obtain ⟨rfl, hread⟩ := Memory.readBytes_eq_some.mp hbs
  have hfield := be_getElem_toNat (v := fromBE bs) (by rwa [be_length])
  simp only [be_fromBE] at hfield
  rw [State.byte, hread i hi, ← hfield, BitVec.ofNat_toNat, BitVec.setWidth_eq]

/-- Bit `j` of the byte that is the field `v[lo+7:lo]` (rule R7). -/
theorem getLsbD_ofNat_bits (v lo : Nat) {j : Nat} (hj : j < 8) :
    (BitVec.ofNat 8 (bits (lo + 7) lo v)).getLsbD j = v.testBit (lo + j) := by
  have hsize : lo + 7 - lo + 1 = 8 := by omega
  rw [BitVec.getLsbD_ofNat, bits, hsize, Nat.testBit_mod_two_pow, Nat.testBit_div_two_pow]
  simp [hj, Nat.add_comm]

/-- A byte masked with one bit is nonzero exactly if that bit is set. -/
theorem and_twoPow_ne_zero_iff (b : Byte) {i : Nat} (hi : i < 8) : b &&& BitVec.twoPow 8 i ≠ 0 ↔ b.getLsbD i = true := by
  have hbit : BitVec.twoPow 8 i ≠ 0 := by
    intro h
    have := congrArg (BitVec.getLsbD · i) h
    simp [hi] at this
  rw [BitVec.and_twoPow]
  split
  · next hb => simpa [hb] using hbit
  · next hb => simp [hb]

theorem hdrEncode_stores_flags {s t : State} (h : Succeeds .hdrEncode s t) :
    t.memRead (s.val .dstOff + 6) 2 = some (s.val .hFlags) := by
  obtain ⟨rfl, _⟩ := hdrEncode_success h
  rw [memRead_stored _ _ _ _ _ (by simp), slice_encHdr_flags]
  exact congrArg some (fromBE_be_of_lt (s.val_lt .hFlags))

/-- Settles O41: header bytes 6 and 7 are the fields 15:8 and 7:0 of H_FLAGS, and a mask asks for one of their bits. -/
theorem flagBitsOnTheWire : Obligations.FlagBitsOnTheWire := by
  intro s t h
  have hread := hdrEncode_stores_flags h
  have h6 : t.byte (s.val .dstOff + 6) = some (BitVec.ofNat 8 (bits (8 + 7) 8 (s.val .hFlags))) :=
    State.byte_of_memRead hread (i := 0) (by decide)
  have h7 : t.byte (s.val .dstOff + 7) = some (BitVec.ofNat 8 (bits (0 + 7) 0 (s.val .hFlags))) :=
    State.byte_of_memRead hread (i := 1) (by decide)
  refine ⟨_, _, h6, h7, fun j hj => ⟨getLsbD_ofNat_bits _ 8 hj, ?_⟩, ?_, ?_, ?_, rfl, rfl, rfl⟩
  · rw [getLsbD_ofNat_bits _ 0 hj, Nat.zero_add]
  · rw [← getLsbD_ofNat_bits (s.val .hFlags) 8 (j := 1) (by decide)]
    exact and_twoPow_ne_zero_iff _ (i := 1) (by decide)
  · rw [← getLsbD_ofNat_bits (s.val .hFlags) 8 (j := 2) (by decide)]
    exact and_twoPow_ne_zero_iff _ (i := 2) (by decide)
  · rw [← getLsbD_ofNat_bits (s.val .hFlags) 0 (j := 3) (by decide)]
    exact and_twoPow_ne_zero_iff _ (i := 3) (by decide)

end Sys2Proof.Machine

/-! # Proofs: the header codec (spec/41_header_codec.md)

Encoding and decoding are inverse field by field, and the twelve fields are consecutive slices of the 34 bytes. The commands
follow from what `hdrEncode_success`, `hdrEncode_runs` and `hdrDecode_runs` say of them: HDR_DECODE reads the fields because
encoding what it decoded gives its bytes back. -/

namespace Sys2Proof.Machine

/-! ### The round trip (rules R106, R107, R110) -/

theorem two_pow_eq_of_bytes {n w : Nat} (hw : w = 8 * n) : 2 ^ w = 256 ^ n := by
  rw [hw, pow_mul]
  norm_num

/-- A register's value, encoded in its bytes and decoded. -/
theorem ofNat_fromBE_be {n w : Nat} (hw : w = 8 * n) (v : BitVec w) : BitVec.ofNat w (fromBE (be n v.toNat)) = v := by
  have hlt : v.toNat < 256 ^ n := two_pow_eq_of_bytes hw ▸ v.isLt
  rw [fromBE_be_of_lt hlt, BitVec.ofNat_toNat, BitVec.setWidth_eq]

theorem toNat_ofNat_fromBE {bs : List Byte} {w : Nat} (hw : w = 8 * bs.length) :
    (BitVec.ofNat w (fromBE bs)).toNat = fromBE bs := by
  have hlt : fromBE bs < 2 ^ w := two_pow_eq_of_bytes hw ▸ fromBE_lt bs
  rw [BitVec.toNat_ofNat, Nat.mod_eq_of_lt hlt]

/-- A field of `n` bytes, decoded and encoded. -/
theorem be_ofNat_fromBE_slice {o n w : Nat} {bs : List Byte} (hw : w = 8 * n) (h : o + n ≤ bs.length) :
    be n (BitVec.ofNat w (fromBE (slice o n bs))).toNat = slice o n bs := by
  have hlen := slice_length o n bs h
  have hbe := be_fromBE (slice o n bs)
  rw [hlen] at hbe
  rw [toNat_ofNat_fromBE (by rw [hlen, hw]), hbe]

theorem slice_append_slice {o m p : Nat} (n : Nat) (bs : List Byte) (hp : p = o + m) :
    slice o m bs ++ slice p n bs = slice o (m + n) bs := by
  rw [hp, slice, slice, slice, List.take_add, List.drop_drop]

theorem decHdr_encHdr_verbatim (h : Header) : decHdr (encHdr .verbatim h) = h := by
  simp only [decHdr, slice_encHdr_msgType, slice_encHdr_version, slice_encHdr_msgLen, slice_encHdr_domain, slice_encHdr_rsv1,
    slice_encHdr_flags, slice_encHdr_corr, slice_encHdr_rsv2, slice_encHdr_spi, slice_encHdr_seqId, slice_encHdr_ctrl,
    slice_encHdr_logInt, reservedValue, ofNat_fromBE_be]

theorem encHdr_verbatim_decHdr {b : List Byte} (hb : b.length = 34) : encHdr .verbatim (decHdr b) = b := by
  have hfield {o n w : Nat} (hw : w = 8 * n) (h : o + n ≤ 34) :
      be n (BitVec.ofNat w (fromBE (slice o n b))).toNat = slice o n b := be_ofNat_fromBE_slice hw (hb.symm ▸ h)
  have hwhole : slice 0 34 b = b := by simp [slice, ← hb]
  simp only [encHdr, decHdr, reservedValue, hfield, slice_append_slice, Nat.reduceMul, Nat.reduceAdd, Nat.reduceLeDiff, hwhole]

/-- ForceZero encodes a header as if its reserved fields were 0. -/
theorem encHdr_forceZero (h : Header) : encHdr .forceZero h = encHdr .verbatim { h with rsv1 := 0, rsv2 := 0 } := rfl

/-- A valid header (rule R110) is encoded alike under both policies. -/
theorem encHdr_of_valid {p : ReservedOnEncode} {h : Header} (hv : p = .verbatim ∨ h.rsv1 = 0 ∧ h.rsv2 = 0) :
    encHdr p h = encHdr .verbatim h := by
  cases p with
  | verbatim => rfl
  | forceZero =>
    obtain ⟨h1, h2⟩ := hv.resolve_left (by decide)
    rw [encHdr_forceZero, ← h1, ← h2]

theorem decHdr_encHdr {p : ReservedOnEncode} {h : Header} (hv : p = .verbatim ∨ h.rsv1 = 0 ∧ h.rsv2 = 0) :
    decHdr (encHdr p h) = h := by
  rw [encHdr_of_valid hv, decHdr_encHdr_verbatim]

/-- Under ForceZero 34 bytes come back exactly if they decode to a valid header. -/
theorem encHdr_forceZero_decHdr_iff {b : List Byte} (hb : b.length = 34) :
    encHdr .forceZero (decHdr b) = b ↔ (decHdr b).rsv1 = 0 ∧ (decHdr b).rsv2 = 0 := by
  constructor
  · intro h
    rw [encHdr_forceZero] at h
    rw [← h, decHdr_encHdr_verbatim]
    exact ⟨rfl, rfl⟩
  · intro h
    rw [encHdr_of_valid (.inr h), encHdr_verbatim_decHdr hb]

theorem fromBE_eq_zero_iff {bs : List Byte} : fromBE bs = 0 ↔ ∀ x ∈ bs, x = 0 := by
  induction bs with
  | nil => simp [fromBE]
  | cons x bs ih =>
    have hx : x.toNat = 0 ↔ x = 0 := ⟨fun h => BitVec.eq_of_toNat_eq h, fun h => h ▸ rfl⟩
    simp [fromBE, ih, hx]

/-- A field is 0 exactly if each of its bytes is. -/
theorem ofNat_fromBE_slice_eq_zero_iff {o n w : Nat} {bs : List Byte} (hw : w = 8 * n) (h : o + n ≤ bs.length) :
    BitVec.ofNat w (fromBE (slice o n bs)) = 0 ↔ ∀ j, o ≤ j ∧ j < o + n → bs[j]? = some 0 := by
  have hlen := slice_length o n bs h
  rw [← BitVec.toNat_inj, toNat_ofNat_fromBE (by rw [hlen, hw]), BitVec.ofNat_eq_ofNat, BitVec.toNat_zero, fromBE_eq_zero_iff,
    List.forall_mem_iff_getElem]
  constructor
  · rintro hz j ⟨hlo, hhi⟩
    have := hz (j - o) (by omega)
    simp only [slice, List.getElem_take, List.getElem_drop, Nat.add_sub_cancel' hlo] at this
    rw [List.getElem?_eq_getElem (by omega), this]
  · intro hz i hi
    have := hz (o + i) ⟨by omega, by omega⟩
    rw [List.getElem?_eq_getElem (by omega), Option.some_inj] at this
    simpa [slice] using this

/-- Settles O43: both directions are inverse field by field; under ForceZero the reserved fields have to decode to 0. -/
theorem headerRoundTrip : Obligations.HeaderRoundTrip := by
  refine ⟨fun p h => decHdr_encHdr, fun b => encHdr_verbatim_decHdr, fun b hb => ?_⟩
  have h1 : (decHdr b).rsv1 = 0 ↔ ∀ j, 5 ≤ j ∧ j < 5 + 1 → b[j]? = some 0 :=
    ofNat_fromBE_slice_eq_zero_iff rfl (by omega)
  have h2 : (decHdr b).rsv2 = 0 ↔ ∀ j, 16 ≤ j ∧ j < 16 + 4 → b[j]? = some 0 :=
    ofNat_fromBE_slice_eq_zero_iff rfl (by omega)
  rw [encHdr_forceZero_decHdr_iff hb, h1, h2, ← forall_and]
  refine forall_congr' fun j => ?_
  rw [← or_imp]
  exact imp_congr_left (by omega)

/-! ### HDR_INIT and the flag constants (rules R100 to R103) -/

/-- Settles O42: each value by evaluation. -/
theorem flagConstants : Obligations.FlagConstants :=
  ⟨fun f => by cases f <;> rfl, rfl, rfl, rfl, rfl, rfl⟩

theorem State.setHeader_val_setResult (s : State) (h : Header) (c : Byte) (n : Nat) {r : RegName} (hr : r ∈ headerRegs) :
    ((s.setHeader h).setResult c n).val r = (s.setHeader h).val r :=
  State.setResult_val_ne _ _ _ (ne_of_mem_of_not_mem hr (by decide)) (ne_of_mem_of_not_mem hr (by decide))

theorem regsReady_setHeader_setResult (s : State) (h : Header) (c : Byte) (n : Nat) :
    regsReady headerRegs ((s.setHeader h).setResult c n) :=
  fun _ hr => State.isWritten_setResult_of _ _ _ (State.setHeader_isWritten s h hr)

/-- Loading the same header with the same result a second time changes nothing. -/
theorem State.setHeader_setResult_idem (s : State) (h : Header) (c : Byte) (n : Nat) :
    (((s.setHeader h).setResult c n).setHeader h).setResult c n = (s.setHeader h).setResult c n := rfl

/-- Settles O9: HDR_INIT loads the default header whatever the state is, so the second one loads it again. -/
theorem hdrInitLoadsDefaults : Obligations.HdrInitLoadsDefaults := by
  intro s
  have hrun : ∀ u, exec .hdrInit u = .next ((u.setHeader defaultHeader).setResult 0x00 0) := execHdrInit_eq
  have hzero : ∀ r ∈ headerRegs, r ≠ .hMsgType → r ≠ .hVersion → r ≠ .hMsgLen → r ≠ .hFlags →
      ((State.reset.setHeader defaultHeader).reg r).val.toNat = 0 := by decide
  refine ⟨_, hrun s, State.setResult_result _ _ _ (by decide), regsReady_setHeader_setResult _ _ _ _, rfl, rfl, rfl, rfl,
    fun r hr h1 h2 h3 h4 => ?_, frame_setHeader_setResult .., rfl, rfl, ?_⟩
  · rw [State.setHeader_val_setResult _ _ _ _ hr, State.val, State.setHeader_reg_mem s State.reset _ hr]
    exact hzero r hr h1 h2 h3 h4
  · rw [hrun, State.setHeader_setResult_idem]

/-! ### HDR_DECODE (rules R105, R107, R108) -/

/-- The header registers as fields of rule R78, reserved ones too. -/
def heldFields (s : State) : List (Nat × Nat) := headerRegs.map fun r => (r.width / 8, s.val r)

theorem fieldBytes_heldFields (s : State) : fieldBytes (heldFields s) = encHdr .verbatim s.header := rfl

theorem heldFields_fit (s : State) : ∀ f ∈ heldFields s, f.2 < 256 ^ f.1 := by
  intro f hf
  obtain ⟨r, _, rfl⟩ := List.mem_map.mp hf
  exact s.val_lt r

/-- Encoding what was decoded gives the bytes back, so they are the fields of the registers that hold it. -/
theorem fieldsAt_of_decoded {s t : State} {a : Nat} {bs : List Byte} (hb : s.buf.readBytes a 34 = some bs)
    (ht : t.header = decHdr bs) : FieldsAt s a (heldFields t) := by
  obtain ⟨hlen, -⟩ := Memory.readBytes_eq_some.mp hb
  have hbytes : fieldBytes (heldFields t) = bs := by
    rw [fieldBytes_heldFields, ht, encHdr_verbatim_decHdr hlen]
  exact fieldsAt_of_readBytes (heldFields_fit t) (by rw [hbytes, hlen, hb])

/-- Settles O11: the 34 bytes are the fields of the registers HDR_DECODE loads. -/
theorem hdrDecodeReadsLayout : Obligations.HdrDecodeReadsLayout := by
  intro s hr hv hl hb
  obtain ⟨bs, hbs⟩ := readBytes_isSome_iff.mpr hb
  obtain ⟨h0, h1, h2, h4, h5, h6, h8, h16, h20, h30, h32, h33, -⟩ :=
    fieldsAt_of_decoded (t := (s.setHeader (decHdr bs)).setResult 0x00 34) hbs (State.setResult_header ..)
  exact ⟨_, hdrDecode_runs (regsReadable_of_ready hr) hv hl hbs, State.setResult_result _ _ _ (by decide),
    regsReady_setHeader_setResult _ _ _ _, frame_setHeader_setResult .., rfl, rfl,
    h0, h1, h2, h4, h5, h6, h8, h16, h20, h30, h32, h33⟩

/-! ### HDR_ENCODE a second time (rule R111) -/

theorem Memory.read_writeBytes_writeBytes (m : Memory) (a : Nat) (bs : List Byte) (c : Nat) :
    ((m.writeBytes a bs).writeBytes a bs).read c = (m.writeBytes a bs).read c := by
  by_cases hc : a ≤ c ∧ c < a + bs.length
  · obtain ⟨hlo, hhi⟩ := hc
    obtain ⟨i, rfl⟩ := Nat.exists_eq_add_of_le hlo
    exact Memory.read_writeBytes_inside_congr _ _ _ _ (by omega)
  · exact Memory.read_writeBytes_outside _ _ (by omega)

theorem Memory.writeBytes_writeBytes {m : Memory} (h : m.wf = true) (a : Nat) (bs : List Byte) :
    (m.writeBytes a bs).writeBytes a bs = m.writeBytes a bs :=
  have hwf := Memory.writeBytes_wf a bs h
  Memory.ext_wf (Memory.writeBytes_wf a bs hwf) hwf (Memory.read_writeBytes_writeBytes m a bs)

/-- Storing the same bytes again, with the result pair set in between, changes nothing of a canonical BUF. -/
theorem State.storeBytes_setResult_storeBytes {s : State} (h : s.buf.wf = true) (a : Nat) (bs : List Byte) (c : Byte)
    (n : Nat) : ((s.storeBytes a bs).setResult c n).storeBytes a bs = (s.storeBytes a bs).setResult c n := by
  have hstore : (s.storeBytes a bs).storeBytes a bs = s.storeBytes a bs := by
    simp only [State.storeBytes, Memory.writeBytes_writeBytes h]
  exact congrArg (State.setResult · c n) hstore

/-- Setting the same result pair again changes nothing. -/
theorem State.setResult_storeBytes_setResult (s : State) (c : Byte) (n a : Nat) (bs : List Byte) :
    ((s.setResult c n).storeBytes a bs).setResult c n = (s.setResult c n).storeBytes a bs := rfl

theorem regsReadable_storeBytes_setResult {rs : List RegName} {s : State} (a : Nat) (bs : List Byte) (c : Byte) (n : Nat)
    (h : regsReadable rs s) : regsReadable rs ((s.storeBytes a bs).setResult c n) :=
  h.imp_right fun hw r hr => State.isWritten_setResult_of _ c n (hw r hr)

/-- After a success HDR_ENCODE stores the same bytes over the first's, and nothing else changes. -/
theorem hdrEncode_again {s t : State} (h : Succeeds .hdrEncode s t) : ∃ bs,
    t = (s.storeBytes (s.val .dstOff) bs).setResult 0x00 34 ∧
      exec .hdrEncode t = .next (t.storeBytes (s.val .dstOff) bs) := by
  obtain ⟨ht, hregion, hv, hl, henc⟩ := hdrEncode_success h
  have hparams : t.params = s.params := by rw [ht, State.setResult_params, State.storeBytes_params]
  have hheader : t.header = s.header := by rw [ht, State.setResult_header, State.storeBytes_header]
  have hval {r : RegName} (h1 : r ≠ .status) (h2 : r ≠ .resLen) : t.val r = s.val r := by
    rw [ht, State.setResult_val_ne _ _ _ h1 h2, State.storeBytes_val]
  have hoff : t.val .dstOff = s.val .dstOff := hval (by decide) (by decide)
  have hlen : t.val .dstLen = s.val .dstLen := hval (by decide) (by decide)
  have hread : regsReadable ([.dstOff, .dstLen] ++ encodedRegs t.params.reservedOnEncode) t := by
    rw [hparams, ht]
    exact regsReadable_storeBytes_setResult _ _ _ _ (regsReadable_append.mpr ⟨hregion, henc⟩)
  have hrun := hdrEncode_runs hread (by rwa [dstValid, hoff, hlen, hparams]) (by rwa [hlen])
  rw [hoff, hheader, hparams] at hrun
  generalize encHdr s.params.reservedOnEncode s.header = bs at ht hrun
  exact ⟨bs, ht, by rw [hrun, ht, State.setResult_storeBytes_setResult]⟩

/-- Settles O44: the second HDR_ENCODE stores the bytes that stand there already. -/
theorem headerLengthAndIdempotence : Obligations.HeaderLengthAndIdempotence := by
  refine ⟨encHdr_length, fun s t h => ?_⟩
  obtain ⟨bs, rfl, hrun⟩ := hdrEncode_again h
  refine ⟨State.setResult_val_resLen .., ⟨_, ⟨hrun, h.noFault, h.ok⟩, fun c => ?_⟩, fun hwf => ?_⟩
  · exact Memory.read_writeBytes_writeBytes ..
  · rw [hrun, State.storeBytes_setResult_storeBytes hwf]

/-! ### HDR_ENCODE and HDR_DECODE on the machine (rule R110) -/

/-- `s` with anything in the header registers and the source region set to the 34 bytes at `a`. -/
def State.pointedAt (s : State) (h' : Header) (a : Nat) : State :=
  ((s.setHeader h').writeReg .srcOff a).writeReg .srcLen 34

/-- HDR_DECODE loads a valid header from where its encoding stands. -/
theorem hdrDecode_pointedAt {s : State} (h' : Header) {a : Nat} {p : ReservedOnEncode} {h : Header} (ha : a < 2 ^ 16)
    (hsize : a + 34 ≤ s.params.bufSize) (hvalid : p = .verbatim ∨ h.rsv1 = 0 ∧ h.rsv2 = 0)
    (hb : s.buf.readBytes a 34 = some (encHdr p h)) :
    exec .hdrDecode (s.pointedAt h' a) = .next (((s.pointedAt h' a).setHeader h).setResult 0x00 34) := by
  have hoff : (s.pointedAt h' a).val .srcOff = a := by
    rw [State.pointedAt, State.val_writeReg_ne _ _ (by decide), State.val_writeReg_same]
    exact Nat.mod_eq_of_lt ha
  have hlen : (s.pointedAt h' a).val .srcLen = 34 := State.val_writeReg_same ..
  have hready : regsReady [.srcOff, .srcLen] (s.pointedAt h' a) := by
    simp [regsReady, State.pointedAt, State.isWritten_writeReg_of]
  rw [hdrDecode_runs (bs := encHdr p h) (.inr hready) ?_ hlen.ge ?_, decHdr_encHdr hvalid]
  · rwa [srcValid, hoff, hlen]
  · rwa [hoff]

/-- Settles O46: the source region holds the stored bytes, and the header registers set in between are all loaded again. -/
theorem encodeThenDecodeRestoresHeader : Obligations.EncodeThenDecodeRestoresHeader := by
  intro s t h' h hvalid
  obtain ⟨ht, -, hv, hl, -⟩ := hdrEncode_success h
  have hheader : s.params.reservedOnEncode = .verbatim ∨ s.header.rsv1 = 0 ∧ s.header.rsv2 = 0 :=
    hvalid.imp_right fun ⟨h1, h2⟩ => ⟨BitVec.eq_of_toNat_eq h1, BitVec.eq_of_toNat_eq h2⟩
  have hparams : t.params = s.params := by rw [ht, State.setResult_params, State.storeBytes_params]
  have hstored : t.buf.readBytes (s.val .dstOff) 34 = some (encHdr s.params.reservedOnEncode s.header) := by
    rw [ht, State.setResult_buf, State.storeBytes_buf, ← encHdr_length s.params.reservedOnEncode s.header]
    exact Memory.readBytes_writeBytes ..
  have hsrc : s.val .dstOff + 34 ≤ t.params.bufSize := by
    rw [hparams]
    exact (Nat.add_le_add_left hl _).trans hv
  have hrun := hdrDecode_pointedAt h' (s.reg .dstOff).val.isLt hsrc hheader hstored
  exact ⟨_, ⟨hrun, h.noFault, State.setResult_val_status ..⟩, State.setResult_val_resLen .., rfl,
    regsReady_setHeader_setResult _ _ _ _, rfl⟩

/-! ### ForceZero reads no reserved register (rules R104, R106, R151) -/

/-- The updates of a command that writes no register but the result pair leave H_RSV1 and H_RSV2 alone. -/
theorem CommandUpdate.withReserved {i : Instr} {g : Region} {f : State → State} (hf : CommandUpdate i g f)
    (hi : writtenRegs i = [.status, .resLen]) (s : State) (x : Reg 8) (y : Reg 32) :
    f (s.withReserved x y) = (f s).withReserved x y := by
  cases hf with
  | failed n bs =>
    dsimp only
    rw [State.storeBytes_withReserved, State.useDraws_withReserved, State.setResult_withReserved]
  | stored =>
    dsimp only
    rw [State.storeBytes_withReserved, State.setResult_withReserved]
  | header h _ hw => cases hi.symm.trans hw
  | timestamp sec nsec _ hw => cases hi.symm.trans hw

/-- Registers other than H_RSV1 and H_RSV2 are the same whatever those two hold. -/
theorem follows_withReserved (s : State) (x : Reg 8) (y : Reg 32) {rs : List RegName} (h1 : .hRsv1 ∉ rs)
    (h2 : .hRsv2 ∉ rs) : Follows rs s (s.withReserved x y) ∧ SameReadable rs s (s.withReserved x y) := by
  have hreg : ∀ r ∈ rs, (s.withReserved x y).reg r = s.reg r := fun r hr =>
    State.withReserved_reg_ne s x y (fun c => h1 (c ▸ hr)) (fun c => h2 (c ▸ hr))
  have hread : SameReadable rs s (s.withReserved x y) := fun r hr => regsReadable_congr rfl (hreg r hr).symm
  exact ⟨⟨rfl, rfl, rfl, fun r hr h => ⟨(hread r hr).mp h, by rw [State.val, State.val, hreg r hr]⟩⟩, hread⟩

/-- Settles O34: neither command's operands are the two registers, so it is one update of both states or the fault in both. -/
theorem forceZeroIgnoresReserved : Obligations.ForceZeroIgnoresReserved := by
  intro i s x y hi hp
  have hw : writtenRegs i = [.status, .resLen] := by rcases hi with rfl | rfl <;> rfl
  have hops : .hRsv1 ∉ operandRegs s.params.reservedOnEncode i ∧ .hRsv2 ∉ operandRegs s.params.reservedOnEncode i := by
    rw [hp]
    rcases hi with rfl | rfl <;> decide
  obtain ⟨hfollows, hread⟩ := follows_withReserved s x y hops.1 hops.2
  rcases exec_parallel hfollows fun _ _ => rfl with ⟨es, eu⟩ | ⟨f, hf, es, eu⟩
  · exact ⟨_, es, (eu hread).trans (congrArg _ (State.faulted_withReserved s x y))⟩
  · exact ⟨_, es, eu.trans (congrArg _ (hf.withReserved hw s x y))⟩

end Sys2Proof.Machine

/-! # Proofs: the timestamp codec (spec/42_timestamp_codec.md)

The two parts of the seconds stand side by side, so the ten bytes are a field of six bytes and one of four (rule R54), and both
codec functions are inverse field by field. The commands follow from what `tsEncodeWith_cases`, `tsEncode_success`,
`tsEncode_runs` and `tsDecode_runs` say of them. -/

namespace Sys2Proof.Machine

/-! ### The round trip (rules R134 to R136) -/

theorem fromBE_append (xs ys : List Byte) : fromBE (xs ++ ys) = fromBE xs * 256 ^ ys.length + fromBE ys := by
  induction xs with
  | nil => simp [fromBE]
  | cons x xs ih =>
    simp only [List.cons_append, fromBE, ih, List.length_append, pow_add]
    ring

theorem be_fromBE_slice {o n : Nat} {bs : List Byte} (h : o + n ≤ bs.length) :
    be n (fromBE (slice o n bs)) = slice o n bs := by
  have hbe := be_fromBE (slice o n bs)
  rwa [slice_length o n bs h] at hbe

theorem fromBE_slice_lt {o n : Nat} {bs : List Byte} (h : o + n ≤ bs.length) : fromBE (slice o n bs) < 256 ^ n := by
  have hlt := fromBE_lt (slice o n bs)
  rwa [slice_length o n bs h] at hlt

/-- The seconds are the number in the first six bytes: what rule R135 adds up are its high two and its low four bytes. -/
theorem decSec_eq {b : List Byte} (h : 6 ≤ b.length) : decSec b = fromBE (slice 0 6 b) := by
  have hpow : 256 ^ 4 = 2 ^ 32 := by norm_num
  rw [← slice_append_slice (o := 0) (m := 2) 4 b rfl, fromBE_append, slice_length 2 4 b h, hpow, decSec]

theorem decSec_lt {b : List Byte} (h : 6 ≤ b.length) : decSec b < 2 ^ 48 :=
  decSec_eq h ▸ fromBE_slice_lt h

theorem decNsec_lt {b : List Byte} (h : 10 ≤ b.length) : decNsec b < 2 ^ 32 := fromBE_slice_lt (o := 6) (n := 4) h

theorem decSec_encTs {sec : Nat} (nsec : Nat) (h : sec < 2 ^ 48) : decSec (encTs sec nsec) = sec := by
  have hfirst : slice 0 6 (be 6 sec ++ be 4 nsec) = be 6 sec := by simp [slice]
  rw [decSec_eq (by simp), mixedWidthViews.1 sec nsec h, hfirst, fromBE_be_of_lt h]

theorem decNsec_encTs (sec : Nat) {nsec : Nat} (h : nsec < 2 ^ 32) : decNsec (encTs sec nsec) = nsec := by
  rw [decNsec, slice_encTs_nsec, fromBE_be_of_lt h]

theorem encTs_decTs {b : List Byte} (h : b.length = 10) : encTs (decSec b) (decNsec b) = b := by
  have hsec : be 6 (decSec b) = slice 0 6 b := by rw [decSec_eq (by omega), be_fromBE_slice (by omega)]
  have hnsec : be 4 (decNsec b) = slice 6 4 b := be_fromBE_slice h.ge
  rw [mixedWidthViews.1 _ _ (decSec_lt (by omega)), hsec, hnsec, slice_append_slice 4 b rfl]
  simp [slice, ← h]

/-! ### TS_ENCODE a second time (rule R136) -/

/-- After a success TS_ENCODE finds its operands as they were, and stores the same bytes over the first's. -/
theorem tsEncode_again {s t : State} (h : Succeeds .tsEncode s t) : ∃ bs,
    t = (s.storeBytes (s.val .dstOff) bs).setResult 0x00 10 ∧
      exec .tsEncode t = .next (t.storeBytes (s.val .dstOff) bs) := by
  obtain ⟨ht, hregion, hv, hl, hlt, hsec, hnsec⟩ := tsEncode_success h
  generalize hbs : encTs (s.val .tSec) (s.val .tNsec) = bs at ht
  have hparams : t.params = s.params := by rw [ht, State.setResult_params, State.storeBytes_params]
  have hval : ∀ r ∉ [RegName.status, .resLen], t.val r = s.val r := fun r hr => by
    rw [State.val, State.val, ht, (frame_storeBytes_setResult s 0x00 10 _ bs).regs r hr]
  have hoff := hval .dstOff (by decide)
  have hlen := hval .dstLen (by decide)
  have hsec_eq := hval .tSec (by decide)
  have hread : regsReadable [.dstOff, .dstLen, .tSec, .tNsec] t := by
    rw [ht]
    exact regsReadable_storeBytes_setResult _ _ _ _
      (regsReadable_append.mpr ⟨hregion, regsReadable_append.mpr ⟨hsec, hnsec⟩⟩)
  have hrun := tsEncode_runs hread (by rwa [dstValid, hoff, hlen, hparams]) (by rwa [hlen]) (by rwa [hsec_eq])
  rw [hoff, hsec_eq, hval .tNsec (by decide), hbs] at hrun
  exact ⟨bs, ht, by rw [hrun, ht, State.setResult_storeBytes_setResult]⟩

/-- Settles O45: the codec is inverse field by field, and the second TS_ENCODE stores the bytes that stand there already. -/
theorem timestampRoundTrip : Obligations.TimestampRoundTrip := by
  refine ⟨fun s n hs hn => ⟨encTs_length s n, decSec_encTs n hs, decNsec_encTs s hn⟩,
    fun b hb => ⟨encTs_decTs hb, decSec_lt (by omega), decNsec_lt hb.ge⟩, fun s t h => ?_⟩
  obtain ⟨bs, rfl, hrun⟩ := tsEncode_again h
  refine ⟨State.setResult_val_resLen .., ⟨_, ⟨hrun, h.noFault, h.ok⟩, fun c => ?_⟩, fun hwf => ?_⟩
  · exact Memory.read_writeBytes_writeBytes ..
  · rw [hrun, State.storeBytes_setResult_storeBytes hwf]

/-! ### TS_DECODE (rules R133, R135) -/

/-- T_SEC and T_NSEC as TS_DECODE loads them. -/
def State.setTimestamp (s : State) (sec nsec : Nat) : State := (s.writeReg .tSec sec).writeReg .tNsec nsec

@[simp] theorem State.setTimestamp_buf (s : State) (sec nsec : Nat) : (s.setTimestamp sec nsec).buf = s.buf := by
  simp [State.setTimestamp]
@[simp] theorem State.setTimestamp_params (s : State) (sec nsec : Nat) : (s.setTimestamp sec nsec).params = s.params := by
  simp [State.setTimestamp]
@[simp] theorem State.setTimestamp_draws (s : State) (sec nsec : Nat) : (s.setTimestamp sec nsec).draws = s.draws := by
  simp [State.setTimestamp]
@[simp] theorem State.setTimestamp_faultMark (s : State) (sec nsec : Nat) :
    (s.setTimestamp sec nsec).faultMark = s.faultMark := by
  simp [State.setTimestamp]

theorem State.setTimestamp_setResult_tSec (s : State) {sec : Nat} (nsec : Nat) (c : Byte) (n : Nat) (h : sec < 2 ^ 48) :
    ((s.setTimestamp sec nsec).setResult c n).val .tSec = sec := by
  rw [State.setResult_val_ne _ _ _ (by decide) (by decide), State.setTimestamp, State.val_writeReg_ne _ _ (by decide),
    State.val_writeReg_same, Nat.mod_eq_of_lt (h.trans (by decide))]

theorem State.setTimestamp_setResult_tNsec (s : State) (sec : Nat) {nsec : Nat} (c : Byte) (n : Nat) (h : nsec < 2 ^ 32) :
    ((s.setTimestamp sec nsec).setResult c n).val .tNsec = nsec := by
  rw [State.setResult_val_ne _ _ _ (by decide) (by decide), State.setTimestamp, State.val_writeReg_same, Nat.mod_eq_of_lt h]

/-- TS_DECODE where its conditions hold, as one load of both registers. -/
theorem tsDecode_loads {s : State} {bs : List Byte} (h : regsReadable [.srcOff, .srcLen] s) (hv : srcValid s)
    (hl : 10 ≤ s.val .srcLen) (hb : s.buf.readBytes (s.val .srcOff) 10 = some bs) :
    exec .tsDecode s = .next ((s.setTimestamp (decSec bs) (decNsec bs)).setResult 0x00 10) :=
  tsDecode_runs h hv hl hb

theorem regsReady_setTimestamp_setResult (s : State) (sec nsec : Nat) (c : Byte) (n : Nat) :
    regsReady [.tSec, .tNsec] ((s.setTimestamp sec nsec).setResult c n) := by
  simp [regsReady, State.setTimestamp, State.isWritten_setResult_of, State.isWritten_writeReg_of]

theorem frame_setTimestamp_setResult (s : State) (sec nsec : Nat) :
    Frame s ((s.setTimestamp sec nsec).setResult 0x00 10) [.tSec, .tNsec, .status, .resLen] 0 0 :=
  have hupdate := CommandUpdate.timestamp (i := .tsDecode) (g := s.dst) sec nsec rfl rfl
  (hupdate.frame s).mono (List.Subset.refl _) (.inl (Nat.min_zero _))

/-- Settles O13: the registers hold the decoded numbers, which are in range and so not cut. -/
theorem tsDecodeReadsLayout : Obligations.TsDecodeReadsLayout := by
  intro s hr hv hl hb
  obtain ⟨bs, hbs⟩ := readBytes_isSome_iff.mpr hb
  obtain ⟨hlen, -⟩ := Memory.readBytes_eq_some.mp hbs
  have hsec := s.setTimestamp_setResult_tSec (decNsec bs) 0x00 10 (decSec_lt (b := bs) (by omega))
  have hnsec := s.setTimestamp_setResult_tNsec (decSec bs) 0x00 10 (decNsec_lt (b := bs) hlen.ge)
  exact ⟨_, fromBE (slice 0 2 bs), fromBE (slice 2 4 bs), tsDecode_loads (regsReadable_of_ready hr) hv hl hbs,
    State.setResult_result _ _ _ (by decide), regsReady_setTimestamp_setResult _ _ _ _ _, frame_setTimestamp_setResult _ _ _,
    by simp, by simp, memRead_slice hbs (o := 0) (by decide), memRead_slice hbs (by decide), hsec.trans (decSec.eq_1 bs),
    hsec.trans_lt (decSec_lt (by omega)), (memRead_slice hbs (by decide)).trans (congrArg some hnsec.symm)⟩

/-! ### TS_ENCODE and TS_DECODE on the machine (rule R136) -/

/-- `s` with the source region set to the `n` bytes at `a`. -/
def State.sourceAt (s : State) (a n : Nat) : State := (s.writeReg .srcOff a).writeReg .srcLen n

@[simp] theorem State.sourceAt_buf (s : State) (a n : Nat) : (s.sourceAt a n).buf = s.buf := by
  simp [State.sourceAt]
@[simp] theorem State.sourceAt_params (s : State) (a n : Nat) : (s.sourceAt a n).params = s.params := by
  simp [State.sourceAt]
@[simp] theorem State.sourceAt_faultMark (s : State) (a n : Nat) : (s.sourceAt a n).faultMark = s.faultMark := by
  simp [State.sourceAt]

/-- TS_DECODE loads a timestamp from where its encoding stands. -/
theorem tsDecode_sourceAt {s : State} {a sec nsec : Nat} (ha : a < 2 ^ 16) (hsize : a + 10 ≤ s.params.bufSize)
    (hsec : sec < 2 ^ 48) (hnsec : nsec < 2 ^ 32) (hb : s.buf.readBytes a 10 = some (encTs sec nsec)) :
    exec .tsDecode (s.sourceAt a 10) = .next (((s.sourceAt a 10).setTimestamp sec nsec).setResult 0x00 10) := by
  have hoff : (s.sourceAt a 10).val .srcOff = a := by
    rw [State.sourceAt, State.val_writeReg_ne _ _ (by decide), State.val_writeReg_same]
    exact Nat.mod_eq_of_lt ha
  have hlen : (s.sourceAt a 10).val .srcLen = 10 := State.val_writeReg_same ..
  have hready : regsReady [.srcOff, .srcLen] (s.sourceAt a 10) := by
    simp [regsReady, State.sourceAt, State.isWritten_writeReg_of]
  rw [tsDecode_loads (bs := encTs sec nsec) (.inr hready) ?_ hlen.ge ?_, decSec_encTs _ hsec, decNsec_encTs _ hnsec]
  · rwa [srcValid, hoff, hlen]
  · rwa [hoff]

/-- Settles O47: the source region holds the stored bytes, and the registers overwritten in between are both loaded again. -/
theorem encodeThenDecodeRestoresTimestamp : Obligations.EncodeThenDecodeRestoresTimestamp := by
  intro s t v w h
  obtain ⟨ht, -, hv, hl, hsec, -⟩ := tsEncode_success h
  have hnsec : s.val .tNsec < 2 ^ 32 := (s.reg .tNsec).val.isLt
  have hsrc : s.val .dstOff + 10 ≤ (t.setTimestamp v w).params.bufSize := by
    rw [State.setTimestamp_params, ht, State.setResult_params, State.storeBytes_params]
    exact (Nat.add_le_add_left hl _).trans hv
  have hstored : (t.setTimestamp v w).buf.readBytes (s.val .dstOff) 10 = some (encTs (s.val .tSec) (s.val .tNsec)) := by
    rw [State.setTimestamp_buf, ht, State.setResult_buf, State.storeBytes_buf,
      ← encTs_length (s.val .tSec) (s.val .tNsec)]
    exact Memory.readBytes_writeBytes ..
  have hrun := tsDecode_sourceAt (s.reg .dstOff).val.isLt hsrc hsec hnsec hstored
  refine ⟨_, ⟨hrun, ?_, State.setResult_val_status ..⟩, State.setResult_val_resLen .., ?_, ?_, ?_⟩
  · simpa using h.noFault
  · exact State.setTimestamp_setResult_tSec _ _ _ _ hsec
  · exact State.setTimestamp_setResult_tNsec _ _ _ _ hnsec
  · simp

/-! ### Both errors of TS_ENCODE (rule R132) -/

/-- Where both errors apply, TS_ENCODE reports the drawn one. -/
theorem tsEncodeWith_bothErrors (pick : Bool) {s : State} (hr : regsReadable [.dstOff, .dstLen, .tSec] s) (hv : dstValid s)
    (hl : s.val .dstLen < 10) (hs : 2 ^ 48 ≤ s.val .tSec) :
    tsEncodeWith pick s = .next ((s.useDraws 1).setResult (pickedError pick).code 0) := by
  unfold dstValid at hv
  rcases tsEncodeWith_cases pick s with ⟨_, c⟩ | ⟨_, c⟩ | ⟨e, _⟩ | ⟨_, c⟩ | ⟨_, c⟩ | ⟨_, c⟩
  · exfalso
    rcases c with c | ⟨_, c | ⟨c, _⟩⟩
    · exact c (regsReadable_mono hr (by simp))
    · exact c (regsReadable_mono hr (by simp))
    · omega
  · omega
  · exact e
  · omega
  · omega
  · omega

/-- TS_ENCODE draws only where both errors apply. -/
theorem tsEncodeWith_draws {pick : Bool} {s t : State} (h : tsEncodeWith pick s = .next t)
    (hnot : ¬ (dstValid s ∧ s.val .dstLen < 10 ∧ 2 ^ 48 ≤ s.val .tSec)) : t.draws = s.draws := by
  rcases tsEncodeWith_cases pick s with ⟨e, _⟩ | ⟨e, _⟩ | ⟨_, _, hv, _, hl, hs⟩ | ⟨e, _⟩ | ⟨e, _⟩ | ⟨e, _⟩
  case inr.inr.inl => exact absurd ⟨hv, hl, hs⟩ hnot
  all_goals
    obtain rfl := next_unique e h
    simp

theorem exists_pickedError_code_iff {code : Nat} :
    (∃ pick, (pickedError pick).code.toNat = code) ↔ code = 0x01 ∨ code = 0x03 := by
  constructor
  · rintro ⟨pick, rfl⟩
    cases pick <;> decide
  · rintro (rfl | rfl)
    · exact ⟨true, rfl⟩
    · exact ⟨false, rfl⟩

/-- Settles O20: the drawn error is reported with nothing else changed, and each of the two codes is some draw's. -/
theorem tsEncodeAdmitsBothErrors : Obligations.TsEncodeAdmitsBothErrors := by
  refine ⟨fun s hr hv hl hs => ?_, fun s t => tsEncodeWith_draws⟩
  have hrun pick := tsEncodeWith_bothErrors pick (regsReadable_of_ready hr) hv hl hs
  refine ⟨⟨_, exec_tsEncode s⟩, fun pick => ⟨_, hrun pick, rfl, rfl⟩, fun code => ?_⟩
  rw [← exists_pickedError_code_iff]
  refine exists_congr fun pick => ⟨?_, ?_⟩
  · rintro rfl
    exact ⟨_, hrun pick, State.setResult_result _ _ _ (by decide), frame_store_setResult s _ 0 0 1 []⟩
  · rintro ⟨t, ht, hresult, -⟩
    obtain rfl := next_unique (hrun pick) ht
    exact (State.setResult_val_status ..).symm.trans hresult.status

end Sys2Proof.Machine

/-! # Proofs: the frame builder (spec/43_frame_builder.md)

FRAME_BUILD raises UninitRead, reports BadRegion, fails with the error of the step that has no room or no range, or stores the
frame. `frameBuildWith_ends` says so once, with the failed state written as a function of the draws. `writeBytes_frameBytes` cuts
the stored frame into the stores of rule R153's three steps, and `hdrEncode_then_tsEncode` runs the two that are commands. -/

namespace Sys2Proof.Machine

/-! ### A failed FRAME_BUILD (rules R151, R152) -/

/-- Both errors of FRAME_BUILD apply, and ERR_PICK decides (rule R151). -/
abbrev FrameErrorsClash (s : State) : Prop := 48 ≤ s.val .dstLen ∧ s.val .dstLen < 58 ∧ 2 ^ 48 ≤ s.val .tSec

/-- The error a FRAME_BUILD that fails reports (rule R153). -/
def frameError (pick : Bool) (s : State) : ErrorKind :=
  if FrameErrorsClash s then pickedError pick else if s.val .dstLen < 58 then .bufferTooSmall else .outOfRange

/-- The state a FRAME_BUILD that fails leaves (rule R152). -/
def State.frameFailed (s : State) (pick : Bool) (free : Nat → Byte) : State :=
  ((s.storeBytes (s.val .dstOff) (drawnBytes free (min (s.val .dstLen) 58))).useDraws
    ((if FrameErrorsClash s then 1 else 0) + min (s.val .dstLen) 58)).setResult (frameError pick s).code 0

section FrameError
variable {s : State} (pick : Bool)

theorem frameError_of_clash (h : FrameErrorsClash s) : frameError pick s = pickedError pick := if_pos h

theorem frameError_of_short (hl : s.val .dstLen < 58) (hno : ¬ FrameErrorsClash s) : frameError pick s = .bufferTooSmall := by
  rw [frameError, if_neg hno, if_pos hl]

theorem frameError_of_long (hl : 58 ≤ s.val .dstLen) : frameError pick s = .outOfRange := by
  rw [frameError, if_neg fun ⟨_, hlt, _⟩ => hlt.not_ge hl, if_neg hl.not_gt]

/-- What `frameBuildWith_cases` says of the error and the draws is what the two definitions say. -/
theorem frameError_unique {pick : Bool} {k : ErrorKind} {n : Nat}
    (h : s.val .dstLen < 48 ∧ k = .bufferTooSmall ∧ n = 0 ∨
      48 ≤ s.val .dstLen ∧ s.val .dstLen < 58 ∧ 2 ^ 48 ≤ s.val .tSec ∧ k = pickedError pick ∧ n = 1 ∨
      48 ≤ s.val .dstLen ∧ s.val .dstLen < 58 ∧ s.val .tSec < 2 ^ 48 ∧ k = .bufferTooSmall ∧ n = 0 ∨
      58 ≤ s.val .dstLen ∧ 2 ^ 48 ≤ s.val .tSec ∧ k = .outOfRange ∧ n = 0) :
    k = frameError pick s ∧ n = if FrameErrorsClash s then 1 else 0 := by
  rcases h with ⟨hl, rfl, rfl⟩ | ⟨h48, hl, hs, rfl, rfl⟩ | ⟨_, hl, hs, rfl, rfl⟩ | ⟨hl, _, rfl, rfl⟩
  · have hno : ¬ FrameErrorsClash s := by omega
    exact ⟨(frameError_of_short pick (by omega) hno).symm, (if_neg hno).symm⟩
  · exact ⟨(frameError_of_clash pick ⟨h48, hl, hs⟩).symm, (if_pos ⟨h48, hl, hs⟩).symm⟩
  · have hno : ¬ FrameErrorsClash s := by omega
    exact ⟨(frameError_of_short pick hl hno).symm, (if_neg hno).symm⟩
  · exact ⟨(frameError_of_long pick hl).symm, (if_neg (by omega)).symm⟩

theorem frameError_cases (s : State) : frameError pick s = .bufferTooSmall ∨ frameError pick s = .outOfRange := by
  unfold frameError
  split_ifs
  · cases pick
    · exact .inr rfl
    · exact .inl rfl
  · exact .inl rfl
  · exact .inr rfl

end FrameError

section FrameFailed
variable (s : State) (pick : Bool) (free : Nat → Byte)

theorem frameFailed_result : Result (s.frameFailed pick free) (frameError pick s).code.toNat 0 :=
  State.setResult_result _ _ _ (by decide)

theorem frameFailed_status : (s.frameFailed pick free).val .status = 0x01 ∨ (s.frameFailed pick free).val .status = 0x03 := by
  rw [(frameFailed_result s pick free).status]
  rcases frameError_cases pick s with h | h <;> rw [h]
  · exact .inl rfl
  · exact .inr rfl

@[simp] theorem frameFailed_faultMark : (s.frameFailed pick free).faultMark = s.faultMark := by
  simp [State.frameFailed]

theorem drawnBytes_getElem (n : Nat) {i : Nat} (h : i < (drawnBytes free n).length) : (drawnBytes free n)[i] = free i := by
  induction n generalizing free i with
  | zero => cases h
  | succ n ih =>
    cases i with
    | zero => rfl
    | succ i => exact ih (fun j => free (j + 1)) (Nat.lt_of_succ_lt_succ h)

theorem frameFailed_byte_inside {i : Nat} (h : i < min (s.val .dstLen) 58) :
    (s.frameFailed pick free).byte (s.val .dstOff + i) = some (free i) := by
  have hi : i < (drawnBytes free (min (s.val .dstLen) 58)).length := by rwa [drawnBytes_length]
  rw [State.frameFailed, State.setResult_byte, State.useDraws_byte, State.byte_storeBytes_inside s _ _ hi, drawnBytes_getElem]

theorem frameFailed_byte_outside {a : Nat} (h : a < s.val .dstOff ∨ s.val .dstOff + min (s.val .dstLen) 58 ≤ a) :
    (s.frameFailed pick free).byte a = s.byte a := by
  rw [State.frameFailed, State.setResult_byte, State.useDraws_byte,
    State.byte_storeBytes_outside s _ (by rwa [drawnBytes_length])]

theorem frameFailed_draws : (s.frameFailed pick free).draws =
    s.draws + min (s.val .dstLen) 58 + if FrameErrorsClash s then 1 else 0 := by
  simp [State.frameFailed, Nat.add_assoc, Nat.add_comm]

end FrameFailed

/-- Everything FRAME_BUILD can do, the failed state as a function of the draws. -/
theorem frameBuildWith_ends (pick : Bool) (free : Nat → Byte) (s : State) :
    (frameBuildWith pick free s = .next s.faulted ∧ (¬ regsReadable [.dstOff, .dstLen] s ∨
      48 ≤ s.val .dstLen ∧ ¬ regsReadable [.tSec] s ∨ 58 ≤ s.val .dstLen ∧ s.val .tSec < 2 ^ 48)) ∨
    (frameBuildWith pick free s = .next (s.setResult 0x05 0) ∧ ¬ dstValid s) ∨
    (frameBuildWith pick free s = .next (s.frameFailed pick free) ∧ (s.val .dstLen < 58 ∨ 2 ^ 48 ≤ s.val .tSec)) ∨
    (frameBuildWith pick free s = .next ((s.storeBytes (s.val .dstOff) (frameBytes s)).setResult 0x00 58) ∧
      58 ≤ s.val .dstLen ∧ s.val .tSec < 2 ^ 48) := by
  rcases frameBuildWith_cases pick free s with ⟨e, c⟩ | ⟨e, _, hv⟩ | ⟨k, n, e, _, _, _, hk⟩ | ⟨e, _, _, _, _, hl, hs⟩
  · refine .inl ⟨e, ?_⟩
    rcases c with c | ⟨_, h48, c | ⟨hl, hs, _⟩⟩
    · exact .inl c
    · exact .inr (.inl ⟨h48, c⟩)
    · exact .inr (.inr ⟨hl, hs⟩)
  · exact .inr (.inl ⟨e, hv.not_ge⟩)
  · obtain ⟨rfl, rfl⟩ := frameError_unique hk
    exact .inr (.inr (.inl ⟨e, by omega⟩))
  · exact .inr (.inr (.inr ⟨e, hl, hs⟩))

/-- FRAME_BUILD with a valid region that is too short, or with seconds out of range. -/
theorem frameBuildWith_fails (pick : Bool) (free : Nat → Byte) {s : State} (hr : regsReadable [.dstOff, .dstLen] s)
    (hv : dstValid s) (hsec : 48 ≤ s.val .dstLen → regsReadable [.tSec] s)
    (hfail : s.val .dstLen < 58 ∨ 2 ^ 48 ≤ s.val .tSec) :
    frameBuildWith pick free s = .next (s.frameFailed pick free) := by
  rcases frameBuildWith_ends pick free s with ⟨_, c | ⟨h48, c⟩ | c⟩ | ⟨_, c⟩ | ⟨e, _⟩ | ⟨_, c⟩
  · exact absurd hr c
  · exact absurd (hsec h48) c
  · omega
  · exact absurd hv c
  · exact e
  · omega

/-- FRAME_BUILD reports its error with code `c`. -/
theorem frameBuildWith_reports {pick : Bool} {free : Nat → Byte} {s : State} {k : ErrorKind} {c : Nat}
    (e : frameBuildWith pick free s = .next (s.frameFailed pick free)) (hk : frameError pick s = k)
    (hc : k.code.toNat = c) :
    ∃ t, frameBuildWith pick free s = .next t ∧ Result t c 0 ∧ t.faultMark = s.faultMark := by
  subst hk hc
  exact ⟨_, e, frameFailed_result s pick free, frameFailed_faultMark s pick free⟩

theorem pickedError_code (pick : Bool) : (pickedError pick).code.toNat = if pick then 0x01 else 0x03 := by
  cases pick <;> rfl

/-- With 58 bytes or more, the only error is OutOfRange. -/
theorem frameBuildWith_long_error {pick : Bool} {free : Nat → Byte} {s t : State} (hv : dstValid s)
    (hl : 58 ≤ s.val .dstLen) (h : frameBuildWith pick free s = .next t) (hm : t.faultMark = false)
    (h0 : t.val .status ≠ 0x00) : 2 ^ 48 ≤ s.val .tSec ∧ Result t 0x03 0 := by
  rcases frameBuildWith_ends pick free s with ⟨e, _⟩ | ⟨_, c⟩ | ⟨e, c⟩ | ⟨e, _⟩
  · exact absurd e (ne_next_faulted h hm)
  · exact absurd hv c
  · obtain rfl := next_unique e h
    have hres := frameFailed_result s pick free
    rw [frameError_of_long pick hl] at hres
    exact ⟨c.resolve_left hl.not_gt, hres⟩
  · exact absurd (code_eq_status e h).symm h0

/-- Settles O21: the error is `frameError`, which depends on the draw only where both errors apply. -/
theorem frameBuildErrorByLength : Obligations.FrameBuildErrorByLength := by
  intro s hr hv hsec pick free
  have hfails := frameBuildWith_fails pick free (regsReadable_of_ready hr) hv fun h => regsReadable_of_ready (hsec h)
  refine ⟨fun hl => ?_, fun _ hl hs => ?_, fun h48 hl hs => ?_, fun hl hs => ?_, fun hl t => frameBuildWith_long_error hv hl⟩
  · exact frameBuildWith_reports (hfails (by omega)) (frameError_of_short pick (by omega) (by omega)) rfl
  · exact frameBuildWith_reports (hfails (.inl hl)) (frameError_of_short pick hl (by omega)) rfl
  · exact frameBuildWith_reports (hfails (.inl hl)) (frameError_of_clash pick ⟨h48, hl, hs⟩) (pickedError_code pick)
  · exact frameBuildWith_reports (hfails (.inr hs)) (frameError_of_long pick hl) rfl

/-- STATUS tells how a FRAME_BUILD that raises no fault has ended. -/
theorem frameBuildWith_of_status {pick : Bool} {free : Nat → Byte} {s t : State} (h : frameBuildWith pick free s = .next t)
    (hm : t.faultMark = false) :
    (t.val .status = 0x01 ∨ t.val .status = 0x03 → t = s.frameFailed pick free) ∧
    (t.val .status = 0x05 → t = s.setResult 0x05 0) ∧
    (t.val .status = 0x00 → t = (s.storeBytes (s.val .dstOff) (frameBytes s)).setResult 0x00 58) := by
  rcases frameBuildWith_ends pick free s with ⟨e, _⟩ | ⟨e, _⟩ | ⟨e, _⟩ | ⟨e, _⟩
  · exact absurd e (ne_next_faulted h hm)
  · have hcode : 0x05 = t.val .status := code_eq_status e h
    exact ⟨fun c => by omega, fun _ => next_unique h e, fun c => by omega⟩
  · obtain rfl := next_unique e h
    have hcode := frameFailed_status s pick free
    exact ⟨fun _ => rfl, fun c => by omega, fun c => by omega⟩
  · have hcode : 0x00 = t.val .status := code_eq_status e h
    exact ⟨fun c => by omega, fun c => by omega, fun _ => next_unique h e⟩

/-- Settles O22: STATUS tells the three ends apart, and only a failed frame stores drawn bytes and moves the counter. -/
theorem failedFrameBuildLeavesDraws : Obligations.FailedFrameBuildLeavesDraws := by
  refine ⟨fun s t pick free h hm hs => ?_, fun s t pick free h hm hs => ?_, fun s t pick free h hm hs => ?_, exec_frameBuild⟩ <;>
    obtain ⟨hfailed, hbad, hstored⟩ := frameBuildWith_of_status h hm
  · rw [hfailed hs]
    exact ⟨fun i => frameFailed_byte_inside s pick free, fun a => frameFailed_byte_outside s pick free,
      frameFailed_draws s pick free⟩
  · rw [hbad hs]
    exact ⟨State.setResult_draws .., State.setResult_byte s _ _⟩
  · rw [hstored hs, State.setResult_draws, State.storeBytes_draws]

/-! ### The three steps (rule R153) -/

theorem State.storeBytes_append (s : State) (a : Nat) (xs ys : List Byte) :
    s.storeBytes a (xs ++ ys) = (s.storeBytes a xs).storeBytes (a + xs.length) ys := by
  simp only [State.storeBytes, Memory.writeBytes_append]

/-- The Ethernet header step, field by field, is one store (rule R80). -/
theorem memWrite_ethBytes (s : State) (a dst src : Nat) :
    ((s.memWrite a 6 dst).memWrite (a + 6) 6 src).memWrite (a + 12) 2 0x88F7 = s.storeBytes a (ethBytes dst src) := by
  simp [State.memWrite, ethBytes, etherType, State.storeBytes_append]

/-- The bytes the three steps store, one step after another. -/
theorem writeBytes_frameBytes (s : State) (a : Nat) : s.buf.writeBytes a (frameBytes s) =
    ((s.buf.writeBytes a (ethBytes (s.val .eDst) (s.val .eSrc))).writeBytes (a + 14)
      (encHdr s.params.reservedOnEncode s.header)).writeBytes (a + 48) (encTs (s.val .tSec) (s.val .tNsec)) := by
  simp [frameBytes, Memory.writeBytes_append]

/-- `s` with the destination region set to the `n` bytes at `a`. -/
def State.destAt (s : State) (a n : Nat) : State := (s.writeReg .dstOff a).writeReg .dstLen n

section DestAt
variable {s : State} {a n : Nat}

@[simp] theorem State.destAt_buf : (s.destAt a n).buf = s.buf := by simp [State.destAt]
@[simp] theorem State.destAt_params : (s.destAt a n).params = s.params := by simp [State.destAt]
@[simp] theorem State.destAt_faultMark : (s.destAt a n).faultMark = s.faultMark := by simp [State.destAt]
@[simp] theorem State.destAt_header : (s.destAt a n).header = s.header := rfl

/-- One frame after another, the first of registers alone. -/
theorem Frame.trans {u v : State} {rs qs : List RegName} {lo k : Nat} (h : Frame s u rs 0 0) (h' : Frame u v qs lo k) :
    Frame s v (rs ++ qs) lo k where
  regs r hr := by
    rw [List.mem_append, not_or] at hr
    rw [h'.regs r hr.2, h.regs r hr.1]
  bytes c hc := (h'.bytes c hc).trans (h.bytes c (.inr (Nat.zero_le c)))
  params := h'.params.trans h.params
  pending := h'.pending.trans h.pending
  done := h'.done.trans h.done
  replies := h'.replies.trans h.replies

theorem frame_destAt : Frame s (s.destAt a n) [.dstOff, .dstLen] 0 0 :=
  (frame_writeReg s .dstOff a).trans (frame_writeReg _ .dstLen n)

theorem Frame.val_eq {u : State} {rs : List RegName} {lo k : Nat} (h : Frame s u rs lo k) {r : RegName} (hr : r ∉ rs) :
    u.val r = s.val r := congrArg (fun x : Reg r.width => x.val.toNat) (h.regs r hr)

/-- Registers outside a frame stay readable. -/
theorem Frame.regsReadable {u : State} {rs qs : List RegName} {lo k : Nat} (h : Frame s u rs lo k)
    (hq : ∀ r ∈ qs, r ∉ rs) (hs : regsReadable qs s) : regsReadable qs u := by
  refine hs.imp (fun hp => by rwa [h.params]) fun hw r hr => ?_
  rw [State.isWritten, h.regs r (hq r hr)]
  exact hw r hr

theorem regsReadable_destAt {rs : List RegName} (h : regsReadable rs s) :
    regsReadable ([.dstOff, .dstLen] ++ rs) (s.destAt a n) := by
  have hregion : regsReady [.dstOff, .dstLen] (s.destAt a n) := by
    simp [regsReady, State.destAt, State.isWritten_writeReg_of]
  refine regsReadable_append.mpr ⟨.inr hregion, h.imp_right fun hw r hr => ?_⟩
  exact State.isWritten_writeReg_of _ _ _ (State.isWritten_writeReg_of _ _ _ (hw r hr))

section Steps
variable (hlegal : paramsAdmitted s.params = true) (hsize : a + n ≤ s.params.bufSize)
include hlegal hsize

/-- A region inside a BUF of legal size fits the two registers. -/
theorem State.destAt_dst : (s.destAt a n).val .dstOff = a ∧ (s.destAt a n).val .dstLen = n := by
  have hbuf : s.params.bufSize < 2 ^ 16 := by
    simp only [paramsAdmitted, Bool.and_eq_true, decide_eq_true_eq] at hlegal
    omega
  constructor
  · rw [State.destAt, State.val_writeReg_ne _ _ (by decide), State.val_writeReg_same]
    exact Nat.mod_eq_of_lt (lt_of_le_of_lt (by omega) hbuf)
  · rw [State.destAt, State.val_writeReg_same]
    exact Nat.mod_eq_of_lt (lt_of_le_of_lt (by omega) hbuf)

variable (hm : s.faultMark = false)
include hm

/-- The PtpHeader step with the region moved to `a`. -/
theorem hdrEncode_destAt (hl : 34 ≤ n) (hread : regsReadable (encodedRegs s.params.reservedOnEncode) s) :
    ∃ u, Succeeds .hdrEncode (s.destAt a n) u ∧
      u.buf = s.buf.writeBytes a (encHdr s.params.reservedOnEncode s.header) ∧
      Frame s u ([.dstOff, .dstLen] ++ [.status, .resLen]) a 34 := by
  obtain ⟨hoff, hlen⟩ := State.destAt_dst hlegal hsize
  have hrun := hdrEncode_runs (s := s.destAt a n) (by simpa using regsReadable_destAt hread)
    (by rwa [dstValid, hoff, hlen, State.destAt_params]) (by rwa [hlen])
  rw [hoff] at hrun
  have hstored := frame_storeBytes_setResult (s.destAt a n) 0x00 34 a (encHdr s.params.reservedOnEncode s.header)
  rw [encHdr_length] at hstored
  exact ⟨_, ⟨hrun, by simpa using hm, State.setResult_val_status ..⟩, by simp, frame_destAt.trans hstored⟩

/-- The PtpTimestamp step with the region moved to `a`. -/
theorem tsEncode_destAt (hl : 10 ≤ n) (hread : regsReadable [.tSec, .tNsec] s) (hs : s.val .tSec < 2 ^ 48) :
    ∃ v, Succeeds .tsEncode (s.destAt a n) v ∧ v.buf = s.buf.writeBytes a (encTs (s.val .tSec) (s.val .tNsec)) := by
  obtain ⟨hoff, hlen⟩ := State.destAt_dst hlegal hsize
  have hsec : (s.destAt a n).val .tSec = s.val .tSec := frame_destAt.val_eq (by decide)
  have hnsec : (s.destAt a n).val .tNsec = s.val .tNsec := frame_destAt.val_eq (by decide)
  have hrun := tsEncode_runs (s := s.destAt a n) (regsReadable_destAt hread)
    (by rwa [dstValid, hoff, hlen, State.destAt_params]) (by rwa [hlen]) (by rwa [hsec])
  rw [hoff, hsec, hnsec] at hrun
  exact ⟨_, ⟨hrun, by simpa using hm, State.setResult_val_status ..⟩, by simp⟩

end Steps
end DestAt

/-- The PtpHeader step and then the PtpTimestamp step, where the region has room for both. -/
theorem hdrEncode_then_tsEncode {s : State} {a n : Nat} (hlegal : paramsAdmitted s.params = true)
    (hsize : a + n ≤ s.params.bufSize) (hm : s.faultMark = false) (hl : 58 ≤ n) (hs : s.val .tSec < 2 ^ 48)
    (henc : regsReadable (encodedRegs s.params.reservedOnEncode) s) (htime : regsReadable [.tSec, .tNsec] s) :
    ∃ u v, Succeeds .hdrEncode (s.destAt (a + 14) (n - 14)) u ∧ Succeeds .tsEncode (u.destAt (a + 48) (n - 48)) v ∧
      v.buf = (s.buf.writeBytes (a + 14) (encHdr s.params.reservedOnEncode s.header)).writeBytes (a + 48)
        (encTs (s.val .tSec) (s.val .tNsec)) := by
  obtain ⟨u, hu, hubuf, hframe⟩ := hdrEncode_destAt (a := a + 14) (n := n - 14) hlegal (by omega) hm (by omega) henc
  have hsec : u.val .tSec = s.val .tSec := hframe.val_eq (by decide)
  have hnsec : u.val .tNsec = s.val .tNsec := hframe.val_eq (by decide)
  obtain ⟨v, hv, hvbuf⟩ := tsEncode_destAt (s := u) (a := a + 48) (n := n - 48) (by rwa [hframe.params])
    (by rw [hframe.params]; omega) hu.noFault (by omega) (hframe.regsReadable (by decide) htime) (by rwa [hsec])
  exact ⟨u, v, hu, hv, by rw [hvbuf, hubuf, hsec, hnsec]⟩

/-- Settles O48: each step finds room and its operands, and the three stores are the store of the frame cut in three. -/
theorem frameIsItsThreeSteps : Obligations.FrameIsItsThreeSteps := by
  intro s t hlegal h
  obtain ⟨ht, -, hregion, hl, hs, hsec, hrest⟩ := frameBuild_success h
  unfold dstValid at hregion
  obtain ⟨haddr, henc⟩ := regsReadable_append.mp hrest
  have hm : s.faultMark = false := by simpa [ht] using h.noFault
  have htime : regsReadable [.tSec, .tNsec] s :=
    regsReadable_append (rs := [.tSec]).mpr ⟨hsec, regsReadable_mono haddr (by simp)⟩
  have heth := frame_storeBytes s (s.val .dstOff) (ethBytes (s.val .eDst) (s.val .eSrc))
  rw [memWrite_ethBytes]
  obtain ⟨u, v, hu, hv, hbuf⟩ := hdrEncode_then_tsEncode (by rwa [heth.params]) (by rwa [heth.params])
    (by simpa using hm) hl (by simpa using hs) (heth.regsReadable (by simp) (by rwa [heth.params])) (heth.regsReadable (by simp) htime)
  refine ⟨u, v, hu, hv, ?_⟩
  rw [hbuf, ht]
  simp [writeBytes_frameBytes]

end Sys2Proof.Machine

/-! # Proofs: the errors (spec/60_exceptions.md)

An error is a result (rule R200). Where each one is reported stands in one equation per command and error; what a failed
FRAME_BUILD leaves is `State.frameFailed`. `PreciseEnd` says once how any other command may end, from which the precision of
rule R209 and the only cause of OutOfRange (rule R204) follow. The refused host actions are those that the register table and
the bounds rule out (rule R211). -/

namespace Sys2Proof.Machine

/-! ### The length and range errors of the codec commands (rules R202 to R204) -/

theorem withRegion_of_valid {off len : RegName} {s : State} {k : Region → Host.Outcome State Fault Refusal}
    (hr : regsReadable [off, len] s) (hv : s.val off + s.val len ≤ s.params.bufSize) :
    withRegion off len s k = k { off := s.val off, len := s.val len } := by
  rcases withRegion_cases off len s k with ⟨hn, _⟩ | ⟨_, hlt, _⟩ | ⟨_, _, e⟩
  · exact absurd hr hn
  · exact absurd hlt hv.not_gt
  · exact e

section Reports
variable {s : State}

theorem hdrEncode_tooSmall (hr : regsReadable [.dstOff, .dstLen] s) (hv : dstValid s) (hl : s.val .dstLen < 34) :
    exec .hdrEncode s = .next (s.setResult 0x01 0) := by
  rw [exec_hdrEncode, execHdrEncode, withRegion_of_valid hr hv]
  exact if_pos hl

theorem hdrDecode_truncated (hr : regsReadable [.srcOff, .srcLen] s) (hv : srcValid s) (hl : s.val .srcLen < 34) :
    exec .hdrDecode s = .next (s.setResult 0x02 0) := by
  rw [exec_hdrDecode, execHdrDecode, withRegion_of_valid hr hv]
  exact if_pos hl

theorem tsDecode_truncated (hr : regsReadable [.srcOff, .srcLen] s) (hv : srcValid s) (hl : s.val .srcLen < 10) :
    exec .tsDecode s = .next (s.setResult 0x02 0) := by
  rw [exec_tsDecode, execTsDecode, withRegion_of_valid hr hv]
  exact if_pos hl

theorem tsEncodeWith_outOfRange (pick : Bool) (hr : regsReadable [.dstOff, .dstLen, .tSec] s) (hv : dstValid s)
    (hl : 10 ≤ s.val .dstLen) (hs : 2 ^ 48 ≤ s.val .tSec) : tsEncodeWith pick s = .next (s.setResult 0x03 0) := by
  obtain ⟨hregion, hsec⟩ := regsReadable_append (rs := [.dstOff, .dstLen]) (qs := [.tSec]).mp hr
  rw [tsEncodeWith, withRegion_of_valid hregion hv, reading_of_readable hsec, if_neg fun c => c.1.not_ge hl,
    if_neg (show ¬ s.val .dstLen < tsSize from hl.not_gt)]
  exact if_pos hs

/-- TS_ENCODE without room: BufferTooSmall, or what ERR_PICK draws where the seconds are out of range too. -/
theorem tsEncodeWith_tooSmall (pick : Bool) (hr : regsReadable [.dstOff, .dstLen, .tSec] s) (hv : dstValid s)
    (hl : s.val .dstLen < 10) : ∃ n e, tsEncodeWith pick s = .next ((s.useDraws n).setResult (ErrorKind.code e) 0) ∧
      (e = .bufferTooSmall ∨ 2 ^ 48 ≤ s.val .tSec ∧ e = .outOfRange) := by
  by_cases hs : 2 ^ 48 ≤ s.val .tSec
  · refine ⟨1, pickedError pick, tsEncodeWith_bothErrors pick hr hv hl hs, ?_⟩
    cases pick
    · exact .inr ⟨hs, rfl⟩
    · exact .inl rfl
  · obtain ⟨hregion, hsec⟩ := regsReadable_append (rs := [.dstOff, .dstLen]) (qs := [.tSec]).mp hr
    refine ⟨0, .bufferTooSmall, ?_, .inl rfl⟩
    rw [tsEncodeWith, withRegion_of_valid hregion hv, reading_of_readable hsec, if_neg fun c => hs c.2]
    exact if_pos hl

end Reports

/-- Settles O18: both decodes test the length of the source region before they read a byte. -/
theorem truncatedInputCases : Obligations.TruncatedInputCases :=
  fun _ hr hv => ⟨fun hl => error_result_and_frame (hdrDecode_truncated (regsReadable_of_ready hr) hv hl),
    fun hl => error_result_and_frame (tsDecode_truncated (regsReadable_of_ready hr) hv hl)⟩

/-! ### The errors of FRAME_BUILD (rules R151 to R153) -/

section FrameFailed
variable {s : State} {pick : Bool}

/-- A region that is too short reports OutOfRange only where both errors apply. -/
theorem clash_of_frameError_outOfRange (hl : s.val .dstLen < 58) (h : frameError pick s = .outOfRange) :
    FrameErrorsClash s := by
  by_contra hno
  rw [frameError_of_short pick hl hno] at h
  cases h

theorem frameFailed_result_of_error {free : Nat → Byte} {k : ErrorKind} (h : frameError pick s = k) :
    Result (s.frameFailed pick free) k.code.toNat 0 :=
  h ▸ frameFailed_result s pick free

theorem frame_frameFailed (s : State) (pick : Bool) (free : Nat → Byte) :
    Frame s (s.frameFailed pick free) [.status, .resLen] (s.val .dstOff) (min (s.val .dstLen) 58) := by
  have hframe := frame_store_setResult s (frameError pick s).code 0 (s.val .dstOff)
    ((if FrameErrorsClash s then 1 else 0) + min (s.val .dstLen) 58) (drawnBytes free (min (s.val .dstLen) 58))
  rwa [drawnBytes_length] at hframe

theorem bytesReady_frameFailed (free : Nat → Byte) (hl : s.val .dstLen ≤ 58) :
    bytesReady (s.val .dstOff) (s.val .dstLen) (s.frameFailed pick free) :=
  fun i hi => ⟨free i, frameFailed_byte_inside s pick free (by omega)⟩

end FrameFailed

/-- Settles O17: too short a region is each command's own test; where ERR_PICK draws the other error, the seconds are out of
range as well. -/
theorem bufferTooSmallCases : Obligations.BufferTooSmallCases := by
  refine ⟨fun s hr hv hl => ?_, fun s hr hv hl => ?_, fun s hr hv hl hsec => ?_⟩
  · exact error_result_and_frame (hdrEncode_tooSmall (regsReadable_of_ready hr) hv hl)
  · obtain ⟨n, e, hrun, he⟩ := tsEncodeWith_tooSmall (Config.errPick s.draws) (regsReadable_of_ready hr) hv hl
    have hresult := (s.useDraws n).setResult_result e.code 0 (by decide)
    refine ⟨_, hrun, frame_store_setResult s _ 0 0 n [], rfl, ?_⟩
    rcases he with rfl | ⟨hs, rfl⟩
    · exact .inl hresult
    · exact .inr ⟨hs, hresult⟩
  · refine ⟨_, frameBuildWith_fails _ _ (regsReadable_of_ready hr) hv (fun h => regsReadable_of_ready (hsec h)) (.inl hl),
      (frame_frameFailed ..).mono (List.Subset.refl _) (.inr ⟨le_rfl, by omega⟩), bytesReady_frameFailed _ hl.le,
      frameFailed_faultMark .., ?_⟩
    rcases frameError_cases (Config.errPick s.draws) s with he | he
    · exact .inl (frameFailed_result_of_error he)
    · obtain ⟨h48, _, hs⟩ := clash_of_frameError_outOfRange hl he
      exact .inr ⟨h48, hs, frameFailed_result_of_error he⟩

/-! ### The ends of the other commands (rules R204, R209) -/

/-- How a command other than FRAME_BUILD may end: the fault with no other effect, success, or an error that sets the result
pair alone; the error is OutOfRange only for TS_ENCODE with seconds of 2^48 and more. -/
inductive PreciseEnd (i : Instr) (s : State) : State → Prop
  | faulted : PreciseEnd i s s.faulted
  | ok {u : State} {n : Nat} : PreciseEnd i s (u.setResult 0x00 n)
  | error (n : Nat) (e : ErrorKind) (he : e = .outOfRange → i = .tsEncode ∧ 2 ^ 48 ≤ s.val .tSec) :
      PreciseEnd i s ((s.useDraws n).setResult e.code 0)

/-- An error that is not OutOfRange and uses no draw. -/
theorem PreciseEnd.otherError {i : Instr} {s : State} (e : ErrorKind) (he : e ≠ .outOfRange) :
    PreciseEnd i s (s.setResult e.code 0) :=
  .error 0 e fun h => absurd h he

theorem tsEncode_preciseEnd {pick : Bool} {s t : State} (h : tsEncodeWith pick s = .next t) : PreciseEnd .tsEncode s t := by
  rcases tsEncodeWith_cases pick s with ⟨e, _⟩ | ⟨e, _⟩ | ⟨e, _, _, _, _, hs⟩ | ⟨e, _⟩ | ⟨e, _, _, _, _, hs⟩ | ⟨e, _⟩ <;>
    obtain rfl := next_unique e h
  · exact .faulted
  · exact .otherError .badRegion (by decide)
  · exact .error 1 _ fun _ => ⟨rfl, hs⟩
  · exact .otherError .bufferTooSmall (by decide)
  · exact .error 0 .outOfRange fun _ => ⟨rfl, hs⟩
  · exact .ok

theorem exec_preciseEnd {i : Instr} {s t : State} (hi : i ≠ .frameBuild) (h : exec i s = .next t) : PreciseEnd i s t := by
  cases i with
  | hdrInit =>
    obtain rfl := next_unique (execHdrInit_eq s) h
    exact .ok
  | hdrEncode =>
    rcases execHdrEncode_cases s with ⟨e, _⟩ | ⟨e, _⟩ | ⟨e, _⟩ | ⟨e, _⟩ <;> obtain rfl := next_unique e h
    · exact .faulted
    · exact .otherError .badRegion (by decide)
    · exact .otherError .bufferTooSmall (by decide)
    · exact .ok
  | hdrDecode =>
    rcases execHdrDecode_cases s with ⟨e, _⟩ | ⟨e, _⟩ | ⟨e, _⟩ | ⟨_, e, _⟩ <;> obtain rfl := next_unique e h
    · exact .faulted
    · exact .otherError .badRegion (by decide)
    · exact .otherError .truncatedInput (by decide)
    · exact .ok
  | tsEncode => exact tsEncode_preciseEnd h
  | tsDecode =>
    rcases execTsDecode_cases s with ⟨e, _⟩ | ⟨e, _⟩ | ⟨e, _⟩ | ⟨_, e, _⟩ <;> obtain rfl := next_unique e h
    · exact .faulted
    · exact .otherError .badRegion (by decide)
    · exact .otherError .truncatedInput (by decide)
    · exact .ok
  | frameBuild => exact absurd rfl hi

/-- Settles O32: of the ends of such a command, the fault changes no register and no byte, and an error the result pair alone. -/
theorem errorsArePrecise : Obligations.ErrorsArePrecise := by
  intro i s t h hstatus hi
  cases exec_preciseEnd hi h with
  | faulted => exact frame_faulted ..
  | ok => exact absurd (State.setResult_val_status ..) hstatus
  | error n e => exact frame_store_setResult s e.code 0 0 n []

theorem eq_outOfRange_of_code {e : ErrorKind} (h : e.code.toNat = 0x03) : e = .outOfRange := by
  cases e with
  | outOfRange => rfl
  | _ => exact absurd h (by decide)

theorem PreciseEnd.outOfRange {i : Instr} {s t : State} (h : PreciseEnd i s t) (hm : t.faultMark = false)
    (h3 : t.val .status = 0x03) : i = .tsEncode ∧ 2 ^ 48 ≤ s.val .tSec := by
  cases h with
  | faulted => cases hm
  | ok => simp at h3
  | error n e he => exact he (eq_outOfRange_of_code ((State.setResult_val_status ..).symm.trans h3))

theorem frameBuildWith_outOfRange {pick : Bool} {free : Nat → Byte} {s t : State} (h : frameBuildWith pick free s = .next t)
    (hm : t.faultMark = false) (h3 : t.val .status = 0x03) : 2 ^ 48 ≤ s.val .tSec := by
  rcases frameBuildWith_ends pick free s with ⟨e, _⟩ | ⟨e, _⟩ | ⟨e, hfail⟩ | ⟨e, _⟩
  · exact absurd e (ne_next_faulted h hm)
  · exact absurd ((code_eq_status e h).trans h3) (by decide)
  · have herror : frameError pick s = .outOfRange := eq_outOfRange_of_code ((code_eq_status e h).trans h3)
    rcases hfail with hl | hs
    · exact (clash_of_frameError_outOfRange hl herror).2.2
    · exact hs
  · exact absurd ((code_eq_status e h).trans h3) (by decide)

/-- Settles O19: seconds out of range are reported where the region is long enough, and no end of any command but these two
sets 0x03. -/
theorem outOfRangeCases : Obligations.OutOfRangeCases := by
  refine ⟨fun s hr hv hl hs => ?_, fun s hr hv hl hs => ?_, fun i s t h hm h3 => ?_⟩
  · exact error_result_and_frame (tsEncodeWith_outOfRange _ (regsReadable_of_ready hr) hv hl hs)
  · obtain ⟨hregion, hsec⟩ := regsReadable_append (rs := [.dstOff, .dstLen]) (qs := [.tSec]).mp (regsReadable_of_ready hr)
    exact ⟨_, frameBuildWith_fails _ _ hregion hv (fun _ => hsec) (.inr hs),
      frameFailed_result_of_error (frameError_of_long _ hl),
      (frame_frameFailed ..).mono (List.Subset.refl _) (.inr ⟨le_rfl, by omega⟩), frameFailed_faultMark ..⟩
  · by_cases hi : i = .frameBuild
    · subst hi
      exact ⟨.inr rfl, frameBuildWith_outOfRange h hm h3⟩
    · obtain ⟨rfl, hs⟩ := (exec_preciseEnd hi h).outOfRange hm h3
      exact ⟨.inl rfl, hs⟩

/-! ### The refused host actions (rules R30, R31, R51, R211) -/

/-- The table of the well-formedness check is that of the operand forms. -/
theorem registerTable_eq : registerTable = allRegs.map fun r => ((regId r).toNat, r, readOnly r) := rfl

theorem wellFormed_wr_iff {p : Params} {id : Byte} {v : Nat} : (HostAction.wr id v).wellFormed p = true ↔
    ∃ r, regOfId id = some r ∧ readOnly r = false ∧ v < 2 ^ r.width := by
  simp [HostAction.wellFormed, registerTable_eq, mem_allRegs, BitVec.toNat_inj, regOfId_eq_some_iff, and_assoc]

theorem wellFormed_rd_iff {p : Params} {id : Byte} : (HostAction.rd id).wellFormed p = true ↔ ∃ r, regOfId id = some r := by
  simp [HostAction.wellFormed, registerTable_eq, mem_allRegs, BitVec.toNat_inj, regOfId_eq_some_iff]

theorem wellFormed_bw_iff {p : Params} {a b : Nat} : (HostAction.bw a b).wellFormed p = true ↔ a < p.bufSize ∧ b < 256 := by
  simp [HostAction.wellFormed]

theorem wellFormed_br_iff {p : Params} {a : Nat} : (HostAction.br a).wellFormed p = true ↔ a < p.bufSize := by
  simp [HostAction.wellFormed]

/-- A host action answers a next state exactly if it is well formed. -/
theorem perform_answers_iff {a : HostAction} {s : State} : (∃ t, perform a s = .next t) ↔ a.wellFormed s.params = true := by
  cases a with
  | wr id v =>
    rw [wellFormed_wr_iff]
    change (∃ t, hostWrite id v s = .next t) ↔ _
    rcases hostWrite_cases id v s with ⟨h, e⟩ | ⟨r, h, hro, e⟩ | ⟨r, h, hro, hv, e⟩ | ⟨r, h, hro, hv, e⟩
    · simp [e, h]
    · simp [e, h, hro]
    · simp [e, h, hv]
    · simp [e, h, hro, hv]
  | rd id =>
    rw [wellFormed_rd_iff]
    change (∃ t, hostRead id s = .next t) ↔ _
    rcases hostRead_cases id s with ⟨h, e⟩ | ⟨r, h, _, e⟩ | ⟨r, h, _, e⟩ <;> simp [e, h]
  | bw a b =>
    rw [wellFormed_bw_iff]
    change (∃ t, bufWrite a b s = .next t) ↔ _
    rcases bufWrite_cases a b s with ⟨ha, e⟩ | ⟨_, hb, e⟩ | ⟨ha, hb, e⟩
    · simp [e, ha.not_gt]
    · simp [e, hb.not_gt]
    · simp [e, ha, hb]
  | br a =>
    rw [wellFormed_br_iff]
    change (∃ t, bufRead a s = .next t) ↔ _
    rcases bufRead_cases a s with ⟨ha, e⟩ | ⟨ha, _, e⟩ | ⟨b, ha, _, e⟩
    · simp [e, ha.not_gt]
    · simp [e, ha]
    · simp [e, ha]
  | cmd op =>
    refine iff_of_true ?_ rfl
    rcases issue_cases op s with ⟨i, _, e⟩ | ⟨_, _, e⟩
    · obtain ⟨t, ht⟩ := exec_answers i s
      exact ⟨t, e.trans ht⟩
    · exact ⟨_, e⟩
  | reset => exact iff_of_true ⟨_, rfl⟩ rfl

/-- Settles O30: no action stops with a fault, so one that answers no next state is refused. -/
theorem refusedIffNotWellFormed : Obligations.RefusedIffNotWellFormed := by
  intro s a
  rw [← Bool.not_eq_true, ← perform_answers_iff]
  cases h : perform a s with
  | next t => simp
  | fault f => exact absurd h (perform_ne_fault a s f)
  | refused r => simp

end Sys2Proof.Machine

/-! # Proofs: reset and hazards (spec/70_reset_and_hazards.md)

The host action reset leaves the block as power-on does, and a run that has stopped with a fault has stopped for good (rules R230,
R35). What rule R232 lists are the registers and bytes a command may read, so that a ready command reads no unwritten location;
and TS_ENCODE with the region moved to the timestamp of a frame stores over that timestamp alone (rule R236). -/

namespace Sys2Proof.Machine

/-! ### Reset (rules R230, R35) -/

/-- A run of one step and more that stops with a fault stops at its first step or after it. -/
theorem runFor_succ_fault {n : Nat} {s : State} {f : Fault} (h : runFor (n + 1) s = .fault f) :
    step s = .fault f ∨ ∃ u, step s = .next u ∧ runFor n u = .fault f := by
  unfold runFor at h
  split at h
  next u hu => exact .inr ⟨u, hu, h⟩
  next g hg => exact .inl (hg.trans h)
  next => cases h

theorem runFor_succ_of_fault {s : State} {f : Fault} (h : step s = .fault f) (n : Nat) : runFor (n + 1) s = .fault f := by
  rw [runFor, h]

/-- A run that has stopped with a fault has no further steps. -/
theorem runFor_fault_add {n : Nat} (m : Nat) {s : State} {f : Fault} (h : runFor n s = .fault f) :
    runFor (n + m) s = .fault f := by
  induction n generalizing s with
  | zero => cases h
  | succ n ih =>
    rw [Nat.succ_add]
    rcases runFor_succ_fault h with hs | ⟨u, hu, hrun⟩
    · exact runFor_succ_of_fault hs _
    · rw [runFor_succ_of_next hu, ih hrun]

/-- Settles O5: the block is that of `State.resetWith`, whose marks and values are known; a faulted run by induction on its steps. -/
theorem resetActionClearsBlock : Obligations.ResetActionClearsBlock := by
  refine ⟨fun s => ?_, fun s f n m => runFor_fault_add m⟩
  obtain ⟨⟨hstatusMark, hstatus, hresLenMark, hresLen⟩, hunwritten, hbytes, -⟩ := resetStateIsAsGiven.1 s.params
  exact ⟨_, rfl, ⟨hstatusMark, hstatus, hresLenMark, hresLen⟩, hunwritten, hbytes, rfl, rfl, rfl, rfl, rfl, rfl, rfl, rfl⟩

/-! ### Ready commands (rule R232) -/

theorem bytesReady_zero (a : Nat) (s : State) : bytesReady a 0 s := fun i hi => absurd hi (Nat.not_lt_zero i)

/-- What rule R232 lists is what the command may read: its operand registers, and the source bytes of a decode. -/
theorem ready_iff {i : Instr} {s : State} : Ready i s ↔
    regsReady (operandRegs s.params.reservedOnEncode i) s ∧ bytesReady (s.val .srcOff) (readSize i) s := by
  cases i with
  | hdrInit => exact iff_of_true trivial ⟨fun r hr => absurd hr List.not_mem_nil, bytesReady_zero _ s⟩
  | hdrDecode | tsDecode => exact Iff.rfl
  | hdrEncode | tsEncode | frameBuild => exact (and_iff_left (bytesReady_zero _ s)).symm

/-- A ready command does what it does where every register may be read, and there only an unwritten byte raises the fault. -/
theorem exec_keeps_faultMark_of_ready {i : Instr} {s t : State} (hready : Ready i s) (h : exec i s = .next t) :
    t.faultMark = s.faultMark := by
  obtain ⟨hregs, hbytes⟩ := ready_iff.mp hready
  cases hm : s.faultMark with
  | true =>
    rcases exec_fault_cases h with rfl | e
    · rfl
    · exact e.trans hm
  | false =>
    have hfollows : Follows (operandRegs s.params.reservedOnEncode i) s (s.withUnwrittenRead .holds) :=
      ⟨rfl, rfl, rfl, fun _ _ _ => ⟨.inl rfl, rfl⟩⟩
    rcases exec_parallel hfollows fun _ _ => rfl with ⟨_, hfault⟩ | ⟨f, hf, e, _⟩
    · have hread : SameReadable (operandRegs s.params.reservedOnEncode i) s (s.withUnwrittenRead .holds) := fun r hr =>
        iff_of_true (regsReadable_iff.mp (.inr hregs) r hr) (.inl rfl)
      obtain ⟨_, _, hunwritten⟩ :=
        (exec_faulted_iff_of_readable (s := s.withUnwrittenRead .holds) hm (fun _ => .inl rfl) i).mp (hfault hread)
      exact absurd hbytes hunwritten
    · rw [next_unique h e, hf.faultMark, hm]

/-- Settles O15: every command answers, and a ready one keeps the mark. -/
theorem readyCommandsComplete : Obligations.ReadyCommandsComplete := by
  refine ⟨fun i s hready => ?_, exec_answers⟩
  obtain ⟨t, ht⟩ := exec_answers i s
  exact ⟨t, ht, exec_keeps_faultMark_of_ready hready ht⟩

/-! ### TS_ENCODE over a built frame (rule R236) -/

theorem State.setTimestamp_tSec (s : State) {sec : Nat} (nsec : Nat) (h : sec < 2 ^ 48) :
    (s.setTimestamp sec nsec).val .tSec = sec := by
  have hval := s.setTimestamp_setResult_tSec nsec 0x00 0 h
  rwa [State.setResult_val_ne _ _ _ (by decide) (by decide)] at hval

theorem State.setTimestamp_tNsec (s : State) (sec : Nat) {nsec : Nat} (h : nsec < 2 ^ 32) :
    (s.setTimestamp sec nsec).val .tNsec = nsec := by
  have hval := s.setTimestamp_setResult_tNsec sec 0x00 0 h
  rwa [State.setResult_val_ne _ _ _ (by decide) (by decide)] at hval

/-- TS_ENCODE with new values and the region moved to `a`. -/
theorem tsEncode_setTimestamp_destAt {s : State} {a sec nsec : Nat} (hlegal : paramsAdmitted s.params = true)
    (hsize : a + 10 ≤ s.params.bufSize) (hm : s.faultMark = false) (hsec : sec < 2 ^ 48) (hnsec : nsec < 2 ^ 32) :
    ∃ u, Succeeds .tsEncode ((s.setTimestamp sec nsec).destAt a 10) u ∧ u.buf = s.buf.writeBytes a (encTs sec nsec) := by
  have hready : regsReady [.tSec, .tNsec] (s.setTimestamp sec nsec) := by
    simp [regsReady, State.setTimestamp, State.isWritten_writeReg_of]
  have hsecVal := s.setTimestamp_tSec nsec hsec
  have hnsecVal := s.setTimestamp_tNsec sec hnsec
  have hrun := tsEncode_destAt (s := s.setTimestamp sec nsec) (a := a) (n := 10) (by simpa using hlegal)
    (by simpa using hsize) (by simpa using hm) le_rfl (.inr hready) (by rwa [hsecVal])
  rwa [hsecVal, hnsecVal, State.setTimestamp_buf] at hrun

/-- The two fields of an encoded timestamp in BUF (rule R79). -/
theorem memRead_encTs {u : State} {a sec nsec : Nat} (hb : u.buf.readBytes a 10 = some (encTs sec nsec))
    (hsec : sec < 2 ^ 48) (hnsec : nsec < 2 ^ 32) : u.memRead a 6 = some sec ∧ u.memRead (a + 6) 4 = some nsec := by
  constructor
  · have hread := memRead_slice hb (o := 0) (n := 6) (by decide)
    rwa [← decSec_eq (by simp), decSec_encTs _ hsec] at hread
  · have hread := memRead_slice hb (o := 6) (n := 4) (by decide)
    rwa [← decNsec, decNsec_encTs _ hnsec] at hread

/-- Settles O49: the region lies in the frame's own, and the ten bytes stored at frame offset 48 end with the frame. -/
theorem timestampPatchesFrame : Obligations.TimestampPatchesFrame := by
  intro s t v w hlegal h hv hw
  obtain ⟨ht, -, hregion, hl, -⟩ := frameBuild_success h
  have hparams : t.params = s.params := by rw [ht, State.setResult_params, State.storeBytes_params]
  unfold dstValid at hregion
  obtain ⟨u, hu, hbuf⟩ := tsEncode_setTimestamp_destAt (s := t) (a := s.val .dstOff + 48) (by rwa [hparams])
    (by rw [hparams]; omega) h.noFault hv hw
  have hread : u.buf.readBytes (s.val .dstOff + 48) 10 = some (encTs v w) := by
    rw [hbuf, ← encTs_length v w]
    exact Memory.readBytes_writeBytes ..
  obtain ⟨hsec, hnsec⟩ := memRead_encTs hread hv hw
  refine ⟨u, hu, hsec, hnsec, fun c hc => ?_⟩
  rw [State.byte, hbuf]
  exact Memory.read_writeBytes_outside _ _ (by rwa [encTs_length])

end Sys2Proof.Machine
